-- ==== Sys2Proof/Word.lean ====
section
/-! DEFINITION. The two word widths of the hardware (rule R40 of spec/20_memory.md, rule R5 of
spec/00_scope.md): a Byte is 8 bits, an Address and every 16-bit register are 16 bits. -/

namespace Sys2Proof

/-- "8-bit unsigned, the unit of transfer" (R40). -/
abbrev Byte := BitVec 8

/-- A 16-bit register content or an Address "0x0000 to 0xFFFF" (R40). -/
abbrev Word := BitVec 16

end Sys2Proof
end

