-- ==== Sys2Proof/Machine/Bits.lean ====
section
/-! DEFINITION. Bit fields, composition and extension (rules R6, R7 of spec/00_scope.md, R13 of
spec/10_state.md, R92 of spec/30_encoding.md). -/

namespace Sys2Proof

/-- `compose(high, low) = high ++ low` (R13). -/
def compose (high low : Byte) : Word := high ++ low

/-- `v[15:8]` (R13). -/
def highByte (v : Word) : Byte := v.extractLsb' 8 8

/-- `v[7:0]` (R13). -/
def lowByte (v : Word) : Byte := v.extractLsb' 0 8

/-- `decompose(v) = (v[15:8], v[7:0])` (R13). -/
def decompose (v : Word) : Byte × Byte := (highByte v, lowByte v)

/-- `zext_16` (R7). -/
def zext16 (v : Byte) : Word := v.zeroExtend 16

/-- `sext_16`: the operand bytes `e` and `d` read as -128 to +127 (R7, R96). -/
def sext16 (v : Byte) : Word := v.signExtend 16

/-- `x = op[7:6]` (R92). -/
def fieldX (op : Byte) : BitVec 2 := op.extractLsb' 6 2

/-- `y = op[5:3]` (R92). -/
def fieldY (op : Byte) : BitVec 3 := op.extractLsb' 3 3

/-- `z = op[2:0]` (R92). -/
def fieldZ (op : Byte) : BitVec 3 := op.extractLsb' 0 3

/-- `p = op[5:4]`, the high bits of `y` (R92). -/
def pairOf (y : BitVec 3) : BitVec 2 := y.extractLsb' 1 2

/-- `q = op[3]`, the low bit of `y` (R92). -/
def qOf (y : BitVec 3) : Bool := y.getLsbD 0

/-- The opcode byte with the fields `x`, `y`, `z` (R92). -/
def opByte (x : BitVec 2) (y z : BitVec 3) : Byte := x ++ y ++ z

/-- The field `y` with the halves `p` and `q` (R92). -/
def yOf (p : BitVec 2) (q : Bool) : BitVec 3 := p ++ BitVec.ofBool q

/-! ### By cases on the fields (R92) -/

theorem forall_field3 {P : BitVec 3 → Prop} (h0 : P 0#3) (h1 : P 1#3) (h2 : P 2#3) (h3 : P 3#3)
    (h4 : P 4#3) (h5 : P 5#3) (h6 : P 6#3) (h7 : P 7#3) : ∀ v, P v := by
  intro v
  have : v = 0#3 ∨ v = 1#3 ∨ v = 2#3 ∨ v = 3#3 ∨ v = 4#3 ∨ v = 5#3 ∨ v = 6#3 ∨ v = 7#3 := by
    revert v; decide
  rcases this with h | h | h | h | h | h | h | h <;> rw [h] <;> assumption

theorem forall_field2 {P : BitVec 2 → Prop} (h0 : P 0#2) (h1 : P 1#2) (h2 : P 2#2) (h3 : P 3#2) :
    ∀ v, P v := by
  intro v
  have : v = 0#2 ∨ v = 1#2 ∨ v = 2#2 ∨ v = 3#2 := by revert v; decide
  rcases this with h | h | h | h <;> rw [h] <;> assumption

theorem opByte_fields : ∀ b : Byte, opByte (fieldX b) (fieldY b) (fieldZ b) = b := by decide

/-- A byte is its three fields (R92). -/
theorem forall_opByte {P : Byte → Prop} (h : ∀ x y z, P (opByte x y z)) (b : Byte) : P b := by
  rw [← opByte_fields b]; exact h _ _ _

end Sys2Proof
end

