-- ==== Sys2Proof/Config.lean ====
section
/-! DEFINITION. What the configuration of the reference machine fixes (rule R5 of
spec/00_scope.md), the defaults the launch state takes for the parameters the spec leaves OPEN,
and the one free value of the model. The OPEN parameters themselves are fields of State
(`Conf`, the pending boot inputs, the devices), so a statement over every state holds for every
choice of them. -/

namespace Sys2Proof.Config

/-- `ROM_BASE`, `ROM_LEN` (R5). -/
def romBase : Word := 0x0000#16
def romLen : Nat := 0x4000

/-- `BANK_BASE`, `BANK_LEN` (R5, R54). -/
def bankBase : Word := 0x4000#16
def bankLen : Nat := 0x4000

/-- `RAM_BASE`, `RAM_LEN` (R5, R52; placement: conflict C1, decision D14). -/
def ramBase : Word := 0x8000#16
def ramLen : Nat := 0x8000

/-- One past the highest Address: the largest `end` a Range may have (R42, decision D15). -/
def spaceEnd : Nat := 0x10000

/-- `BORDER_PORT`, default of the OPEN parameter (R5, decision D20). DESIGN CHOICE, log entry 4. -/
def borderPort : Word := 0x00FE#16

/-- `OPEN_BUS`, default of the OPEN parameter (R163, decision D12). DESIGN CHOICE, log entry 4. -/
def openBus : Byte := 0xFF#8

/-- `CPU_DIV`, launch value of the OPEN parameter. DESIGN CHOICE, log entry 4. -/
def cpuDiv : Nat := 1

/-- `VIDEO_DIV`, launch value of the OPEN parameter. DESIGN CHOICE, log entry 4. -/
def videoDiv : Nat := 1

/-- `TICK_QUEUE_CAP`, launch value of the OPEN parameter. DESIGN CHOICE, log entry 4. -/
def tickQueueCap : Nat := 1

/-- `STOP_GRACE`, launch value of the OPEN parameter, in Clock steps. DESIGN CHOICE, log entry 4. -/
def stopGrace : Nat := 0

/-- What a byte of device storage that no cell lists reads as: the launch content chosen for
`ROM_IMAGE` and `RESET_RAM` (R35). DESIGN CHOICE, unsafe, log entry 2. -/
def unlisted : Byte := 0x00#8

/-- A colour as (red, green, blue) (R56). -/
abbrev Colour := Byte × Byte × Byte

/-- `PALETTE` (R5, R56): bit 0 of a code is blue, bit 1 red, bit 2 green, each
at intensity 0xd7. Entry 2 is the source's, the rest decision D22. -/
def palette (code : BitVec 3) : Colour :=
  let level (on : Bool) : Byte := if on then 0xD7#8 else 0x00#8
  (level (code.getLsbD 1), level (code.getLsbD 2), level (code.getLsbD 0))

/-- FREE VALUE (log entry 5): by how much DISPLAY's render position advances at its `n`-th Tick.
The spec says only that it never decreases (R30, decision D38; spec/91_not_in_source.md N25). -/
opaque renderAdvance : Nat → Nat

end Sys2Proof.Config
end

