-- ==== Sys2Proof/Machine/State.lean ====
section
/-! DEFINITION. Everything the spec gives the machine to remember (spec/10_state.md), as plain
data, the reasons a step can stop, and the state after construction, the only reset (R290). -/

namespace Sys2Proof.Machine

/-! ### Register file -/

/-- The stored registers (R11, R12, R15 to R17). The 16-bit pairs are views (R13). -/
structure RegFile where
  a : Byte
  f : Byte
  b : Byte
  c : Byte
  d : Byte
  e : Byte
  h : Byte
  l : Byte
  a' : Byte
  f' : Byte
  b' : Byte
  c' : Byte
  d' : Byte
  e' : Byte
  h' : Byte
  l' : Byte
  ix : Word
  iy : Word
  sp : Word
  pc : Word
  deriving DecidableEq, Repr

/-! ### Messages -/

/-- The two address spaces (R40). -/
inductive Space
  | mem | io
  deriving DecidableEq, Repr

/-- The two directions: with the space they make the four access kinds (R44). -/
inductive Dir
  | read | write
  deriving DecidableEq, Repr

/-- Messages of the Clock to a subsystem (R84). -/
inductive ClockMsg
  | tick | stop
  deriving DecidableEq, Repr

/-- Messages in the Clock's control queue (R27, R84). -/
inductive ControlMsg
  | stop
  deriving DecidableEq, Repr

/-- `[start, stop)`: `stop` is one past the last address, up to 0x10000 (R42). -/
structure Range where
  start : Word
  stop : Nat
  deriving DecidableEq, Repr

/-- The four lists a Device declares (R43, R46). -/
structure RangesRet where
  memRead : List Range
  memWrite : List Range
  ioRead : List Range
  ioWrite : List Range
  deriving DecidableEq, Repr

/-- The five requests of the Device contract; addresses are device-relative offsets (R46, R83). -/
inductive Request
  | getRanges
  | memGet (offset : Word)
  | memPut (offset : Word) (value : Byte)
  | ioGet (offset : Word)
  | ioPut (offset : Word) (value : Byte)
  deriving DecidableEq, Repr

/-- The replies of the Device contract (R46, R49). -/
inductive Reply
  | rangesRet (r : RangesRet)
  | memReadOk (value : Byte)
  | memWriteOk
  | ioReadOk (value : Byte)
  | ioWriteOk
  | err
  deriving DecidableEq, Repr

/-- What the Bus meets when it waits for a device: a reply, a terminated device (R264), or a device
that lives and never replies (R118). -/
inductive Answer
  | reply (r : Reply)
  | closed
  | silent
  deriving DecidableEq, Repr

/-! ### Devices -/

/-- Device storage: the bytes that differ from `Config.unlisted`, offsets strictly rising. -/
abbrev Memory := List Host.Cell

/-- What DISPLAY hands to the video layer (R56): the colour of a changed border, as (red, green, blue)
(R253, conflict C10), and its render position. -/
inductive VideoMsg
  | border (colour : Config.Colour)
  | position (pos : Nat)
  deriving DecidableEq, Repr

/-- DISPLAY at its boundary (R30). `seen` counts the Ticks it has consumed: it is the model's own
index of the free value `Config.renderAdvance`. `out` is what it has handed to the video layer,
oldest first. -/
structure Display where
  border : BitVec 3
  renderPos : Nat
  seen : Nat
  out : List VideoMsg
  deriving DecidableEq, Repr

/-- What a device is. `scripted` admits arbitrary devices (R64, U20 of
spec/93_implementation_defined.md) as plain data: it answers its successive requests with its
successive entries, and after the last one it has terminated. -/
inductive DeviceKind
  | rom (len : Nat) (cells : Memory)
  | ram (len : Nat) (cells : Memory)
  | display (unit : Display)
  | scripted (script : List Answer)
  deriving DecidableEq, Repr

/-- A device agent (R46, R50). `inbox` and `exited` are its face as a subsystem of the Clock (R30,
R130): its Tick queue, and whether it has consumed `Stop`. `alive` is false once the actor has
terminated unexpectedly (R264). `registered` records that it was handed to the Bus (R114). -/
structure Device where
  decl : RangesRet
  kind : DeviceKind
  alive : Bool
  registered : Bool
  inbox : List ClockMsg
  exited : Bool
  deriving DecidableEq, Repr

/-! ### Bus, Clock, CPU -/

/-- "binds a Range to a Device handle" (R25). A handle is the device's place in the list of
devices. -/
structure MapEntry where
  range : Range
  dev : Nat
  deriving DecidableEq, Repr

/-- The four routing tables, oldest entry first (R25, R44). -/
structure Bus where
  memRead : List MapEntry
  memWrite : List MapEntry
  ioRead : List MapEntry
  ioWrite : List MapEntry
  alive : Bool
  deriving DecidableEq, Repr

/-- A consumer of Ticks (R130). -/
inductive SubId
  | cpu
  | device (h : Nat)
  deriving DecidableEq, Repr

/-- Where the Clock stands inside an iteration (R131) or its shutdown (R138). `dead` is a Clock that
has terminated unexpectedly (R264). -/
inductive ClockPhase
  | top
  | fanOut (rest : List (SubId × Nat))
  | poll
  | stopOut (rest : List (SubId × Nat))
  | grace (left : Nat)
  | terminated
  | dead
  deriving DecidableEq, Repr

/-- The Clock (R27). -/
structure Clock where
  ticks : Nat
  subsystems : List (SubId × Nat)
  control : List ControlMsg
  phase : ClockPhase
  deriving DecidableEq, Repr

/-- The CPU phases (R23). `dead` is a CPU that has terminated unexpectedly (R264). -/
inductive CpuPhase
  | idle | fetching | executing | stopped | dead
  deriving DecidableEq, Repr

/-- The CPU (R11 to R24). `snapshot` is the register file as it was at the start of the step, which
the Aborted status records (R168). -/
structure Cpu where
  regs : RegFile
  snapshot : RegFile
  cyc : Nat
  phase : CpuPhase
  queue : List ClockMsg
  deriving DecidableEq, Repr

/-! ### Machine status and the outside -/

/-- The peer a fatal condition names (R260). -/
inductive Peer
  | bus
  | clock
  | cpu
  | device (h : Nat)
  deriving DecidableEq, Repr

/-- The fatal conditions F2 to F5 with what they record (R260). -/
inductive Fatal
  | fetchFault (a : Word)
  | protocolViolation (p : Peer)
  | notImplemented (pc0 : Word) (path : List Byte)
  | channelClosed (p : Peer)
  deriving DecidableEq, Repr

/-- Machine status (R31). -/
inductive Status
  | booting
  | running
  | stopped
  | aborted (f : Fatal)
  deriving DecidableEq, Repr

/-- What the outside still has to do to the machine, in order: register a device, prepare memory
through the Bus, attach a subsystem, start the Clock (R41, R291), send `Stop` in iteration `n`
(R137, R294), or an actor that terminates unexpectedly (R264). -/
inductive Input
  | register (h : Nat)
  | read (sp : Space) (a : Word)
  | write (sp : Space) (a : Word) (v : Byte)
  | attach (sub : SubId) (divisor : Nat)
  | start
  | stop (n : Nat)
  | terminate (p : Peer)
  deriving DecidableEq, Repr

/-- What the Bus has answered to the host (R81, R82; `fatal` for a read or write: log entry 27). -/
inductive HostReply
  | addDeviceOk
  | byte (v : Byte)
  | writeOk
  | addressFault
  | fatal
  deriving DecidableEq, Repr

/-- The agents that can be the next to move (R10, R272). -/
inductive Agent
  | host
  | clock
  | cpu
  | device (h : Nat)
  deriving DecidableEq, Repr

/-- The OPEN parameters of R5 that are data the running machine reads. The dispatch trie is an argument
of the step instead (`stepOf`); divisors and devices are lists of State. -/
structure Conf where
  openBus : Byte
  tickQueueCap : Nat
  stopGrace : Nat
  deriving DecidableEq, Repr

/-- The whole machine. `sched` says which agent moves next, for as many steps as it has entries:
any schedule is a value of it (U6 of spec/93_implementation_defined.md); when it is empty, each
message is delivered at once, CPU before DISPLAY (R140). -/
structure State where
  status : Status
  conf : Conf
  bus : Bus
  devices : List Device
  cpu : Cpu
  clock : Clock
  inputs : List Input
  hostOut : List HostReply
  sched : List Agent
  deriving DecidableEq, Repr

/-! ### Stops -/

/-- Why the machine has no next step ("stuck", spec/93_implementation_defined.md part 1). -/
inductive Fault
  /-- Raised by any Bus transaction whose device lives and never replies: the Bus and the CPU behind
  it wait for ever (R118, U8). Safe: nothing is claimed of a machine that hangs. -/
  | deviceSilent (h : Nat)
  /-- Raised by step when the Clock of a running machine is blocked on a full queue nobody drains (R140,
  U9), and by nothing else. Safe, as above. -/
  | stuck
  deriving DecidableEq, Repr

/-- Calls and configurations outside the model's domain ("refuse",
spec/93_implementation_defined.md part 1). No instruction of the set raises one. -/
inductive Refusal
  /-- An instruction that has no meaning in this model. Safe. -/
  | notModelled (mnemonic : String)
  /-- Raised by a boot call of the host that comes after the machine has been started: a
  registration, an attachment, a Bus access or a second start (R114, U10; R41, decision D31). Safe. -/
  | hostCallAfterBoot
  /-- Raised by the registration of a device that is already registered (R114, U10). Safe. -/
  | registeredTwice
  /-- Raised by a divisor of 0, when it is attached or met by the Clock (R130, U12). Safe. -/
  | zeroDivisor
  /-- Raised by start when a device has declared an empty or reversed range or two overlapping ranges
  of one kind (R42, R43, U11), the Tick queue has no capacity, or a divisor is 0 (R292). Safe. -/
  | illFormedConfiguration
  deriving DecidableEq, Repr

/-! ### Construction -/

/-- RESET_REGS: the spec lets every register but `PC` hold any launch value and allows zeros (R35).
`PC` is 0x0000. DESIGN CHOICE, log entry 1. -/
def RegFile.reset : RegFile where
  a := 0
  f := 0
  b := 0
  c := 0
  d := 0
  e := 0
  h := 0
  l := 0
  a' := 0
  f' := 0
  b' := 0
  c' := 0
  d' := 0
  e' := 0
  h' := 0
  l' := 0
  ix := 0
  iy := 0
  sp := 0
  pc := 0x0000#16

/-- `cyc = 0`, phase `Idle`, queue empty (R35). -/
def Cpu.reset : Cpu where
  regs := .reset
  snapshot := .reset
  cyc := 0
  phase := .idle
  queue := []

/-- `ticks = 0`, no subsystem attached yet, no Stop pending (R35). -/
def Clock.reset : Clock where
  ticks := 0
  subsystems := []
  control := []
  phase := .top

/-- Four empty tables (R35). -/
def Bus.reset : Bus where
  memRead := []
  memWrite := []
  ioRead := []
  ioWrite := []
  alive := true

/-- A device as its constructor leaves it: alive, not yet registered. -/
def Device.constructed (decl : RangesRet) (kind : DeviceKind) : Device where
  decl := decl
  kind := kind
  alive := true
  registered := false
  inbox := []
  exited := false

/-- `GetRanges` of ROM: a read range and nothing else (R51). -/
def romDecl : RangesRet :=
  ⟨[⟨Config.romBase, Config.romBase.toNat + Config.romLen⟩], [], [], []⟩

/-- `GetRanges` of BANK (R54). -/
def bankDecl : RangesRet :=
  let r : Range := ⟨Config.bankBase, Config.bankBase.toNat + Config.bankLen⟩
  ⟨[r], [r], [], []⟩

/-- `GetRanges` of RAM (R52). -/
def ramDecl : RangesRet :=
  let r : Range := ⟨Config.ramBase, Config.ramBase.toNat + Config.ramLen⟩
  ⟨[r], [r], [], []⟩

/-- `GetRanges` of DISPLAY for the border port `port` (R55). -/
def displayDecl (port : Word) : RangesRet :=
  let r : Range := ⟨port, port.toNat + 1⟩
  ⟨[], [], [r], [r]⟩

/-- DISPLAY after construction: `border` any value, here 0 (DESIGN CHOICE, log entry 3);
`render_pos` 0 (R35). -/
def Display.reset : Display where
  border := 0
  renderPos := 0
  seen := 0
  out := []

/-- The reference device list: ROM, BANK, RAM, DISPLAY (R5, R291). -/
def referenceDevices : List Device :=
  [.constructed romDecl (.rom Config.romLen []),
    .constructed bankDecl (.ram Config.bankLen []),
    .constructed ramDecl (.ram Config.ramLen []),
    .constructed (displayDecl Config.borderPort) (.display .reset)]

/-- The boot sequence of the reference machine, steps 2 to 4 (R291). -/
def referenceBoot : List Input :=
  [.register 0, .register 1, .register 2, .register 3, .attach .cpu Config.cpuDiv,
    .attach (.device 3) Config.videoDiv, .start]

/-- The machine right after construction (R35, R290): status `Booting`, tables and queues empty, the
boot sequence still to be run. -/
def State.reset : State where
  status := .booting
  conf := ⟨Config.openBus, Config.tickQueueCap, Config.stopGrace⟩
  bus := .reset
  devices := referenceDevices
  cpu := .reset
  clock := .reset
  inputs := referenceBoot
  hostOut := []
  sched := []

end Sys2Proof.Machine
end

