-- ==== Sys2Proof/Machine/Mem.lean ====
section
/-! DEFINITION. Device storage as a canonical list of cells: reading, writing, and the canonical
form. -/

namespace Sys2Proof.Machine

/-- The byte at an offset; an unlisted offset holds `Config.unlisted`. -/
def Memory.read : Memory → Nat → Byte
  | [], _ => Config.unlisted
  | (k, b) :: rest, o => if k = o then b else Memory.read rest o

/-- Put a cell in front, or nothing when it holds what an unlisted offset reads as. -/
def Memory.consCell (o : Nat) (v : Byte) (m : Memory) : Memory :=
  if v = Config.unlisted then m else (o, v) :: m

/-- Store a byte, keeping the canonical form. -/
def Memory.write : Memory → Nat → Byte → Memory
  | [], o, v => Memory.consCell o v []
  | (k, b) :: rest, o, v =>
    if o < k then Memory.consCell o v ((k, b) :: rest)
    else if o = k then Memory.consCell o v rest
    else (k, b) :: Memory.write rest o v

/-- Offsets rise strictly from `lo` on, and no cell holds what an unlisted offset reads as. -/
def Memory.wfFrom : Nat → Memory → Bool
  | _, [] => true
  | lo, (k, b) :: rest => decide (lo ≤ k) && decide (b ≠ Config.unlisted) && Memory.wfFrom (k + 1) rest

/-- The canonical form. -/
def Memory.wf (m : Memory) : Bool := Memory.wfFrom 0 m

/-- Every listed offset lies inside a storage of `len` bytes. -/
def Memory.within (len : Nat) (m : Memory) : Bool := m.all fun c => decide (c.1 < len)

end Sys2Proof.Machine
end

