-- ==== Sys2Proof/Machine/Device.lean ====
section
/-! DEFINITION. The Device contract and the reference devices (rules R42 to R56 of
spec/20_memory.md). -/

namespace Sys2Proof.Machine

/-! ### Ranges -/

/-- `start <= a < end` (R42). -/
def Range.contains (r : Range) (a : Word) : Bool :=
  decide (r.start.toNat ≤ a.toNat) && decide (a.toNat < r.stop)

/-- Neither empty nor reversed, and inside the address space (R42). -/
def Range.wellFormed (r : Range) : Bool :=
  decide (r.start.toNat < r.stop) && decide (r.stop ≤ Config.spaceEnd)

/-- No address lies in both. -/
def Range.disjoint (r q : Range) : Bool :=
  decide (r.stop ≤ q.start.toNat) || decide (q.stop ≤ r.start.toNat)

/-- Pairwise disjoint (R43). -/
def Range.allDisjoint : List Range → Bool
  | [] => true
  | r :: rest => rest.all r.disjoint && Range.allDisjoint rest

/-- The duty of a device: well-formed ranges, disjoint per access kind (R42, R43). -/
def RangesRet.wellFormed (d : RangesRet) : Bool :=
  [d.memRead, d.memWrite, d.ioRead, d.ioWrite].all fun g =>
    g.all Range.wellFormed && Range.allDisjoint g

/-! ### Requests -/

/-- ROM (R51): reads inside the storage, rejects everything else and never changes. -/
def serveRom (len : Nat) (cells : Memory) (decl : RangesRet) (q : Request) : Reply :=
  match q with
  | .getRanges => .rangesRet decl
  | .memGet o => if o.toNat < len then .memReadOk (cells.read o.toNat) else .err
  | .memPut _ _ => .err
  | .ioGet _ => .err
  | .ioPut _ _ => .err

/-- RAM and BANK (R52 to R54). -/
def serveRam (len : Nat) (cells : Memory) (decl : RangesRet) (q : Request) : Reply × Memory :=
  match q with
  | .getRanges => (.rangesRet decl, cells)
  | .memGet o => (if o.toNat < len then .memReadOk (cells.read o.toNat) else .err, cells)
  | .memPut o v => if o.toNat < len then (.memWriteOk, cells.write o.toNat v) else (.err, cells)
  | .ioGet _ => (.err, cells)
  | .ioPut _ _ => (.err, cells)

/-- Set the border to the low three bits of a byte; the colour of a changed value goes to the video
layer (R55, R56, R253). -/
def Display.setBorder (u : Display) (v : Byte) : Display :=
  let code : BitVec 3 := v.extractLsb' 0 3
  if code = u.border then u
  else { u with border := code, out := u.out ++ [.border (Config.palette code)] }

/-- DISPLAY as a Device: one I/O location, offset 0 (R55). -/
def serveDisplay (u : Display) (decl : RangesRet) (q : Request) : Reply × Display :=
  match q with
  | .getRanges => (.rangesRet decl, u)
  | .memGet _ => (.err, u)
  | .memPut _ _ => (.err, u)
  | .ioGet o => (if o = 0#16 then .ioReadOk (u.border.zeroExtend 8) else .err, u)
  | .ioPut o v => if o = 0#16 then (.ioWriteOk, u.setBorder v) else (.err, u)

/-- An arbitrary device: its next scripted answer; after the last it has terminated (R64, R264). -/
def serveScript : List Answer → Answer × List Answer
  | [] => (.closed, [])
  | x :: rest => (x, rest)

/-- The actor has terminated, for the Bus and for the Clock alike: it was terminated from outside, or an
arbitrary device has given its last answer (R141, R264; log entry 9). A script that ends in
`silent` never terminates. -/
def Device.gone (d : Device) : Bool :=
  !d.alive ||
    match d.kind with
    | .scripted [] => true
    | .scripted (_ :: _) => false
    | .rom _ _ => false
    | .ram _ _ => false
    | .display _ => false

/-- A device serves one request: exactly one answer, and its own new state (R46, R50). -/
def Device.serve (d : Device) (q : Request) : Answer × Device :=
  if d.alive then
    match d.kind with
    | .rom len cells => (.reply (serveRom len cells d.decl q), d)
    | .ram len cells =>
      let (r, cells') := serveRam len cells d.decl q
      (.reply r, { d with kind := .ram len cells' })
    | .display u =>
      let (r, u') := serveDisplay u d.decl q
      (.reply r, { d with kind := .display u' })
    | .scripted script =>
      let (x, script') := serveScript script
      (x, { d with kind := .scripted script' })
  else (.closed, d)

/-- DISPLAY consumes a Tick: the render position advances by a free amount, never backwards (R30,
R56; log entry 5). -/
def Display.tick (u : Display) : Display :=
  let pos := u.renderPos + Config.renderAdvance u.seen
  { u with renderPos := pos, seen := u.seen + 1, out := u.out ++ [.position pos] }

/-- What a device does with a Tick of the Clock: only DISPLAY has an effect in the core (R30, R130). -/
def Device.tick (d : Device) : Device :=
  match d.kind with
  | .display u => { d with kind := .display u.tick }
  | .rom _ _ => d
  | .ram _ _ => d
  | .scripted _ => d

end Sys2Proof.Machine
end

