-- ==== Sys2Proof/Syntax.lean ====
section
/-! DEFINITION. The instruction set of the reference population `DT_ref`: one constructor for each
of the 77 rows of spec/opcode_table.json (rules R91 to R105 of spec/30_encoding.md). "Ind" in a
name marks an operand in parentheses, the memory byte or word at that address. -/

namespace Sys2Proof

/-- The 8-bit register field `r` (R93); code 6 is `(HL)` and never a register. -/
inductive Reg8
  | b | c | d | e | h | l | a
  deriving DecidableEq, Repr

/-- The pair field `dd` or `ss` (R94). -/
inductive PairSp
  | bc | de | hl | sp
  deriving DecidableEq, Repr

/-- The pair field `qq` of `PUSH` and `POP` (R94). -/
inductive PairAf
  | bc | de | hl | af
  deriving DecidableEq, Repr

/-- The condition field `cc` (R95). -/
inductive Cond
  | nz | z | nc | c | po | pe | p | m
  deriving DecidableEq, Repr

/-- The condition field of `JR cc,e`: conditions 0 to 3 only (R95, R236). -/
inductive JrCond
  | nz | z | nc | c
  deriving DecidableEq, Repr

/-- One constructor per row of the opcode table. -/
inductive Instr
  | nop                                   -- NOP
  | exAfAf                                -- EX AF,AF'
  | djnz (e : Byte)                       -- DJNZ e
  | jr (e : Byte)                         -- JR e
  | jrCc (cc : JrCond) (e : Byte)         -- JR cc,e
  | ldDdNn (dd : PairSp) (nn : Word)      -- LD dd,nn
  | addHlSs (ss : PairSp)                 -- ADD HL,ss
  | ldIndBcA                              -- LD (BC),A
  | ldAIndBc                              -- LD A,(BC)
  | ldIndDeA                              -- LD (DE),A
  | ldAIndDe                              -- LD A,(DE)
  | ldIndNnHl (nn : Word)                 -- LD (nn),HL
  | ldHlIndNn (nn : Word)                 -- LD HL,(nn)
  | ldIndNnA (nn : Word)                  -- LD (nn),A
  | ldAIndNn (nn : Word)                  -- LD A,(nn)
  | incSs (ss : PairSp)                   -- INC ss
  | decSs (ss : PairSp)                   -- DEC ss
  | incR (r : Reg8)                       -- INC r
  | incIndHl                              -- INC (HL)
  | decR (r : Reg8)                       -- DEC r
  | decIndHl                              -- DEC (HL)
  | ldRN (r : Reg8) (n : Byte)            -- LD r,n
  | ldIndHlN (n : Byte)                   -- LD (HL),n
  | ldRR (rd rs : Reg8)                   -- LD r,r'
  | ldRIndHl (r : Reg8)                   -- LD r,(HL)
  | ldIndHlR (r : Reg8)                   -- LD (HL),r
  | addAR (r : Reg8)                      -- ADD A,r
  | addAIndHl                             -- ADD A,(HL)
  | addAN (n : Byte)                      -- ADD A,n
  | adcAR (r : Reg8)                      -- ADC A,r
  | adcAIndHl                             -- ADC A,(HL)
  | adcAN (n : Byte)                      -- ADC A,n
  | subR (r : Reg8)                       -- SUB r
  | subIndHl                              -- SUB (HL)
  | subN (n : Byte)                       -- SUB n
  | sbcAR (r : Reg8)                      -- SBC A,r
  | sbcAIndHl                             -- SBC A,(HL)
  | sbcAN (n : Byte)                      -- SBC A,n
  | andR (r : Reg8)                       -- AND r
  | andIndHl                              -- AND (HL)
  | andN (n : Byte)                       -- AND n
  | xorR (r : Reg8)                       -- XOR r
  | xorIndHl                              -- XOR (HL)
  | xorN (n : Byte)                       -- XOR n
  | orR (r : Reg8)                        -- OR r
  | orIndHl                               -- OR (HL)
  | orN (n : Byte)                        -- OR n
  | cpR (r : Reg8)                        -- CP r
  | cpIndHl                               -- CP (HL)
  | cpN (n : Byte)                        -- CP n
  | retCc (cc : Cond)                     -- RET cc
  | popQq (qq : PairAf)                   -- POP qq
  | ret                                   -- RET
  | exx                                   -- EXX
  | jpHl                                  -- JP (HL)
  | ldSpHl                                -- LD SP,HL
  | jpCcNn (cc : Cond) (nn : Word)        -- JP cc,nn
  | jpNn (nn : Word)                      -- JP nn
  | outNA (n : Byte)                      -- OUT (n),A
  | inAN (n : Byte)                       -- IN A,(n)
  | exDeHl                                -- EX DE,HL
  | callCcNn (cc : Cond) (nn : Word)      -- CALL cc,nn
  | pushQq (qq : PairAf)                  -- PUSH qq
  | callNn (nn : Word)                    -- CALL nn
  | rstP (t : BitVec 3)                   -- RST p, with p = 8 * t
  | ldIxNn (nn : Word)                    -- LD IX,nn
  | ldRIndIx (r : Reg8) (d : Byte)        -- LD r,(IX+d)
  | ldIndIxR (d : Byte) (r : Reg8)        -- LD (IX+d),r
  | ldIyNn (nn : Word)                    -- LD IY,nn
  | ldRIndIy (r : Reg8) (d : Byte)        -- LD r,(IY+d)
  | ldIndIyR (d : Byte) (r : Reg8)        -- LD (IY+d),r
  | inRC (r : Reg8)                       -- IN r,(C)
  | outCR (r : Reg8)                      -- OUT (C),r
  | niRoot (op : Byte)                    -- NOT_IMPLEMENTED, root table DT_ref
  | niDd (op : Byte)                      -- NOT_IMPLEMENTED, sub-table DT_DD
  | niFd (op : Byte)                      -- NOT_IMPLEMENTED, sub-table DT_FD
  | niEd (op : Byte)                      -- NOT_IMPLEMENTED, sub-table DT_ED
  deriving DecidableEq, Repr

/-- The opcode path is marked "not yet implemented" (R86, R101). -/
def Instr.isNotImplemented : Instr → Bool
  | .niRoot _ | .niDd _ | .niFd _ | .niEd _ => true
  | _ => false

end Sys2Proof
end

