-- ==== Sys2Proof/Machine/Regs.lean ====
section
/-! DEFINITION. The register-like entities and the access capability (rules R11 to R20 of
spec/10_state.md). Every read and write of a register goes through here. -/

namespace Sys2Proof.Machine

/-- The 16 stored 8-bit registers (R11, R12); a primed name is the shadow register. -/
inductive Ent8
  | a | f | b | c | d | e | h | l | a' | f' | b' | c' | d' | e' | h' | l'
  deriving DecidableEq, Repr

/-- The 8 composed pairs (R13) and the four stored 16-bit registers (R15 to R17). -/
inductive Ent16
  | af | bc | de | hl | af' | bc' | de' | hl' | ix | iy | sp | pc
  deriving DecidableEq, Repr

/-- `x[q]` of an 8-bit register. -/
def RegFile.get8 (r : RegFile) : Ent8 → Byte
  | .a => r.a | .f => r.f | .b => r.b | .c => r.c | .d => r.d | .e => r.e | .h => r.h | .l => r.l
  | .a' => r.a' | .f' => r.f' | .b' => r.b' | .c' => r.c' | .d' => r.d' | .e' => r.e'
  | .h' => r.h' | .l' => r.l'

/-- `x[q] <- v` of an 8-bit register. -/
def RegFile.set8 (r : RegFile) (q : Ent8) (v : Byte) : RegFile :=
  match q with
  | .a => { r with a := v }
  | .f => { r with f := v }
  | .b => { r with b := v }
  | .c => { r with c := v }
  | .d => { r with d := v }
  | .e => { r with e := v }
  | .h => { r with h := v }
  | .l => { r with l := v }
  | .a' => { r with a' := v }
  | .f' => { r with f' := v }
  | .b' => { r with b' := v }
  | .c' => { r with c' := v }
  | .d' => { r with d' := v }
  | .e' => { r with e' := v }
  | .h' => { r with h' := v }
  | .l' => { r with l' := v }

/-- `x[q]` of a 16-bit entity; the first letter of a pair is its high half (R13). -/
def RegFile.get16 (r : RegFile) : Ent16 → Word
  | .af => compose r.a r.f
  | .bc => compose r.b r.c
  | .de => compose r.d r.e
  | .hl => compose r.h r.l
  | .af' => compose r.a' r.f'
  | .bc' => compose r.b' r.c'
  | .de' => compose r.d' r.e'
  | .hl' => compose r.h' r.l'
  | .ix => r.ix
  | .iy => r.iy
  | .sp => r.sp
  | .pc => r.pc

/-- `x[q] <- v` of a 16-bit entity, through to both halves of a pair (R13). -/
def RegFile.set16 (r : RegFile) (q : Ent16) (v : Word) : RegFile :=
  match q with
  | .af => { r with a := highByte v, f := lowByte v }
  | .bc => { r with b := highByte v, c := lowByte v }
  | .de => { r with d := highByte v, e := lowByte v }
  | .hl => { r with h := highByte v, l := lowByte v }
  | .af' => { r with a' := highByte v, f' := lowByte v }
  | .bc' => { r with b' := highByte v, c' := lowByte v }
  | .de' => { r with d' := highByte v, e' := lowByte v }
  | .hl' => { r with h' := highByte v, l' := lowByte v }
  | .ix => { r with ix := v }
  | .iy => { r with iy := v }
  | .sp => { r with sp := v }
  | .pc => { r with pc := v }

/-! ### The polymorphic capability (R19), cross-width forms included (R20) -/

/-- A register-like entity of either width (R19). -/
inductive Entity
  | byte (q : Ent8)
  | word (q : Ent16)
  deriving DecidableEq, Repr

/-- "read as 8-bit": of a 16-bit entity, bits 7:0 (R20). -/
def RegFile.readAs8 (r : RegFile) : Entity → Byte
  | .byte q => r.get8 q
  | .word q => lowByte (r.get16 q)

/-- "write as 8-bit": to a 16-bit entity, the zero-extended value (R20). -/
def RegFile.writeAs8 (r : RegFile) (x : Entity) (v : Byte) : RegFile :=
  match x with
  | .byte q => r.set8 q v
  | .word q => r.set16 q (zext16 v)

/-- "read as 16-bit": of an 8-bit entity, its content zero-extended (R20). -/
def RegFile.readAs16 (r : RegFile) : Entity → Word
  | .byte q => zext16 (r.get8 q)
  | .word q => r.get16 q

/-- "write as 16-bit": to an 8-bit entity, the low byte (R20). -/
def RegFile.writeAs16 (r : RegFile) (x : Entity) (v : Word) : RegFile :=
  match x with
  | .byte q => r.set8 q (lowByte v)
  | .word q => r.set16 q v

end Sys2Proof.Machine

namespace Sys2Proof

/-! ### Operand fields as entities -/

/-- The register a field `r` names (R93). -/
def Reg8.ent : Reg8 → Machine.Ent8
  | .a => .a | .b => .b | .c => .c | .d => .d | .e => .e | .h => .h | .l => .l

/-- The pair a field `dd` or `ss` names (R94). -/
def PairSp.ent : PairSp → Machine.Ent16
  | .bc => .bc | .de => .de | .hl => .hl | .sp => .sp

/-- The pair a field `qq` names (R94). -/
def PairAf.ent : PairAf → Machine.Ent16
  | .bc => .bc | .de => .de | .hl => .hl | .af => .af

end Sys2Proof

namespace Sys2Proof.Machine

/-! ### On the machine state -/

/-- `x[q]` (R7). The handlers use the capability in its same-width forms. -/
def State.r8 (s : State) (q : Ent8) : Byte := s.cpu.regs.readAs8 (.byte q)

def State.r16 (s : State) (q : Ent16) : Word := s.cpu.regs.readAs16 (.word q)

/-- Replace the register file. -/
def State.withRegs (s : State) (r : RegFile) : State := { s with cpu := { s.cpu with regs := r } }

/-- `x[q] <- v` (R7). -/
def State.put8 (s : State) (q : Ent8) (v : Byte) : State :=
  s.withRegs (s.cpu.regs.writeAs8 (.byte q) v)

def State.put16 (s : State) (q : Ent16) (v : Word) : State :=
  s.withRegs (s.cpu.regs.writeAs16 (.word q) v)

end Sys2Proof.Machine
end

