-- ==== Sys2Proof/Machine/Ops.lean ====
section
/-! DEFINITION. The named operations the meanings are written with: raising a fatal condition (rules
R260 to R266 of spec/60_exceptions.md), the Bus operations (rules R110 to R119 of
spec/40_bus.md), the data accesses of handlers (rules R163 to R165 of spec/42_cpu_cycle.md), the
stack (rules R193, R194, R238, R240), and the end of an instruction (rule R161). -/

namespace Sys2Proof.Machine

/-- The outcome of a step of this machine. -/
abbrev Result := Host.Outcome State Fault Refusal

/-! ### Fatal conditions -/

/-- `raise Fatal.<Kind>(info)`: the machine enters the final status `Aborted`; nothing else changes
(R7, R266). No program counter or cause is saved for the program and control goes nowhere (R270). -/
def raiseFatal (f : Fatal) (s : State) : State := { s with status := .aborted f }

/-- A condition raised inside a handler: the register file recorded is the one at the start of the
step, the Bus transactions already completed stay done (R168). -/
def restoreSnapshot (s : State) : State := s.withRegs s.cpu.snapshot

/-! ### The Bus -/

/-- How a Bus transaction ends: with a value, with the recoverable `AddressFault` (R119), with a
fatal condition that has been raised, or never (R118). -/
inductive Access (α : Type)
  | ok (v : α) (s : State)
  | addressFault (s : State)
  | fatal (s : State)
  | hang (h : Nat)

/-- The table of an access kind (R44). -/
def Bus.table (b : Bus) (sp : Space) (dir : Dir) : List MapEntry :=
  match sp, dir with
  | .mem, .read => b.memRead
  | .mem, .write => b.memWrite
  | .io, .read => b.ioRead
  | .io, .write => b.ioWrite

/-- The entry appended last among those that contain the address: "last-registered-wins" (R113). -/
def lookup (t : List MapEntry) (a : Word) : Option MapEntry :=
  t.reverse.find? fun m => m.range.contains a

/-- The device-relative offset (R45). -/
def MapEntry.offset (m : MapEntry) (a : Word) : Word := a - m.range.start

/-- Send a device a request and wait for its answer; a handle that names no device answers as a
terminated one (R50, R71). -/
def askDevice (h : Nat) (q : Request) (s : State) : Answer × State :=
  match s.devices[h]? with
  | none => (.closed, s)
  | some d => ((d.serve q).1, { s with devices := s.devices.set h (d.serve q).2 })

/-- The request of a read (R115). -/
def readRequest (sp : Space) (o : Word) : Request :=
  match sp with
  | .mem => .memGet o
  | .io => .ioGet o

/-- The request of a write (R116). -/
def writeRequest (sp : Space) (o : Word) (v : Byte) : Request :=
  match sp with
  | .mem => .memPut o v
  | .io => .ioPut o v

/-- What a device's answer makes of a read (R115, R117). -/
def finishRead (sp : Space) (h : Nat) (x : Answer) (s : State) : Access Byte :=
  match sp, x with
  | .mem, .reply (.memReadOk b) => .ok b s
  | .io, .reply (.ioReadOk b) => .ok b s
  | _, .reply .err => .addressFault s
  | _, .reply _ => .fatal (raiseFatal (.protocolViolation (.device h)) s)
  | _, .closed => .fatal (raiseFatal (.channelClosed (.device h)) s)
  | _, .silent => .hang h

/-- What a device's answer makes of a write (R116, R117). -/
def finishWrite (sp : Space) (h : Nat) (x : Answer) (s : State) : Access Unit :=
  match sp, x with
  | .mem, .reply .memWriteOk => .ok () s
  | .io, .reply .ioWriteOk => .ok () s
  | _, .reply .err => .addressFault s
  | _, .reply _ => .fatal (raiseFatal (.protocolViolation (.device h)) s)
  | _, .closed => .fatal (raiseFatal (.channelClosed (.device h)) s)
  | _, .silent => .hang h

/-- `read(address, space)` (R115). A Bus that has terminated is `ChannelClosed` for its caller
(R264). -/
def busRead (sp : Space) (a : Word) (s : State) : Access Byte :=
  if s.bus.alive then
    match lookup (s.bus.table sp .read) a with
    | none => .addressFault s
    | some m =>
      let (x, s') := askDevice m.dev (readRequest sp (m.offset a)) s
      finishRead sp m.dev x s'
  else .fatal (raiseFatal (.channelClosed .bus) s)

/-- `write(address, value, space)` (R116). -/
def busWrite (sp : Space) (a : Word) (v : Byte) (s : State) : Access Unit :=
  if s.bus.alive then
    match lookup (s.bus.table sp .write) a with
    | none => .addressFault s
    | some m =>
      let (x, s') := askDevice m.dev (writeRequest sp (m.offset a) v) s
      finishWrite sp m.dev x s'
  else .fatal (raiseFatal (.channelClosed .bus) s)

/-- One `MapEntry` per declared range, in list order (R110). -/
def entriesOf (h : Nat) (g : List Range) : List MapEntry := g.map fun r => ⟨r, h⟩

/-- Append what a device declares to the four tables (R110, R112). -/
def Bus.add (b : Bus) (h : Nat) (r : RangesRet) : Bus :=
  { b with
    memRead := b.memRead ++ entriesOf h r.memRead
    memWrite := b.memWrite ++ entriesOf h r.memWrite
    ioRead := b.ioRead ++ entriesOf h r.ioRead
    ioWrite := b.ioWrite ++ entriesOf h r.ioWrite }

/-- `register(device)` (R110, R111). -/
def busRegister (h : Nat) (s : State) : Access Unit :=
  if s.bus.alive then
    match askDevice h .getRanges s with
    | (.reply (.rangesRet r), s') =>
      .ok () { s' with
        bus := s'.bus.add h r
        devices := s'.devices.modify h fun d => { d with registered := true } }
    | (.reply _, s') => .fatal (raiseFatal (.protocolViolation (.device h)) s')
    | (.closed, s') => .fatal (raiseFatal (.channelClosed (.device h)) s')
    | (.silent, _) => .hang h
  else .fatal (raiseFatal (.channelClosed .bus) s)

/-! ### Fetch-class reads -/

/-- `FetchByte(a)`: an `AddressFault` is the fatal `FetchFault(a)` (R153, R265). -/
def fetchByte (a : Word) (s : State) (k : Byte → State → Result) : Result :=
  match busRead .mem a s with
  | .ok b s' => k b s'
  | .addressFault s' => .next (raiseFatal (.fetchFault a) s')
  | .fatal s' => .next s'
  | .hang h => .fault (.deviceSilent h)

/-! ### Data accesses of handlers -/

/-- A one-byte data read; a faulting read yields `OPEN_BUS` (R163, R165, R267). -/
def dataRead (sp : Space) (a : Word) (s : State) (k : Byte → State → Result) : Result :=
  match busRead sp a s with
  | .ok b s' => k b s'
  | .addressFault s' => k s'.conf.openBus s'
  | .fatal s' => .next (restoreSnapshot s')
  | .hang h => .fault (.deviceSilent h)

/-- A one-byte data write; a faulting write is dropped (R164, R165, R267). -/
def dataWrite (sp : Space) (a : Word) (v : Byte) (s : State) (k : State → Result) : Result :=
  match busWrite sp a v s with
  | .ok _ s' => k s'
  | .addressFault s' => k s'
  | .fatal s' => .next (restoreSnapshot s')
  | .hang h => .fault (.deviceSilent h)

/-- `MemRead(a, 1)` (R163). -/
def memRead (a : Word) (s : State) (k : Byte → State → Result) : Result := dataRead .mem a s k

/-- `MemRead(a, 2)`: the byte at `a` is low, the next one high (R163, R60, R61). -/
def memRead2 (a : Word) (s : State) (k : Word → State → Result) : Result :=
  memRead a s fun lo s => memRead (a + 1#16) s fun hi s => k (compose hi lo) s

/-- `MemWrite(a, 1, v)` (R164). -/
def memWrite (a : Word) (v : Byte) (s : State) (k : State → Result) : Result :=
  dataWrite .mem a v s k

/-- `MemWrite(a, 2, v)`: low byte first, each byte stored or dropped on its own (R164). -/
def memWrite2 (a : Word) (v : Word) (s : State) (k : State → Result) : Result :=
  memWrite a (lowByte v) s fun s => memWrite (a + 1#16) (highByte v) s k

/-- `IORead(p)` (R165). -/
def ioRead (p : Word) (s : State) (k : Byte → State → Result) : Result := dataRead .io p s k

/-- `IOWrite(p, v)` (R165). -/
def ioWrite (p : Word) (v : Byte) (s : State) (k : State → Result) : Result :=
  dataWrite .io p v s k

/-! ### The stack -/

/-- Decrement `SP` and store a byte at the new `SP` (R193). -/
def pushByte (v : Byte) (s : State) (k : State → Result) : Result :=
  let s := s.put16 .sp (s.r16 .sp - 1#16)
  memWrite (s.r16 .sp) v s k

/-- Push a word: high byte first (R193, R238). -/
def pushWord (v : Word) (s : State) (k : State → Result) : Result :=
  pushByte (highByte v) s fun s => pushByte (lowByte v) s k

/-- Read the byte at `SP`, then increment `SP` (R194). -/
def popByte (s : State) (k : Byte → State → Result) : Result :=
  memRead (s.r16 .sp) s fun v s => k v (s.put16 .sp (s.r16 .sp + 1#16))

/-- Pop a word: low byte first (R194, R240). -/
def popWord (s : State) (k : Word → State → Result) : Result :=
  popByte s fun lo s => popByte s fun hi s => k (compose hi lo) s

/-! ### The end of an instruction -/

/-- Store the cost minus one and return to `Idle` (R161). -/
def finish (cost : Nat) (s : State) : Result :=
  .next { s with cpu := { s.cpu with cyc := cost - 1, phase := .idle } }

/-- `pc <- target` (R17, R230). -/
def jump (target : Word) (s : State) : State := s.put16 .pc target

end Sys2Proof.Machine
end

