-- ==== Sys2Proof/Machine/Clock.lean ====
section
/-! DEFINITION. The Clock and its subsystems (rules R130 to R141 of spec/41_clock.md): fan-out with
the divisor test, back-pressure, the Stop poll and its propagation, and what DISPLAY does with its
messages. One Clock step is one action of the iteration of rule R131. -/

namespace Sys2Proof.Machine

/-! ### Subsystems -/

/-- The peer a subsystem is for the Clock (R141). -/
def SubId.peer : SubId → Peer
  | .cpu => .cpu
  | .device h => .device h

/-- The subsystem has consumed its `Stop` (R138). -/
def State.exited (s : State) : SubId → Bool
  | .cpu => decide (s.cpu.phase = .stopped)
  | .device h =>
    match s.devices[h]? with
    | none => false
    | some d => d.exited

/-- The subsystem's queue is closed: it has left its loop or terminated (R141). An arbitrary device has
terminated as soon as it has given its last answer (log entry 9). -/
def State.closed (s : State) : SubId → Bool
  | .cpu => decide (s.cpu.phase = .stopped) || decide (s.cpu.phase = .dead)
  | .device h =>
    match s.devices[h]? with
    | none => true
    | some d => d.gone || d.exited

/-- The subsystem is attached to the Clock (R130). -/
def State.isAttached (s : State) (sub : SubId) : Bool :=
  s.clock.subsystems.any fun p => decide (p.1 = sub)

/-- The subsystem's queue (R24, R30). -/
def State.queueOf (s : State) : SubId → List ClockMsg
  | .cpu => s.cpu.queue
  | .device h =>
    match s.devices[h]? with
    | none => []
    | some d => d.inbox

/-- The queue has room for one more message (R140). -/
def State.hasRoom (s : State) (sub : SubId) : Bool :=
  decide ((s.queueOf sub).length < s.conf.tickQueueCap)

/-- Append a message to a subsystem's queue (R24, R135). -/
def State.enqueue (s : State) (sub : SubId) (m : ClockMsg) : State :=
  match sub with
  | .cpu => { s with cpu := { s.cpu with queue := s.cpu.queue ++ [m] } }
  | .device h => { s with devices := s.devices.modify h fun d => { d with inbox := d.inbox ++ [m] } }

/-- The Clock still has a `Stop` to send (R138). -/
def State.stopsLeft (s : State) : Bool :=
  match s.clock.phase with
  | .stopOut (_ :: _) => true
  | _ => false

/-- The machine is `Stopped` when every subsystem has consumed its `Stop` (R31, R138). While the Clock
still has one to send, not every `Stop` has been consumed: that is so only of a subsystem attached
twice, which has ended by its first (DESIGN CHOICE, log entry 28). -/
def settle (s : State) : State :=
  if !s.stopsLeft && s.clock.subsystems.all fun p => s.exited p.1 then { s with status := .stopped } else s

/-! ### The Clock -/

def State.withClockPhase (s : State) (p : ClockPhase) : State :=
  { s with clock := { s.clock with phase := p } }

/-- A Tick is due for a divisor in this iteration (R131, R132). -/
def State.due (s : State) (divisor : Nat) : Bool := decide (s.clock.ticks % divisor = 0)

/-- Send a message, or raise `ChannelClosed` when the queue is closed (R141). -/
def sendTo (sub : SubId) (m : ClockMsg) (s : State) : State :=
  if s.closed sub then raiseFatal (.channelClosed sub.peer) s else s.enqueue sub m

/-- One action of the Clock (R131, R137, R138). A Clock that has ended does nothing. -/
def clockStep (s : State) : Result :=
  match s.clock.phase with
  | .top => .next { s with clock := { s.clock with
      ticks := s.clock.ticks + 1
      phase := .fanOut s.clock.subsystems } }
  | .fanOut [] => .next (s.withClockPhase .poll)
  | .fanOut ((sub, divisor) :: rest) =>
    if divisor = 0 then .refused .zeroDivisor
    else if s.due divisor then .next (sendTo sub .tick (s.withClockPhase (.fanOut rest)))
    else .next (s.withClockPhase (.fanOut rest))
  | .poll =>
    match s.clock.control with
    | [] => .next (s.withClockPhase .top)
    | .stop :: rest => .next { s with clock := { s.clock with
        control := rest
        phase := .stopOut s.clock.subsystems } }
  | .stopOut [] => .next (settle (s.withClockPhase (.grace s.conf.stopGrace)))
  | .stopOut ((sub, _) :: rest) => .next (sendTo sub .stop (s.withClockPhase (.stopOut rest)))
  | .grace 0 => .next (s.withClockPhase .terminated)
  | .grace (n + 1) => .next (s.withClockPhase (.grace n))
  | .terminated => .next s
  | .dead => .next s

/-- Sending to a subsystem does not have to wait: its queue has room, or is closed and the send
fails (R140, R141). -/
def State.canSend (s : State) (sub : SubId) : Bool := s.closed sub || s.hasRoom sub

/-- The Clock is not blocked on a send and has not ended (R140). -/
def State.clockReady (s : State) : Bool :=
  match s.clock.phase with
  | .top => true
  | .fanOut [] => true
  | .fanOut ((sub, divisor) :: _) =>
    decide (divisor = 0) || !s.due divisor || s.canSend sub
  | .poll => true
  | .stopOut [] => true
  | .stopOut ((sub, _) :: _) => s.canSend sub
  | .grace _ => true
  | .terminated => false
  | .dead => false

/-! ### DISPLAY, and any other device, as a subsystem -/

/-- A device takes the next message of its queue (R30, R135, R138). With none left and the Clock gone it
waits for a peer that has terminated: `ChannelClosed` (R264). -/
def deviceStep (h : Nat) (s : State) : Result :=
  match s.devices[h]? with
  | none => .next s
  | some d =>
    match d.inbox with
    | [] => .next (raiseFatal (.channelClosed .clock) s)
    | .tick :: rest => .next { s with devices := s.devices.set h { d with inbox := rest }.tick }
    | .stop :: rest =>
      .next (settle { s with devices := s.devices.set h { d with inbox := rest, exited := true } })

/-- A device that lives and has not taken its `Stop` has a message to take, or is a subsystem and none
can come any more (R30, R264). -/
def State.deviceReady (s : State) (h : Nat) : Bool :=
  match s.devices[h]? with
  | none => false
  | some d => !d.gone && !d.exited &&
      (!d.inbox.isEmpty || decide (s.clock.phase = .dead) && s.isAttached (.device h))

end Sys2Proof.Machine
end

