-- ==== Sys2Proof/WellFormed.lean ====
section
/-! DEFINITION. Which terms of `Instr` stand for an encoding of the opcode map (rules R97 to R100
of spec/30_encoding.md). Register, pair and condition fields are well formed by their types; the
four `NOT_IMPLEMENTED` rows carry the byte that selects the marked entry, and that byte must be
one the table really marks. -/

namespace Sys2Proof

/-- The 13 entries of the root table marked NI (R97). -/
def rootNotImplemented : List Byte :=
  [0x07#8, 0x0F#8, 0x17#8, 0x1F#8, 0x27#8, 0x2F#8, 0x37#8, 0x3F#8, 0x76#8, 0xCB#8, 0xE3#8,
    0xF3#8, 0xFB#8]

/-- The 15 terminals of `DT_DD`, and of `DT_FD` (R98, R99). -/
def indexTerminals : List Byte :=
  [0x21#8, 0x46#8, 0x4E#8, 0x56#8, 0x5E#8, 0x66#8, 0x6E#8, 0x7E#8, 0x70#8, 0x71#8, 0x72#8,
    0x73#8, 0x74#8, 0x75#8, 0x77#8]

/-- The 14 terminals of `DT_ED` (R100). -/
def portTerminals : List Byte :=
  [0x40#8, 0x48#8, 0x50#8, 0x58#8, 0x60#8, 0x68#8, 0x78#8, 0x41#8, 0x49#8, 0x51#8, 0x59#8,
    0x61#8, 0x69#8, 0x79#8]

/-- A term that stands for an encoding of the map. -/
def Instr.wellFormed : Instr → Bool
  | .niRoot op => rootNotImplemented.contains op
  | .niDd op => !indexTerminals.contains op
  | .niFd op => !indexTerminals.contains op
  | .niEd op => !portTerminals.contains op
  | _ => true

end Sys2Proof
end

