-- ==== Sys2Proof/Decode.lean ====
section
/-! DEFINITION. The dispatch trie `DT_ref` with its sub-tables (rules R85 to R100 of
spec/30_encoding.md), the decoder that walks it over any bytes, the encoder written from the same
encoding tables, and the reading of a table word. -/

namespace Sys2Proof

/-! ### Operand fields -/

/-- The register a field `r` names; code 6 is `(HL)` (R93). -/
def regOfField (f : BitVec 3) : Option Reg8 :=
  match f with
  | 0#3 => some .b
  | 1#3 => some .c
  | 2#3 => some .d
  | 3#3 => some .e
  | 4#3 => some .h
  | 5#3 => some .l
  | 7#3 => some .a
  | _ => none

def Reg8.field : Reg8 → BitVec 3
  | .b => 0#3 | .c => 1#3 | .d => 2#3 | .e => 3#3 | .h => 4#3 | .l => 5#3 | .a => 7#3

/-- The pair a field `dd` or `ss` names (R94). -/
def pairSpOfField (p : BitVec 2) : PairSp :=
  match p with
  | 0#2 => .bc
  | 1#2 => .de
  | 2#2 => .hl
  | _ => .sp

def PairSp.field : PairSp → BitVec 2
  | .bc => 0#2 | .de => 1#2 | .hl => 2#2 | .sp => 3#2

/-- The pair a field `qq` names (R94). -/
def pairAfOfField (p : BitVec 2) : PairAf :=
  match p with
  | 0#2 => .bc
  | 1#2 => .de
  | 2#2 => .hl
  | _ => .af

def PairAf.field : PairAf → BitVec 2
  | .bc => 0#2 | .de => 1#2 | .hl => 2#2 | .af => 3#2

/-- The condition a field `cc` names (R95). -/
def condOfField (f : BitVec 3) : Cond :=
  match f with
  | 0#3 => .nz
  | 1#3 => .z
  | 2#3 => .nc
  | 3#3 => .c
  | 4#3 => .po
  | 5#3 => .pe
  | 6#3 => .p
  | _ => .m

def Cond.field : Cond → BitVec 3
  | .nz => 0#3 | .z => 1#3 | .nc => 2#3 | .c => 3#3 | .po => 4#3 | .pe => 5#3 | .p => 6#3
  | .m => 7#3

/-- The field `y` of `JR cc,e`: condition number plus 4 (R95). -/
def JrCond.field : JrCond → BitVec 3
  | .nz => 4#3 | .z => 5#3 | .nc => 6#3 | .c => 7#3

/-! ### The trie -/

/-- A terminal with its number of operand bytes, or a marked entry (R85, R86, R88). -/
inductive Leaf
  | op0 (i : Instr)
  | op1 (f : Byte → Instr)
  | op2 (f : Word → Instr)
  | notImplemented (i : Instr)

/-- The three sub-tables (R97). -/
inductive SubTable
  | dd | fd | ed
  deriving DecidableEq, Repr

/-- The opcode byte that selects a sub-table (R97). -/
def SubTable.selector : SubTable → Byte
  | .dd => 0xDD#8
  | .fd => 0xFD#8
  | .ed => 0xED#8

/-- An entry of the root table: the depth of `DT_ref` is at most two (R85, R90). -/
inductive RootEntry
  | leaf (l : Leaf)
  | subTable (t : SubTable)

/-- Row `z = 0` of the quadrant `x = 0` (R97). -/
def dtControlShort (y : BitVec 3) : Leaf :=
  match y with
  | 0#3 => .op0 .nop
  | 1#3 => .op0 .exAfAf
  | 2#3 => .op1 .djnz
  | 3#3 => .op1 .jr
  | 4#3 => .op1 (.jrCc .nz)
  | 5#3 => .op1 (.jrCc .z)
  | 6#3 => .op1 (.jrCc .nc)
  | _ => .op1 (.jrCc .c)

/-- Row `z = 2` of the quadrant `x = 0` (R97). -/
def dtIndirect (y : BitVec 3) : Leaf :=
  match y with
  | 0#3 => .op0 .ldIndBcA
  | 1#3 => .op0 .ldAIndBc
  | 2#3 => .op0 .ldIndDeA
  | 3#3 => .op0 .ldAIndDe
  | 4#3 => .op2 .ldIndNnHl
  | 5#3 => .op2 .ldHlIndNn
  | 6#3 => .op2 .ldIndNnA
  | _ => .op2 .ldAIndNn

/-- The quadrant `x = 0` (R97). -/
def dtQuadrant0 (op : Byte) (y z : BitVec 3) : Leaf :=
  match z with
  | 0#3 => dtControlShort y
  | 1#3 => if qOf y then .op0 (.addHlSs (pairSpOfField (pairOf y)))
           else .op2 (.ldDdNn (pairSpOfField (pairOf y)))
  | 2#3 => dtIndirect y
  | 3#3 => if qOf y then .op0 (.decSs (pairSpOfField (pairOf y)))
           else .op0 (.incSs (pairSpOfField (pairOf y)))
  | 4#3 => match regOfField y with
           | some r => .op0 (.incR r)
           | none => .op0 .incIndHl
  | 5#3 => match regOfField y with
           | some r => .op0 (.decR r)
           | none => .op0 .decIndHl
  | 6#3 => match regOfField y with
           | some r => .op1 (.ldRN r)
           | none => .op1 .ldIndHlN
  | _ => .notImplemented (.niRoot op)

/-- The quadrant `x = 1`: the register loads, and the marked entry 0x76 (R97). -/
def dtQuadrant1 (op : Byte) (y z : BitVec 3) : Leaf :=
  match regOfField y, regOfField z with
  | some rd, some rs => .op0 (.ldRR rd rs)
  | some rd, none => .op0 (.ldRIndHl rd)
  | none, some rs => .op0 (.ldIndHlR rs)
  | none, none => .notImplemented (.niRoot op)

/-- ALU operation `y` on a register (R97, R228). -/
def aluOnReg (y : BitVec 3) (r : Reg8) : Instr :=
  match y with
  | 0#3 => .addAR r
  | 1#3 => .adcAR r
  | 2#3 => .subR r
  | 3#3 => .sbcAR r
  | 4#3 => .andR r
  | 5#3 => .xorR r
  | 6#3 => .orR r
  | _ => .cpR r

/-- ALU operation `y` on the memory byte at `HL` (R97, R228). -/
def aluOnIndHl (y : BitVec 3) : Instr :=
  match y with
  | 0#3 => .addAIndHl
  | 1#3 => .adcAIndHl
  | 2#3 => .subIndHl
  | 3#3 => .sbcAIndHl
  | 4#3 => .andIndHl
  | 5#3 => .xorIndHl
  | 6#3 => .orIndHl
  | _ => .cpIndHl

/-- ALU operation `y` on an immediate (R97, R228). -/
def aluOnImmediate (y : BitVec 3) (n : Byte) : Instr :=
  match y with
  | 0#3 => .addAN n
  | 1#3 => .adcAN n
  | 2#3 => .subN n
  | 3#3 => .sbcAN n
  | 4#3 => .andN n
  | 5#3 => .xorN n
  | 6#3 => .orN n
  | _ => .cpN n

/-- The quadrant `x = 2` (R97). -/
def dtQuadrant2 (y z : BitVec 3) : Leaf :=
  match regOfField z with
  | some r => .op0 (aluOnReg y r)
  | none => .op0 (aluOnIndHl y)

/-- Row `z = 1` of the quadrant `x = 3` (R97). -/
def dtPop (y : BitVec 3) : Leaf :=
  if qOf y then
    match pairOf y with
    | 0#2 => .op0 .ret
    | 1#2 => .op0 .exx
    | 2#2 => .op0 .jpHl
    | _ => .op0 .ldSpHl
  else .op0 (.popQq (pairAfOfField (pairOf y)))

/-- Row `z = 3` of the quadrant `x = 3` (R97). -/
def dtMixed (op : Byte) (y : BitVec 3) : Leaf :=
  match y with
  | 0#3 => .op2 .jpNn
  | 2#3 => .op1 .outNA
  | 3#3 => .op1 .inAN
  | 5#3 => .op0 .exDeHl
  | _ => .notImplemented (.niRoot op)

/-- Row `z = 5` of the quadrant `x = 3`, with the three sub-tables (R97). -/
def dtPush (y : BitVec 3) : RootEntry :=
  if qOf y then
    match pairOf y with
    | 0#2 => .leaf (.op2 .callNn)
    | 1#2 => .subTable .dd
    | 2#2 => .subTable .ed
    | _ => .subTable .fd
  else .leaf (.op0 (.pushQq (pairAfOfField (pairOf y))))

/-- The quadrant `x = 3` (R97). -/
def dtQuadrant3 (op : Byte) (y z : BitVec 3) : RootEntry :=
  match z with
  | 0#3 => .leaf (.op0 (.retCc (condOfField y)))
  | 1#3 => .leaf (dtPop y)
  | 2#3 => .leaf (.op2 (.jpCcNn (condOfField y)))
  | 3#3 => .leaf (dtMixed op y)
  | 4#3 => .leaf (.op2 (.callCcNn (condOfField y)))
  | 5#3 => dtPush y
  | 6#3 => .leaf (.op1 (aluOnImmediate y))
  | _ => .leaf (.op0 (.rstP y))

/-- The root table `DT_ref` (R97). -/
def dtRef (op : Byte) : RootEntry :=
  match fieldX op with
  | 0#2 => .leaf (dtQuadrant0 op (fieldY op) (fieldZ op))
  | 1#2 => .leaf (dtQuadrant1 op (fieldY op) (fieldZ op))
  | 2#2 => .leaf (dtQuadrant2 (fieldY op) (fieldZ op))
  | _ => dtQuadrant3 op (fieldY op) (fieldZ op)

/-- A sub-table for one index register: its load, its two indexed forms, every other entry marked
(R98, R99). -/
def dtIndex (load : Word → Instr) (fromMem : Reg8 → Byte → Instr) (toMem : Byte → Reg8 → Instr)
    (marked : Byte → Instr) (op : Byte) : Leaf :=
  if op = 0x21#8 then .op2 load
  else if fieldX op = 1#2 then
    match regOfField (fieldY op), regOfField (fieldZ op) with
    | some r, none => .op1 (fromMem r)
    | none, some r => .op1 (fun d => toMem d r)
    | _, _ => .notImplemented (marked op)
  else .notImplemented (marked op)

/-- The sub-table `DT_ED` (R100). -/
def dtPorts (op : Byte) : Leaf :=
  if fieldX op = 1#2 then
    match regOfField (fieldY op), fieldZ op with
    | some r, 0#3 => .op0 (.inRC r)
    | some r, 1#3 => .op0 (.outCR r)
    | _, _ => .notImplemented (.niEd op)
  else .notImplemented (.niEd op)

/-- The sub-tables, indexed by the second opcode byte (R98 to R100). -/
def dtSub (t : SubTable) (op : Byte) : Leaf :=
  match t with
  | .dd => dtIndex .ldIxNn .ldRIndIx .ldIndIxR .niDd op
  | .fd => dtIndex .ldIyNn .ldRIndIy .ldIndIyR .niFd op
  | .ed => dtPorts op

/-! ### Decoding a byte string -/

/-- Why a byte string is no instruction: it ends inside one (R89). -/
inductive DecodeError
  | noOpcode
  | noSecondOpcode
  | noOperand
  deriving DecidableEq, Repr

/-- Take the operand bytes of a terminal (R88, R96: the first operand byte is the low one). -/
def Leaf.finish (l : Leaf) (rest : List Byte) : Except DecodeError (Instr × List Byte) :=
  match l, rest with
  | .op0 i, rest => .ok (i, rest)
  | .notImplemented i, rest => .ok (i, rest)
  | .op1 f, n :: rest => .ok (f n, rest)
  | .op2 f, lo :: hi :: rest => .ok (f (compose hi lo), rest)
  | _, _ => .error .noOperand

/-- Walk the trie over a byte string; answer the instruction and the bytes after it (R89, R154). -/
def decode (bytes : List Byte) : Except DecodeError (Instr × List Byte) :=
  match bytes with
  | [] => .error .noOpcode
  | b :: rest =>
    match dtRef b with
    | .leaf l => l.finish rest
    | .subTable t =>
      match rest with
      | [] => .error .noSecondOpcode
      | b2 :: rest => (dtSub t b2).finish rest

/-! ### Encoding -/

/-- The two operand bytes of `nn`, low byte first (R91, R96). -/
def nnBytes (nn : Word) : List Byte := [lowByte nn, highByte nn]

/-- The bytes of an instruction in ascending address order, from the encoding of its own rule
(R170, R181 to R203, R212 to R228, R232 to R242, R251 to R254). -/
def encode : Instr → List Byte
  | .nop => [0x00#8]
  | .exAfAf => [0x08#8]
  | .djnz e => [0x10#8, e]
  | .jr e => [0x18#8, e]
  | .jrCc cc e => [opByte 0#2 cc.field 0#3, e]
  | .ldDdNn dd nn => opByte 0#2 (yOf dd.field false) 1#3 :: nnBytes nn
  | .addHlSs ss => [opByte 0#2 (yOf ss.field true) 1#3]
  | .ldIndBcA => [0x02#8]
  | .ldAIndBc => [0x0A#8]
  | .ldIndDeA => [0x12#8]
  | .ldAIndDe => [0x1A#8]
  | .ldIndNnHl nn => 0x22#8 :: nnBytes nn
  | .ldHlIndNn nn => 0x2A#8 :: nnBytes nn
  | .ldIndNnA nn => 0x32#8 :: nnBytes nn
  | .ldAIndNn nn => 0x3A#8 :: nnBytes nn
  | .incSs ss => [opByte 0#2 (yOf ss.field false) 3#3]
  | .decSs ss => [opByte 0#2 (yOf ss.field true) 3#3]
  | .incR r => [opByte 0#2 r.field 4#3]
  | .incIndHl => [0x34#8]
  | .decR r => [opByte 0#2 r.field 5#3]
  | .decIndHl => [0x35#8]
  | .ldRN r n => [opByte 0#2 r.field 6#3, n]
  | .ldIndHlN n => [0x36#8, n]
  | .ldRR rd rs => [opByte 1#2 rd.field rs.field]
  | .ldRIndHl r => [opByte 1#2 r.field 6#3]
  | .ldIndHlR r => [opByte 1#2 6#3 r.field]
  | .addAR r => [opByte 2#2 0#3 r.field]
  | .addAIndHl => [opByte 2#2 0#3 6#3]
  | .addAN n => [opByte 3#2 0#3 6#3, n]
  | .adcAR r => [opByte 2#2 1#3 r.field]
  | .adcAIndHl => [opByte 2#2 1#3 6#3]
  | .adcAN n => [opByte 3#2 1#3 6#3, n]
  | .subR r => [opByte 2#2 2#3 r.field]
  | .subIndHl => [opByte 2#2 2#3 6#3]
  | .subN n => [opByte 3#2 2#3 6#3, n]
  | .sbcAR r => [opByte 2#2 3#3 r.field]
  | .sbcAIndHl => [opByte 2#2 3#3 6#3]
  | .sbcAN n => [opByte 3#2 3#3 6#3, n]
  | .andR r => [opByte 2#2 4#3 r.field]
  | .andIndHl => [opByte 2#2 4#3 6#3]
  | .andN n => [opByte 3#2 4#3 6#3, n]
  | .xorR r => [opByte 2#2 5#3 r.field]
  | .xorIndHl => [opByte 2#2 5#3 6#3]
  | .xorN n => [opByte 3#2 5#3 6#3, n]
  | .orR r => [opByte 2#2 6#3 r.field]
  | .orIndHl => [opByte 2#2 6#3 6#3]
  | .orN n => [opByte 3#2 6#3 6#3, n]
  | .cpR r => [opByte 2#2 7#3 r.field]
  | .cpIndHl => [opByte 2#2 7#3 6#3]
  | .cpN n => [opByte 3#2 7#3 6#3, n]
  | .retCc cc => [opByte 3#2 cc.field 0#3]
  | .popQq qq => [opByte 3#2 (yOf qq.field false) 1#3]
  | .ret => [0xC9#8]
  | .exx => [0xD9#8]
  | .jpHl => [0xE9#8]
  | .ldSpHl => [0xF9#8]
  | .jpCcNn cc nn => opByte 3#2 cc.field 2#3 :: nnBytes nn
  | .jpNn nn => 0xC3#8 :: nnBytes nn
  | .outNA n => [0xD3#8, n]
  | .inAN n => [0xDB#8, n]
  | .exDeHl => [0xEB#8]
  | .callCcNn cc nn => opByte 3#2 cc.field 4#3 :: nnBytes nn
  | .pushQq qq => [opByte 3#2 (yOf qq.field false) 5#3]
  | .callNn nn => 0xCD#8 :: nnBytes nn
  | .rstP t => [opByte 3#2 t 7#3]
  | .ldIxNn nn => 0xDD#8 :: 0x21#8 :: nnBytes nn
  | .ldRIndIx r d => [0xDD#8, opByte 1#2 r.field 6#3, d]
  | .ldIndIxR d r => [0xDD#8, opByte 1#2 6#3 r.field, d]
  | .ldIyNn nn => 0xFD#8 :: 0x21#8 :: nnBytes nn
  | .ldRIndIy r d => [0xFD#8, opByte 1#2 r.field 6#3, d]
  | .ldIndIyR d r => [0xFD#8, opByte 1#2 6#3 r.field, d]
  | .inRC r => [0xED#8, opByte 1#2 r.field 0#3]
  | .outCR r => [0xED#8, opByte 1#2 r.field 1#3]
  | .niRoot op => [op]
  | .niDd op => [0xDD#8, op]
  | .niFd op => [0xFD#8, op]
  | .niEd op => [0xED#8, op]

/-- The opcode path of an instruction: its bytes up to the terminal or marked entry (R89). -/
def Instr.opcodePath (i : Instr) : List Byte :=
  match encode i with
  | [] => []
  | b :: rest =>
    match dtRef b with
    | .leaf _ => [b]
    | .subTable _ => b :: rest.take 1

/-! ### Table words -/

/-- The longest instruction, in bytes (R90). -/
def maxLength : Nat := 4

/-- The bytes of a table word of `nbits` bits, first byte most significant (R105), followed by
zero bytes up to the longest instruction. -/
def bytesMostFirst (nbits w : Nat) : List Byte :=
  let n := nbits / 8
  (List.range maxLength).map fun k =>
    if k < n then BitVec.ofNat 8 (w >>> (8 * (n - 1 - k))) else 0#8

/-- The same word with its first byte least significant, followed by zero bytes. -/
def bytesLeastFirst (nbits w : Nat) : List Byte :=
  (List.range maxLength).map fun k =>
    if k < nbits / 8 then BitVec.ofNat 8 (w >>> (8 * k)) else 0#8

/-- The bytes begin with one instruction that takes up all `nbits` bits of the word. -/
def coversWord (nbits : Nat) (bytes : List Byte) : Bool :=
  match decode bytes with
  | .ok (_, rest) => decide (nbits / 8 + rest.length ≤ bytes.length)
  | .error _ => false

/-- The bytes a table word stands for. The table's own numbering is read first (R105: first byte
most significant); a word that is no single instruction of `nbits` bits that way is read with its
first byte least significant (log entry 14). -/
def tableBytes (nbits w : Nat) : List Byte :=
  if coversWord nbits (bytesMostFirst nbits w) then bytesMostFirst nbits w
  else if coversWord nbits (bytesLeastFirst nbits w) then bytesLeastFirst nbits w
  else bytesMostFirst nbits w

/-- The instruction the decoder reads from a word numbered as spec/opcode_table.json numbers it. -/
def decodeTableWord (nbits w : Nat) : Option Instr :=
  match decode (tableBytes nbits w) with
  | .ok (i, _) => some i
  | .error _ => none

end Sys2Proof
end

