-- ==== Sys2Proof/Machine/Flags.lean ====
section
/-! DEFINITION. The flag byte and every computation of it (rule R18 of spec/10_state.md, rules R210,
R211, R219 to R226 of spec/44_arith.md, rule R254 of spec/46_io.md, rule R231 of
spec/45_control.md). -/

namespace Sys2Proof.Machine

/-! ### The byte -/

/-- `S Z Y H X PV N C`, bit 7 first (R18, R211). -/
def flagByte (S Z Y H X PV N C : Bool) : Byte :=
  BitVec.ofBool S ++ BitVec.ofBool Z ++ BitVec.ofBool Y ++ BitVec.ofBool H ++ BitVec.ofBool X ++
    BitVec.ofBool PV ++ BitVec.ofBool N ++ BitVec.ofBool C

def flagS (f : Byte) : Bool := f.getLsbD 7
def flagZ (f : Byte) : Bool := f.getLsbD 6
def flagY (f : Byte) : Bool := f.getLsbD 5
def flagH (f : Byte) : Bool := f.getLsbD 4
def flagX (f : Byte) : Bool := f.getLsbD 3
def flagPV (f : Byte) : Bool := f.getLsbD 2
def flagN (f : Byte) : Bool := f.getLsbD 1
def flagC (f : Byte) : Bool := f.getLsbD 0

/-- `parity(v)`: true when the number of one bits is even (R211). -/
def parity (v : Byte) : Bool :=
  !(v.getLsbD 0 ^^ v.getLsbD 1 ^^ v.getLsbD 2 ^^ v.getLsbD 3 ^^ v.getLsbD 4 ^^ v.getLsbD 5 ^^
    v.getLsbD 6 ^^ v.getLsbD 7)

/-- The low four bits as a number. -/
def nibble (v : Byte) : Nat := v.toNat % 16

/-! ### 8-bit addition, subtraction, logic: (result, flags) -/

/-- `add8` (R211). -/
def add8 (a v : Byte) (c : Bool) : Byte × Byte :=
  let sum9 := a.toNat + v.toNat + c.toNat
  let res : Byte := BitVec.ofNat 8 sum9
  (res, flagByte (res.getLsbD 7) (res == 0#8) (res.getLsbD 5)
    (decide (0xF < nibble a + nibble v + c.toNat)) (res.getLsbD 3)
    (a.getLsbD 7 == v.getLsbD 7 && res.getLsbD 7 != a.getLsbD 7) false (decide (256 ≤ sum9)))

/-- `sub8` (R211). -/
def sub8 (a v : Byte) (c : Bool) : Byte × Byte :=
  let res : Byte := BitVec.ofInt 8 ((a.toNat : Int) - v.toNat - c.toNat)
  (res, flagByte (res.getLsbD 7) (res == 0#8) (res.getLsbD 5)
    (decide (nibble a < nibble v + c.toNat)) (res.getLsbD 3)
    (a.getLsbD 7 != v.getLsbD 7 && res.getLsbD 7 != a.getLsbD 7) true
    (decide (a.toNat < v.toNat + c.toNat)))

/-- `logic8` (R211). -/
def logic8 (res : Byte) (h : Bool) : Byte :=
  flagByte (res.getLsbD 7) (res == 0#8) (res.getLsbD 5) h (res.getLsbD 3) (parity res) false false

/-! ### The eight accumulator operations: from (accumulator, operand, old flags) -/

/-- `ADD` (R212). -/
def aluAdd (a v _f : Byte) : Byte × Byte := add8 a v false

/-- `ADC` (R213). -/
def aluAdc (a v f : Byte) : Byte × Byte := add8 a v (flagC f)

/-- `SUB` (R214). -/
def aluSub (a v _f : Byte) : Byte × Byte := sub8 a v false

/-- `SBC` (R215). -/
def aluSbc (a v f : Byte) : Byte × Byte := sub8 a v (flagC f)

/-- `AND` (R216). -/
def aluAnd (a v _f : Byte) : Byte × Byte := (a &&& v, logic8 (a &&& v) true)

/-- `XOR` (R217). -/
def aluXor (a v _f : Byte) : Byte × Byte := (a ^^^ v, logic8 (a ^^^ v) false)

/-- `OR` (R218). -/
def aluOr (a v _f : Byte) : Byte × Byte := (a ||| v, logic8 (a ||| v) false)

/-- `CP`: the flags of a subtraction with `Y` and `X` from the operand; the accumulator stays
(R219). -/
def aluCp (a v _f : Byte) : Byte × Byte :=
  let f := (sub8 a v false).2
  (a, flagByte (flagS f) (flagZ f) (v.getLsbD 5) (flagH f) (v.getLsbD 3) (flagPV f) (flagN f)
    (flagC f))

/-! ### Increment, decrement, 16-bit addition, port input -/

/-- `INC` of a byte, with the old flags (R220). -/
def inc8 (old f : Byte) : Byte × Byte :=
  let res := old + 1#8
  (res, flagByte (res.getLsbD 7) (res == 0#8) (res.getLsbD 5) (nibble old == 0xF)
    (res.getLsbD 3) (old == 0x7F#8) false (flagC f))

/-- `DEC` of a byte, with the old flags (R222). -/
def dec8 (old f : Byte) : Byte × Byte :=
  let res := old - 1#8
  (res, flagByte (res.getLsbD 7) (res == 0#8) (res.getLsbD 5) (nibble old == 0x0)
    (res.getLsbD 3) (old == 0x80#8) true (flagC f))

/-- `ADD HL,ss`: `S Z PV` stay (R226). -/
def add16 (a v : Word) (f : Byte) : Word × Byte :=
  let sum17 := a.toNat + v.toNat
  let res : Word := BitVec.ofNat 16 sum17
  (res, flagByte (flagS f) (flagZ f) (res.getLsbD 13)
    (decide (0xFFF < a.toNat % 4096 + v.toNat % 4096)) (res.getLsbD 11) (flagPV f) false
    (decide (65536 ≤ sum17)))

/-- The flags of `IN r,(C)`: all but `C` from the byte read (R254). -/
def inputFlags (v f : Byte) : Byte :=
  flagByte (v.getLsbD 7) (v == 0#8) (v.getLsbD 5) false (v.getLsbD 3) (parity v) false (flagC f)

end Sys2Proof.Machine

namespace Sys2Proof

/-! ### Conditions -/

/-- `cond(cc)` (R231). -/
def Cond.holds (cc : Cond) (f : Byte) : Bool :=
  match cc with
  | .nz => !Machine.flagZ f
  | .z => Machine.flagZ f
  | .nc => !Machine.flagC f
  | .c => Machine.flagC f
  | .po => !Machine.flagPV f
  | .pe => Machine.flagPV f
  | .p => !Machine.flagS f
  | .m => Machine.flagS f

/-- The conditions of `JR cc,e` are conditions 0 to 3 (R95, R236). -/
def JrCond.cond : JrCond → Cond
  | .nz => .nz | .z => .z | .nc => .nc | .c => .c

end Sys2Proof
end

