-- ==== Sys2Proof/Machine/Operands.lean ====
section
/-! DEFINITION. The operand forms: the three sources of the accumulator operations (rule R228 of
spec/44_arith.md), indexed and port addresses (rules R200, R201, R250), branch targets (rule R235),
and the shared shapes built on them. -/

namespace Sys2Proof.Machine

/-- The register a field names, `x[R[i]]` (R180 b). -/
def State.reg (s : State) (r : Reg8) : Byte := s.r8 r.ent

/-- `x[R[i]] <- v` (R180 b). -/
def State.putReg (s : State) (r : Reg8) (v : Byte) : State := s.put8 r.ent v

/-- `ea <- x[XY] + sext_16(d)` (R200, R201). -/
def indexedAddress (s : State) (xy : Ent16) (d : Byte) : Word := s.r16 xy + sext16 d

/-- The port of an `(n)` form: the accumulator is the high byte (R250). -/
def portOfImmediate (s : State) (n : Byte) : Word := compose (s.r8 .a) n

/-- The port of a `(C)` form: `BC` (R250). -/
def portOfBc (s : State) : Word := s.r16 .bc

/-- `x[PC] + sext_16(e)`, from the address of the next instruction (R96, R235). -/
def relativeTarget (s : State) (e : Byte) : Word := s.r16 .pc + sext16 e

/-- `cond(cc)` read from `F` (R231). -/
def State.meets (s : State) (cc : Cond) : Bool := cc.holds (s.r8 .f)

/-- The target of `RST p`: `zext_16(8 * t)` (R242). -/
def rstTarget (t : BitVec 3) : Word := zext16 (0#2 ++ t ++ 0#3)

/-- The source `r` (R228). -/
def sourceReg (r : Reg8) (s : State) (k : Byte → State → Result) : Result := k (s.reg r) s

/-- The source `(HL)`: one memory read (R228). -/
def sourceIndHl (s : State) (k : Byte → State → Result) : Result := memRead (s.r16 .hl) s k

/-- The source `n` (R228). -/
def sourceImmediate (n : Byte) (s : State) (k : Byte → State → Result) : Result := k n s

/-- Apply an accumulator operation to an operand: `A` and `F` take its result and flags (R212 to
R219). -/
def accumulate (op : Byte → Byte → Byte → Byte × Byte) (v : Byte) (s : State) : State :=
  let (res, f) := op (s.r8 .a) v (s.r8 .f)
  (s.put8 .a res).put8 .f f

/-- Push the address of the next instruction and go to the target (R238, R242). -/
def callTo (target : Word) (cost : Nat) (s : State) : Result :=
  pushWord (s.r16 .pc) s fun s => finish cost (jump target s)

/-- Pop the return address into `PC` (R240). -/
def returnFrom (cost : Nat) (s : State) : Result :=
  popWord s fun target s => finish cost (jump target s)

end Sys2Proof.Machine
end

