-- ==== Sys2Proof/Machine/Arith.lean ====
section
/-! DEFINITION. The arithmetic and logic instructions (rules R212 to R226 and R228 of
spec/44_arith.md). -/

namespace Sys2Proof.Machine

/-! ### 8-bit operations on the accumulator, three operand forms each (R228) -/

/-- `ADD A,r` (R212). -/
def execAddAR (r : Reg8) (s : State) : Result :=
  sourceReg r s fun v s => finish 4 (accumulate aluAdd v s)

/-- `ADD A,(HL)` (R212). -/
def execAddAIndHl (s : State) : Result :=
  sourceIndHl s fun v s => finish 7 (accumulate aluAdd v s)

/-- `ADD A,n` (R212). -/
def execAddAN (n : Byte) (s : State) : Result :=
  sourceImmediate n s fun v s => finish 7 (accumulate aluAdd v s)

/-- `ADC A,r` (R213). -/
def execAdcAR (r : Reg8) (s : State) : Result :=
  sourceReg r s fun v s => finish 4 (accumulate aluAdc v s)

/-- `ADC A,(HL)` (R213). -/
def execAdcAIndHl (s : State) : Result :=
  sourceIndHl s fun v s => finish 7 (accumulate aluAdc v s)

/-- `ADC A,n` (R213). -/
def execAdcAN (n : Byte) (s : State) : Result :=
  sourceImmediate n s fun v s => finish 7 (accumulate aluAdc v s)

/-- `SUB r` (R214). -/
def execSubR (r : Reg8) (s : State) : Result :=
  sourceReg r s fun v s => finish 4 (accumulate aluSub v s)

/-- `SUB (HL)` (R214). -/
def execSubIndHl (s : State) : Result :=
  sourceIndHl s fun v s => finish 7 (accumulate aluSub v s)

/-- `SUB n` (R214). -/
def execSubN (n : Byte) (s : State) : Result :=
  sourceImmediate n s fun v s => finish 7 (accumulate aluSub v s)

/-- `SBC A,r` (R215). -/
def execSbcAR (r : Reg8) (s : State) : Result :=
  sourceReg r s fun v s => finish 4 (accumulate aluSbc v s)

/-- `SBC A,(HL)` (R215). -/
def execSbcAIndHl (s : State) : Result :=
  sourceIndHl s fun v s => finish 7 (accumulate aluSbc v s)

/-- `SBC A,n` (R215). -/
def execSbcAN (n : Byte) (s : State) : Result :=
  sourceImmediate n s fun v s => finish 7 (accumulate aluSbc v s)

/-- `AND r` (R216). -/
def execAndR (r : Reg8) (s : State) : Result :=
  sourceReg r s fun v s => finish 4 (accumulate aluAnd v s)

/-- `AND (HL)` (R216). -/
def execAndIndHl (s : State) : Result :=
  sourceIndHl s fun v s => finish 7 (accumulate aluAnd v s)

/-- `AND n` (R216). -/
def execAndN (n : Byte) (s : State) : Result :=
  sourceImmediate n s fun v s => finish 7 (accumulate aluAnd v s)

/-- `XOR r` (R217). -/
def execXorR (r : Reg8) (s : State) : Result :=
  sourceReg r s fun v s => finish 4 (accumulate aluXor v s)

/-- `XOR (HL)` (R217). -/
def execXorIndHl (s : State) : Result :=
  sourceIndHl s fun v s => finish 7 (accumulate aluXor v s)

/-- `XOR n` (R217). -/
def execXorN (n : Byte) (s : State) : Result :=
  sourceImmediate n s fun v s => finish 7 (accumulate aluXor v s)

/-- `OR r` (R218). -/
def execOrR (r : Reg8) (s : State) : Result :=
  sourceReg r s fun v s => finish 4 (accumulate aluOr v s)

/-- `OR (HL)` (R218). -/
def execOrIndHl (s : State) : Result :=
  sourceIndHl s fun v s => finish 7 (accumulate aluOr v s)

/-- `OR n` (R218). -/
def execOrN (n : Byte) (s : State) : Result :=
  sourceImmediate n s fun v s => finish 7 (accumulate aluOr v s)

/-- `CP r` (R219). -/
def execCpR (r : Reg8) (s : State) : Result :=
  sourceReg r s fun v s => finish 4 (accumulate aluCp v s)

/-- `CP (HL)` (R219). -/
def execCpIndHl (s : State) : Result :=
  sourceIndHl s fun v s => finish 7 (accumulate aluCp v s)

/-- `CP n` (R219). -/
def execCpN (n : Byte) (s : State) : Result :=
  sourceImmediate n s fun v s => finish 7 (accumulate aluCp v s)

/-! ### Increment and decrement -/

/-- `INC r` (R220). -/
def execIncR (r : Reg8) (s : State) : Result :=
  let (res, f) := inc8 (s.reg r) (s.r8 .f)
  finish 4 ((s.putReg r res).put8 .f f)

/-- `INC (HL)` (R221). -/
def execIncIndHl (s : State) : Result :=
  memRead (s.r16 .hl) s fun old s =>
    let (res, f) := inc8 old (s.r8 .f)
    memWrite (s.r16 .hl) res (s.put8 .f f) fun s => finish 11 s

/-- `DEC r` (R222). -/
def execDecR (r : Reg8) (s : State) : Result :=
  let (res, f) := dec8 (s.reg r) (s.r8 .f)
  finish 4 ((s.putReg r res).put8 .f f)

/-- `DEC (HL)` (R223). -/
def execDecIndHl (s : State) : Result :=
  memRead (s.r16 .hl) s fun old s =>
    let (res, f) := dec8 old (s.r8 .f)
    memWrite (s.r16 .hl) res (s.put8 .f f) fun s => finish 11 s

/-- `INC ss` (R224). -/
def execIncSs (ss : PairSp) (s : State) : Result :=
  finish 6 (s.put16 ss.ent (s.r16 ss.ent + 1#16))

/-- `DEC ss` (R225). -/
def execDecSs (ss : PairSp) (s : State) : Result :=
  finish 6 (s.put16 ss.ent (s.r16 ss.ent - 1#16))

/-! ### 16-bit addition -/

/-- `ADD HL,ss` (R226). -/
def execAddHlSs (ss : PairSp) (s : State) : Result :=
  let (res, f) := add16 (s.r16 .hl) (s.r16 ss.ent) (s.r8 .f)
  finish 11 ((s.put16 .hl res).put8 .f f)

end Sys2Proof.Machine
end

