-- ==== Sys2Proof/Machine/Control.lean ====
section
/-! DEFINITION. The control-transfer instructions (rules R230 to R242 of spec/45_control.md). -/

namespace Sys2Proof.Machine

/-! ### Jumps -/

/-- `JP nn` (R232). -/
def execJpNn (nn : Word) (s : State) : Result := finish 10 (jump nn s)

/-- `JP cc,nn` (R233). -/
def execJpCcNn (cc : Cond) (nn : Word) (s : State) : Result :=
  finish 10 (if s.meets cc then jump nn s else s)

/-- `JP (HL)`: no memory is read (R234). -/
def execJpHl (s : State) : Result := finish 4 (jump (s.r16 .hl) s)

/-- `JR e` (R235). -/
def execJr (e : Byte) (s : State) : Result := finish 12 (jump (relativeTarget s e) s)

/-- `JR cc,e` (R236). -/
def execJrCc (cc : JrCond) (e : Byte) (s : State) : Result :=
  if s.meets cc.cond then finish 12 (jump (relativeTarget s e) s) else finish 7 s

/-- `DJNZ e` (R237). -/
def execDjnz (e : Byte) (s : State) : Result :=
  let t := s.put8 .b (s.r8 .b - 1#8)
  if t.r8 .b = 0#8 then finish 8 t else finish 13 (jump (relativeTarget t e) t)

/-! ### Calls and returns -/

/-- `CALL nn` (R238). -/
def execCallNn (nn : Word) (s : State) : Result := callTo nn 17 s

/-- `CALL cc,nn` (R239). -/
def execCallCcNn (cc : Cond) (nn : Word) (s : State) : Result :=
  if s.meets cc then callTo nn 17 s else finish 10 s

/-- `RET` (R240). -/
def execRet (s : State) : Result := returnFrom 10 s

/-- `RET cc` (R241). -/
def execRetCc (cc : Cond) (s : State) : Result :=
  if s.meets cc then returnFrom 11 s else finish 5 s

/-- `RST p` (R242). -/
def execRstP (t : BitVec 3) (s : State) : Result := callTo (rstTarget t) 11 s

end Sys2Proof.Machine
end

