-- ==== Sys2Proof/Machine/InOut.lean ====
section
/-! DEFINITION. The input and output instructions (rules R250 to R254 of spec/46_io.md). -/

namespace Sys2Proof.Machine

/-- `OUT (n),A` (R251). -/
def execOutNA (n : Byte) (s : State) : Result :=
  ioWrite (portOfImmediate s n) (s.r8 .a) s fun s => finish 11 s

/-- `IN A,(n)`: the port is built from the old accumulator (R252). -/
def execInAN (n : Byte) (s : State) : Result :=
  ioRead (portOfImmediate s n) s fun v s => finish 11 (s.put8 .a v)

/-- `OUT (C),r` (R253). -/
def execOutCR (r : Reg8) (s : State) : Result :=
  ioWrite (portOfBc s) (s.reg r) s fun s => finish 12 s

/-- `IN r,(C)`: the port is `BC` before the write (R254). -/
def execInRC (r : Reg8) (s : State) : Result :=
  ioRead (portOfBc s) s fun v s =>
    finish 12 ((s.putReg r v).put8 .f (inputFlags v (s.r8 .f)))

end Sys2Proof.Machine
end

