-- ==== Sys2Proof/Machine/Load.lean ====
section
/-! DEFINITION. `NOP` (rule R170 of spec/42_cpu_cycle.md) and the load, stack and exchange
instructions (rules R181 to R203 of spec/43_load.md). On entry `PC` is the address of the next
instruction (R180 a). -/

namespace Sys2Proof.Machine

/-- `NOP` (R170). -/
def execNop (s : State) : Result := finish 4 s

/-! ### 8-bit loads -/

/-- `LD r,r'` (R181). -/
def execLdRR (rd rs : Reg8) (s : State) : Result := finish 4 (s.putReg rd (s.reg rs))

/-- `LD r,n` (R182). -/
def execLdRN (r : Reg8) (n : Byte) (s : State) : Result := finish 7 (s.putReg r n)

/-- `LD r,(HL)` (R183). -/
def execLdRIndHl (r : Reg8) (s : State) : Result :=
  memRead (s.r16 .hl) s fun v s => finish 7 (s.putReg r v)

/-- `LD (HL),r` (R184). -/
def execLdIndHlR (r : Reg8) (s : State) : Result :=
  memWrite (s.r16 .hl) (s.reg r) s fun s => finish 7 s

/-- `LD (HL),n` (R185). -/
def execLdIndHlN (n : Byte) (s : State) : Result :=
  memWrite (s.r16 .hl) n s fun s => finish 10 s

/-- `LD A,(BC)` (R186). -/
def execLdAIndBc (s : State) : Result :=
  memRead (s.r16 .bc) s fun v s => finish 7 (s.put8 .a v)

/-- `LD A,(DE)` (R187). -/
def execLdAIndDe (s : State) : Result :=
  memRead (s.r16 .de) s fun v s => finish 7 (s.put8 .a v)

/-- `LD (BC),A` (R188). -/
def execLdIndBcA (s : State) : Result :=
  memWrite (s.r16 .bc) (s.r8 .a) s fun s => finish 7 s

/-- `LD (DE),A` (R189). -/
def execLdIndDeA (s : State) : Result :=
  memWrite (s.r16 .de) (s.r8 .a) s fun s => finish 7 s

/-- `LD A,(nn)` (R190). -/
def execLdAIndNn (nn : Word) (s : State) : Result :=
  memRead nn s fun v s => finish 13 (s.put8 .a v)

/-- `LD (nn),A` (R191). -/
def execLdIndNnA (nn : Word) (s : State) : Result :=
  memWrite nn (s.r8 .a) s fun s => finish 13 s

/-! ### 16-bit loads -/

/-- `LD dd,nn` (R192). -/
def execLdDdNn (dd : PairSp) (nn : Word) (s : State) : Result := finish 10 (s.put16 dd.ent nn)

/-- `LD HL,(nn)` (R195). -/
def execLdHlIndNn (nn : Word) (s : State) : Result :=
  memRead2 nn s fun v s => finish 16 (s.put16 .hl v)

/-- `LD (nn),HL` (R196). -/
def execLdIndNnHl (nn : Word) (s : State) : Result :=
  memWrite2 nn (s.r16 .hl) s fun s => finish 16 s

/-- `LD SP,HL` (R203). -/
def execLdSpHl (s : State) : Result := finish 6 (s.put16 .sp (s.r16 .hl))

/-! ### Stack -/

/-- `PUSH qq` (R193). -/
def execPushQq (qq : PairAf) (s : State) : Result :=
  pushWord (s.r16 qq.ent) s fun s => finish 11 s

/-- `POP qq` (R194). -/
def execPopQq (qq : PairAf) (s : State) : Result :=
  popWord s fun v s => finish 10 (s.put16 qq.ent v)

/-! ### Exchanges -/

/-- `EX AF,AF'` (R197). -/
def execExAfAf (s : State) : Result :=
  finish 4 ((s.put16 .af (s.r16 .af')).put16 .af' (s.r16 .af))

/-- `EXX` (R198). -/
def execExx (s : State) : Result :=
  let t := ((s.put16 .bc (s.r16 .bc')).put16 .de (s.r16 .de')).put16 .hl (s.r16 .hl')
  finish 4 (((t.put16 .bc' (s.r16 .bc)).put16 .de' (s.r16 .de)).put16 .hl' (s.r16 .hl))

/-- `EX DE,HL` (R202). -/
def execExDeHl (s : State) : Result :=
  finish 4 ((s.put16 .de (s.r16 .hl)).put16 .hl (s.r16 .de))

/-! ### Index-register loads -/

/-- `LD IX,nn` (R199). -/
def execLdIxNn (nn : Word) (s : State) : Result := finish 14 (s.put16 .ix nn)

/-- `LD IY,nn` (R199). -/
def execLdIyNn (nn : Word) (s : State) : Result := finish 14 (s.put16 .iy nn)

/-- `LD r,(IX+d)` (R200). -/
def execLdRIndIx (r : Reg8) (d : Byte) (s : State) : Result :=
  memRead (indexedAddress s .ix d) s fun v s => finish 19 (s.putReg r v)

/-- `LD r,(IY+d)` (R200). -/
def execLdRIndIy (r : Reg8) (d : Byte) (s : State) : Result :=
  memRead (indexedAddress s .iy d) s fun v s => finish 19 (s.putReg r v)

/-- `LD (IX+d),r` (R201). -/
def execLdIndIxR (d : Byte) (r : Reg8) (s : State) : Result :=
  memWrite (indexedAddress s .ix d) (s.reg r) s fun s => finish 19 s

/-- `LD (IY+d),r` (R201). -/
def execLdIndIyR (d : Byte) (r : Reg8) (s : State) : Result :=
  memWrite (indexedAddress s .iy d) (s.reg r) s fun s => finish 19 s

end Sys2Proof.Machine
end

