-- ==== Sys2Proof/Machine/Marked.lean ====
section
/-! DEFINITION. The entries marked "not yet implemented" (rules R86, R101, R155 of the spec, R263 of
spec/60_exceptions.md): reaching one raises the fatal condition `NotImplemented(pc0, path)`, a
defined behaviour of this hardware. `PC` still holds the address of the first opcode byte and no
register has changed. -/

namespace Sys2Proof.Machine

/-- Raise `NotImplemented` for an opcode path (R154, R263). -/
def notImplementedPath (path : List Byte) (s : State) : Result :=
  .next (raiseFatal (.notImplemented (s.r16 .pc) path) s)

/-- A marked entry of the root table (R97). -/
def execNiRoot (op : Byte) (s : State) : Result := notImplementedPath [op] s

/-- A marked entry of `DT_DD` (R98). -/
def execNiDd (op : Byte) (s : State) : Result := notImplementedPath [0xDD#8, op] s

/-- A marked entry of `DT_FD` (R99). -/
def execNiFd (op : Byte) (s : State) : Result := notImplementedPath [0xFD#8, op] s

/-- A marked entry of `DT_ED` (R100). -/
def execNiEd (op : Byte) (s : State) : Result := notImplementedPath [0xED#8, op] s

end Sys2Proof.Machine
end

