-- ==== Sys2Proof/Machine/Handler.lean ====
section
/-! DEFINITION. What a handler may do, and the dispatch tries the model admits (rule R5 of
spec/00_scope.md, rules R85 to R88 of spec/30_encoding.md, rule R159 of spec/42_cpu_cycle.md; decisions
D1 and D10, U13 of spec/93_implementation_defined.md). -/

namespace Sys2Proof.Machine

/-! ### What a handler may do -/

/-- The typed result of a one-byte data read: the byte, or `AddressFault` with the byte `OPEN_BUS` a
handler may use for it (R163, R165, R267; U4). -/
inductive ReadResult
  | byte (v : Byte)
  | addressFault (openBus : Byte)
  deriving DecidableEq, Repr

/-- What a handler does, given the register file and its operand bytes (R159): one-byte data
transactions, each chosen from the results of those before it, and then the new register file and
the cost less one. By its type it sees nothing of the machine but those results, reaches devices
through the Bus alone, issues finitely many transactions, ends, and costs at least 1. A write tells
whether it was done or was an `AddressFault`. -/
inductive Behaviour
  | ends (regs : RegFile) (costLessOne : Nat)
  | reads (sp : Space) (a : Word) (next : ReadResult → Behaviour)
  | writes (sp : Space) (a : Word) (v : Byte) (next : Bool → Behaviour)

/-- Perform it on the machine (R159, R161, R163 to R165). A fatal condition ends it, with the register
file of the start of the step recorded (R168); a device that never replies hangs it (R118). -/
def Behaviour.run (b : Behaviour) (s : State) : Result :=
  match b with
  | .ends regs c => finish (c + 1) (s.withRegs regs)
  | .reads sp a next =>
    match busRead sp a s with
    | .ok v s' => (next (.byte v)).run s'
    | .addressFault s' => (next (.addressFault s'.conf.openBus)).run s'
    | .fatal s' => .next (restoreSnapshot s')
    | .hang h => .fault (.deviceSilent h)
  | .writes sp a v next =>
    match busWrite sp a v s with
    | .ok _ s' => (next true).run s'
    | .addressFault s' => (next false).run s'
    | .fatal s' => .next (restoreSnapshot s')
    | .hang h => .fault (.deviceSilent h)

/-- The conditions on a handler with `nops` operand bytes (R159): whatever machine it runs on, it is one
such behaviour, chosen from the register file and the operand bytes alone. -/
def HandlerWellFormed (nops : Nat) (handler : List Byte → State → Result) : Prop :=
  ∃ p : List Byte → RegFile → Behaviour, ∀ ops s, ops.length = nops →
    handler ops s = (p ops s.cpu.regs).run s

/-! ### Dispatch tries -/

/-- An entry of a table (R85, R88): a terminal with its number of operand bytes and its handler, a
sub-table, or "not yet implemented". A chain of sub-tables ends, because the type is inductive. A
handler is started with `PC` past the instruction (R158). -/
inductive Entry
  | terminal (nops : Nat) (handler : List Byte → State → Result)
  | subTable (t : Byte → Entry)
  | notImplemented

/-- A table has an entry for each of the 256 bytes (R85, R86). -/
abbrev Table := Byte → Entry

/-- Every handler a chain of sub-tables leads to meets the conditions (R159, R292 d). -/
def Entry.wellFormed : Entry → Prop
  | .terminal nops handler => HandlerWellFormed nops handler
  | .subTable t => ∀ b, (t b).wellFormed
  | .notImplemented => True

/-- The values of the parameter `DT`: root tables all of whose handlers meet the conditions. The model
takes no other, so it refuses a trie with an ill-formed handler (R5, D1, U13). -/
abbrev DispatchTrie := { dt : Table // ∀ b, (dt b).wellFormed }

end Sys2Proof.Machine
end

