-- ==== Sys2Proof/Machine/Admitted.lean ====
section
/-! DEFINITION. The proof that the model admits `DT_ref`: the meaning of every instruction but the marked
ones is a behaviour in the sense of rule R159 of spec/42_cpu_cycle.md. -/

namespace Sys2Proof.Machine

/-! ### Registers and the Bus do not meet -/

/-- What a transaction hands on, with other registers. -/
def Access.withRegs {α : Type} (r : RegFile) : Access α → Access α
  | .ok v s => .ok v (s.withRegs r)
  | .addressFault s => .addressFault (s.withRegs r)
  | .fatal s => .fatal (s.withRegs r)
  | .hang h => .hang h

/-- The transaction hands on a machine with these registers and this configuration. -/
def Access.HasRegs {α : Type} (r : RegFile) : Access α → Prop
  | .ok _ s => s.cpu.regs = r
  | .addressFault s => s.cpu.regs = r
  | .fatal _ => True
  | .hang _ => True

theorem askDevice_withRegs (h : Nat) (q : Request) (s : State) (r : RegFile) :
    askDevice h q (s.withRegs r) = ((askDevice h q s).1, (askDevice h q s).2.withRegs r) := by
  unfold askDevice
  show (match s.devices[h]? with | none => _ | some d => _) = _
  cases s.devices[h]? <;> rfl

theorem askDevice_regs (h : Nat) (q : Request) (s : State) :
    (askDevice h q s).2.cpu.regs = s.cpu.regs := by
  unfold askDevice
  split <;> rfl

theorem busRead_withRegs (sp : Space) (a : Word) (s : State) (r : RegFile) :
    busRead sp a (s.withRegs r) = (busRead sp a s).withRegs r := by
  unfold busRead
  show (if s.bus.alive then (match lookup (s.bus.table sp .read) a with | none => _ | some m => _)
    else _) = _
  split
  · cases lookup (s.bus.table sp .read) a with
    | none => rfl
    | some m =>
      simp only [askDevice_withRegs]
      generalize askDevice m.dev _ s = y
      obtain ⟨x, u⟩ := y
      unfold finishRead
      split <;> rfl
  · rfl

theorem busRead_regs (sp : Space) (a : Word) (s : State) :
    (busRead sp a s).HasRegs s.cpu.regs := by
  unfold busRead
  split
  · split
    · rfl
    · rename_i m _
      have hk := askDevice_regs m.dev (readRequest sp (m.offset a)) s
      simp only
      generalize askDevice m.dev (readRequest sp (m.offset a)) s = y at hk
      obtain ⟨x, u⟩ := y
      unfold finishRead
      split <;> first | exact hk | trivial
  · trivial

theorem busWrite_withRegs (sp : Space) (a : Word) (v : Byte) (s : State) (r : RegFile) :
    busWrite sp a v (s.withRegs r) = (busWrite sp a v s).withRegs r := by
  unfold busWrite
  show (if s.bus.alive then (match lookup (s.bus.table sp .write) a with | none => _ | some m => _)
    else _) = _
  split
  · cases lookup (s.bus.table sp .write) a with
    | none => rfl
    | some m =>
      simp only [askDevice_withRegs]
      generalize askDevice m.dev _ s = y
      obtain ⟨x, u⟩ := y
      unfold finishWrite
      split <;> rfl
  · rfl

theorem busWrite_regs (sp : Space) (a : Word) (v : Byte) (s : State) :
    (busWrite sp a v s).HasRegs s.cpu.regs := by
  unfold busWrite
  split
  · split
    · rfl
    · rename_i m _
      have hk := askDevice_regs m.dev (writeRequest sp (m.offset a) v) s
      simp only
      generalize askDevice m.dev (writeRequest sp (m.offset a) v) s = y at hk
      obtain ⟨x, u⟩ := y
      unfold finishWrite
      split <;> first | exact hk | trivial
  · trivial

/-- A behaviour has fixed what it does before it starts: the registers it runs over do not matter. -/
theorem Behaviour.run_withRegs (b : Behaviour) (s : State) (r : RegFile) :
    b.run (s.withRegs r) = b.run s := by
  induction b generalizing s with
  | ends regs c => rfl
  | reads sp a next ih =>
    unfold Behaviour.run
    rw [busRead_withRegs]
    cases busRead sp a s with
    | ok v u => exact ih _ _
    | addressFault u => exact ih _ _
    | fatal u => rfl
    | hang h => rfl
  | writes sp a v next ih =>
    unfold Behaviour.run
    rw [busWrite_withRegs]
    cases busWrite sp a v s with
    | ok _ u => exact ih _ _
    | addressFault u => exact ih _ _
    | fatal u => rfl
    | hang h => rfl

/-! ### Behaviours from the shared operations -/

/-- On machines with these registers, `f` is one behaviour. -/
def BehavesAt (r : RegFile) (f : State → Result) : Prop :=
  ∃ b : Behaviour, ∀ s : State, s.cpu.regs = r → f s = b.run s

/-- A machine with these registers. -/
def State.ofRegFile (r : RegFile) : State := State.reset.withRegs r

section
variable {r : RegFile}

theorem BehavesAt.congr {f g : State → Result} (h : BehavesAt r g)
    (hf : ∀ s : State, s.cpu.regs = r → f s = g s) : BehavesAt r f := by
  obtain ⟨b, hb⟩ := h
  exact ⟨b, fun s hs => (hf s hs).trans (hb s hs)⟩

theorem BehavesAt.finish (c : Nat) {f : State → State}
    (hf : ∀ s, f s = s.withRegs (f (.ofRegFile s.cpu.regs)).cpu.regs) :
    BehavesAt r fun s => Machine.finish (c + 1) (f s) :=
  ⟨.ends (f (.ofRegFile r)).cpu.regs c, fun s hs => by
    show Machine.finish (c + 1) (f s) = _
    rw [hf s, hs]; rfl⟩

/-- Registers are written, and something is done with the rest. -/
theorem BehavesAt.afterRegs {f : State → State} {k : State → Result}
    (hf : ∀ s, f s = s.withRegs (f (.ofRegFile s.cpu.regs)).cpu.regs)
    (hk : BehavesAt (f (.ofRegFile r)).cpu.regs k) : BehavesAt r fun s => k (f s) := by
  obtain ⟨b, hb⟩ := hk
  refine ⟨b, fun s hs => ?_⟩
  show k (f s) = _
  rw [hf s, hs, ← b.run_withRegs s (f (.ofRegFile r)).cpu.regs]
  exact hb _ rfl

/-- Several 16-bit registers are written. -/
theorem BehavesAt.puts (l : List (Ent16 × Word)) {k : State → Result} (hk : ∀ r, BehavesAt r k) :
    BehavesAt r fun s => k (l.foldl (fun u p => u.put16 p.1 p.2) s) := by
  induction l generalizing r with
  | nil => exact hk r
  | cons p l ih =>
    exact .afterRegs (f := fun u => u.put16 p.1 p.2)
      (k := fun s => k (l.foldl (fun u p => u.put16 p.1 p.2) s)) (fun _ => rfl) ih

theorem BehavesAt.read {sp : Space} {a : State → Word} {k : Byte → State → Result}
    (ha : ∀ s, a s = a (.ofRegFile s.cpu.regs)) (hk : ∀ v, BehavesAt r (k v)) :
    BehavesAt r fun s => dataRead sp (a s) s k := by
  refine ⟨.reads sp (a (.ofRegFile r)) fun x => (hk (match x with
    | .byte v => v
    | .addressFault v => v)).choose, fun s hs => ?_⟩
  have hr := busRead_regs sp (a (.ofRegFile r)) s
  show dataRead sp (a s) s k = _
  rw [ha s, hs]
  unfold dataRead Behaviour.run
  cases h : busRead sp (a (.ofRegFile r)) s with
  | ok v u => rw [h] at hr; exact (hk v).choose_spec u (hr.trans hs)
  | addressFault u => rw [h] at hr; exact (hk u.conf.openBus).choose_spec u (hr.trans hs)
  | fatal u => rfl
  | hang h => rfl

theorem BehavesAt.write {sp : Space} {a : State → Word} {v : State → Byte} {k : State → Result}
    (ha : ∀ s, a s = a (.ofRegFile s.cpu.regs)) (hv : ∀ s, v s = v (.ofRegFile s.cpu.regs))
    (hk : BehavesAt r k) : BehavesAt r fun s => dataWrite sp (a s) (v s) s k := by
  obtain ⟨b, hb⟩ := hk
  refine ⟨.writes sp (a (.ofRegFile r)) (v (.ofRegFile r)) fun _ => b, fun s hs => ?_⟩
  have hr := busWrite_regs sp (a (.ofRegFile r)) (v (.ofRegFile r)) s
  show dataWrite sp (a s) (v s) s k = _
  rw [ha s, hv s, hs]
  unfold dataWrite Behaviour.run
  cases h : busWrite sp (a (.ofRegFile r)) (v (.ofRegFile r)) s with
  | ok _ u => rw [h] at hr; exact hb u (hr.trans hs)
  | addressFault u => rw [h] at hr; exact hb u (hr.trans hs)
  | fatal u => rfl
  | hang h => rfl

theorem BehavesAt.ite {c : State → Prop} {i : DecidablePred c} {f g : State → Result}
    (hc : ∀ s, c s = c (.ofRegFile s.cpu.regs)) (hf : BehavesAt r f) (hg : BehavesAt r g) :
    BehavesAt r fun s => if c s then f s else g s := by
  by_cases h : c (.ofRegFile r)
  · exact hf.congr fun s hs => if_pos (by rw [hc, hs]; exact h)
  · exact hg.congr fun s hs => if_neg (by rw [hc, hs]; exact h)

/-- Pushing a word the registers hold. -/
theorem BehavesAt.push {w : State → Word} {k : State → Result}
    (hw : ∀ s, w s = w (.ofRegFile s.cpu.regs)) (hk : ∀ r, BehavesAt r k) :
    BehavesAt r fun s => pushWord (w s) s k := by
  refine BehavesAt.congr (g := fun s => pushWord (w (.ofRegFile r)) s k) ?_
    fun s hs => by rw [hw, hs]
  exact .afterRegs (f := fun u => u.put16 .sp (u.r16 .sp - 1#16)) (fun _ => rfl)
    (.write (a := fun u => u.r16 .sp) (v := fun _ => highByte (w (.ofRegFile r))) (fun _ => rfl)
      (fun _ => rfl) (.afterRegs (f := fun u => u.put16 .sp (u.r16 .sp - 1#16)) (fun _ => rfl)
        (.write (a := fun u => u.r16 .sp) (v := fun _ => lowByte (w (.ofRegFile r))) (fun _ => rfl)
          (fun _ => rfl) (hk _))))

theorem BehavesAt.pop {k : Word → State → Result} (hk : ∀ w r, BehavesAt r (k w)) :
    BehavesAt r fun s => popWord s k :=
  .read (a := fun u => u.r16 .sp) (fun _ => rfl) fun _ =>
    .afterRegs (f := fun u => u.put16 .sp (u.r16 .sp + 1#16)) (fun _ => rfl)
      (.read (a := fun u => u.r16 .sp) (fun _ => rfl) fun _ =>
        .afterRegs (f := fun u => u.put16 .sp (u.r16 .sp + 1#16)) (fun _ => rfl) (hk _ _))

theorem BehavesAt.call (a : Word) (c : Nat) : BehavesAt r (callTo a (c + 1)) :=
  .push (w := fun u => u.r16 .pc) (fun _ => rfl) fun _ => .finish c (f := jump a) fun _ => rfl

theorem BehavesAt.return (c : Nat) : BehavesAt r (returnFrom (c + 1)) :=
  .pop fun w _ => .finish c (f := jump w) fun _ => rfl

/-- The shape of an instruction that reads a byte and ends. -/
theorem BehavesAt.load {sp : Space} {a : State → Word} {f : Byte → State → State} (c : Nat)
    (ha : ∀ s, a s = a (.ofRegFile s.cpu.regs))
    (hf : ∀ v s, f v s = s.withRegs (f v (.ofRegFile s.cpu.regs)).cpu.regs) :
    BehavesAt r fun s => dataRead sp (a s) s fun v u => Machine.finish (c + 1) (f v u) :=
  .read ha fun v => .finish c (hf v)

/-- The shape of an instruction that writes a byte and ends. -/
theorem BehavesAt.store {sp : Space} {a : State → Word} {v : State → Byte} (c : Nat)
    (ha : ∀ s, a s = a (.ofRegFile s.cpu.regs)) (hv : ∀ s, v s = v (.ofRegFile s.cpu.regs)) :
    BehavesAt r fun s => dataWrite sp (a s) (v s) s fun u => Machine.finish (c + 1) u :=
  .write ha hv (.finish c (f := id) fun _ => rfl)

/-- The write half of `INC (HL)` and `DEC (HL)`. -/
theorem BehavesAt.update (op : Byte → Byte → Byte × Byte) (old : Byte) :
    BehavesAt r fun s => dataWrite .mem (s.r16 .hl) (op old (s.r8 .f)).1
      (s.put8 .f (op old (s.r8 .f)).2) fun u => Machine.finish 11 u := by
  refine .congr (g := fun s => dataWrite .mem ((State.ofRegFile r).r16 .hl)
    (op old ((State.ofRegFile r).r8 .f)).1 (s.put8 .f (op old (s.r8 .f)).2)
    fun u => Machine.finish 11 u) ?_ fun s hs => by subst hs; rfl
  exact .afterRegs (f := fun s => s.put8 .f (op old (s.r8 .f)).2)
    (k := fun s => dataWrite .mem ((State.ofRegFile r).r16 .hl)
      (op old ((State.ofRegFile r).r8 .f)).1 s fun u => Machine.finish 11 u) (fun _ => rfl)
    (.store (a := fun _ => (State.ofRegFile r).r16 .hl)
      (v := fun _ => (op old ((State.ofRegFile r).r8 .f)).1) 10 (fun _ => rfl) fun _ => rfl)

end

/-! ### Every instruction -/

theorem exec_behavesAt (i : Instr) (h : i.isNotImplemented = false) (r : RegFile) :
    BehavesAt r (exec i) := by
  cases i with
  | niRoot op => cases h
  | niDd op => cases h
  | niFd op => cases h
  | niEd op => cases h
  | nop => exact .finish 3 (f := id) fun _ => rfl
  | exAfAf => exact .finish 3 (f := fun u => (u.put16 .af (u.r16 .af')).put16 .af' (u.r16 .af)) fun _ => rfl
  | exDeHl => exact .finish 3 (f := fun u => (u.put16 .de (u.r16 .hl)).put16 .hl (u.r16 .de)) fun _ => rfl
  | exx =>
    have e : ∀ s : State, s.cpu.regs = r → ∀ q, s.r16 q = (State.ofRegFile r).r16 q :=
      fun s hs q => by subst hs; rfl
    let v := (State.ofRegFile r).r16
    exact .congr (.puts [(.bc, v .bc'), (.de, v .de'), (.hl, v .hl'), (.bc', v .bc), (.de', v .de),
      (.hl', v .hl)] (k := Machine.finish 4) fun _ => .finish 3 (f := id) fun _ => rfl) fun s hs => by
        simp only [exec, execExx, e s hs]; rfl
  | jr e => exact .finish 11 (f := fun u => jump (relativeTarget u e) u) fun _ => rfl
  | jrCc cc e =>
    exact .ite (c := fun u => u.meets cc.cond = true) (fun _ => rfl)
      (.finish 11 (f := fun u => jump (relativeTarget u e) u) fun _ => rfl)
      (.finish 6 (f := id) fun _ => rfl)
  | djnz e =>
    exact .ite (c := fun u => (u.put8 .b (u.r8 .b - 1#8)).r8 .b = 0#8) (fun _ => rfl)
      (.finish 7 (f := fun u => u.put8 .b (u.r8 .b - 1#8)) fun _ => rfl)
      (.finish 12 (f := fun u =>
        jump (relativeTarget (u.put8 .b (u.r8 .b - 1#8)) e) (u.put8 .b (u.r8 .b - 1#8))) fun _ => rfl)
  | jpNn nn => exact .finish 9 (f := jump nn) fun _ => rfl
  | jpCcNn cc nn =>
    refine .congr (g := fun u => if u.meets cc = true then Machine.finish 10 (jump nn u)
      else Machine.finish 10 u) ?_ fun s _ => by
        simp only [exec, execJpCcNn]; split <;> rfl
    exact .ite (c := fun u => u.meets cc = true) (fun _ => rfl)
      (.finish 9 (f := jump nn) fun _ => rfl) (.finish 9 (f := id) fun _ => rfl)
  | jpHl => exact .finish 3 (f := fun u => jump (u.r16 .hl) u) fun _ => rfl
  | callNn nn => exact .call nn 16
  | callCcNn cc nn =>
    exact .ite (c := fun u => u.meets cc = true) (fun _ => rfl) (.call nn 16)
      (.finish 9 (f := id) fun _ => rfl)
  | rstP t => exact .call (rstTarget t) 10
  | ret => exact .return 9
  | retCc cc =>
    exact .ite (c := fun u => u.meets cc = true) (fun _ => rfl) (.return 10)
      (.finish 4 (f := id) fun _ => rfl)
  | pushQq qq =>
    exact .push (w := fun u => u.r16 qq.ent) (fun _ => rfl) fun _ => .finish 10 (f := id) fun _ => rfl
  | popQq qq => exact .pop fun w _ => .finish 9 (f := fun u => u.put16 qq.ent w) fun _ => rfl
  | ldHlIndNn nn =>
    exact .read (a := fun _ => nn) (fun _ => rfl) fun lo =>
      .load (a := fun _ => nn + 1#16) (f := fun hi u => u.put16 .hl (compose hi lo)) 15
        (fun _ => rfl) fun _ _ => rfl
  | ldIndNnHl nn =>
    refine .congr (g := fun s => memWrite2 nn ((State.ofRegFile r).r16 .hl) s
      fun u => Machine.finish 16 u) ?_ fun s hs => by subst hs; rfl
    exact .write (a := fun _ => nn) (v := fun _ => lowByte ((State.ofRegFile r).r16 .hl))
      (fun _ => rfl) (fun _ => rfl) (.store (a := fun _ => nn + 1#16)
        (v := fun _ => highByte ((State.ofRegFile r).r16 .hl)) 15 (fun _ => rfl) fun _ => rfl)
  | ldDdNn dd nn => exact .finish 9 (f := fun u => u.put16 dd.ent nn) fun _ => rfl
  | ldIxNn nn => exact .finish 13 (f := fun u => u.put16 .ix nn) fun _ => rfl
  | ldIyNn nn => exact .finish 13 (f := fun u => u.put16 .iy nn) fun _ => rfl
  | ldSpHl => exact .finish 5 (f := fun u => u.put16 .sp (u.r16 .hl)) fun _ => rfl
  | incSs ss => exact .finish 5 (f := fun u => u.put16 ss.ent (u.r16 ss.ent + 1#16)) fun _ => rfl
  | decSs ss => exact .finish 5 (f := fun u => u.put16 ss.ent (u.r16 ss.ent - 1#16)) fun _ => rfl
  | addHlSs ss =>
    exact .finish 10 (f := fun u =>
      (u.put16 .hl (add16 (u.r16 .hl) (u.r16 ss.ent) (u.r8 .f)).1).put8 .f
        (add16 (u.r16 .hl) (u.r16 ss.ent) (u.r8 .f)).2) fun _ => rfl
  | incR q =>
    exact .finish 3 (f := fun u =>
      (u.putReg q (inc8 (u.reg q) (u.r8 .f)).1).put8 .f (inc8 (u.reg q) (u.r8 .f)).2) fun _ => rfl
  | decR q =>
    exact .finish 3 (f := fun u =>
      (u.putReg q (dec8 (u.reg q) (u.r8 .f)).1).put8 .f (dec8 (u.reg q) (u.r8 .f)).2) fun _ => rfl
  | incIndHl => exact .read (a := fun u => u.r16 .hl) (fun _ => rfl) fun old => .update inc8 old
  | decIndHl => exact .read (a := fun u => u.r16 .hl) (fun _ => rfl) fun old => .update dec8 old
  | ldRN q n => exact .finish 6 (f := fun u => u.putReg q n) fun _ => rfl
  | ldRR rd rs => exact .finish 3 (f := fun u => u.putReg rd (u.reg rs)) fun _ => rfl
  | ldRIndHl q =>
    exact .load (a := fun u => u.r16 .hl) (f := fun v u => u.putReg q v) 6 (fun _ => rfl) fun _ _ => rfl
  | ldAIndBc =>
    exact .load (a := fun u => u.r16 .bc) (f := fun v u => u.put8 .a v) 6 (fun _ => rfl) fun _ _ => rfl
  | ldAIndDe =>
    exact .load (a := fun u => u.r16 .de) (f := fun v u => u.put8 .a v) 6 (fun _ => rfl) fun _ _ => rfl
  | ldAIndNn nn =>
    exact .load (a := fun _ => nn) (f := fun v u => u.put8 .a v) 12 (fun _ => rfl) fun _ _ => rfl
  | ldRIndIx q d =>
    exact .load (a := fun u => indexedAddress u .ix d) (f := fun v u => u.putReg q v) 18
      (fun _ => rfl) fun _ _ => rfl
  | ldRIndIy q d =>
    exact .load (a := fun u => indexedAddress u .iy d) (f := fun v u => u.putReg q v) 18
      (fun _ => rfl) fun _ _ => rfl
  | inAN n =>
    exact .load (a := fun u => portOfImmediate u n) (f := fun v u => u.put8 .a v) 10
      (fun _ => rfl) fun _ _ => rfl
  | inRC q =>
    exact .load (a := portOfBc) (f := fun v u =>
      (u.putReg q v).put8 .f (inputFlags v (u.r8 .f))) 11 (fun _ => rfl) fun _ _ => rfl
  | ldIndHlR q => exact .store (a := fun u => u.r16 .hl) (v := fun u => u.reg q) 6 (fun _ => rfl) fun _ => rfl
  | ldIndHlN n => exact .store (a := fun u => u.r16 .hl) (v := fun _ => n) 9 (fun _ => rfl) fun _ => rfl
  | ldIndBcA => exact .store (a := fun u => u.r16 .bc) (v := fun u => u.r8 .a) 6 (fun _ => rfl) fun _ => rfl
  | ldIndDeA => exact .store (a := fun u => u.r16 .de) (v := fun u => u.r8 .a) 6 (fun _ => rfl) fun _ => rfl
  | ldIndNnA nn => exact .store (a := fun _ => nn) (v := fun u => u.r8 .a) 12 (fun _ => rfl) fun _ => rfl
  | ldIndIxR d q =>
    exact .store (a := fun u => indexedAddress u .ix d) (v := fun u => u.reg q) 18 (fun _ => rfl) fun _ => rfl
  | ldIndIyR d q =>
    exact .store (a := fun u => indexedAddress u .iy d) (v := fun u => u.reg q) 18 (fun _ => rfl) fun _ => rfl
  | outNA n =>
    exact .store (a := fun u => portOfImmediate u n) (v := fun u => u.r8 .a) 10 (fun _ => rfl) fun _ => rfl
  | outCR q => exact .store (a := portOfBc) (v := fun u => u.reg q) 11 (fun _ => rfl) fun _ => rfl
  | addAR q => exact .finish 3 (f := fun u => accumulate aluAdd (u.reg q) u) fun _ => rfl
  | adcAR q => exact .finish 3 (f := fun u => accumulate aluAdc (u.reg q) u) fun _ => rfl
  | subR q => exact .finish 3 (f := fun u => accumulate aluSub (u.reg q) u) fun _ => rfl
  | sbcAR q => exact .finish 3 (f := fun u => accumulate aluSbc (u.reg q) u) fun _ => rfl
  | andR q => exact .finish 3 (f := fun u => accumulate aluAnd (u.reg q) u) fun _ => rfl
  | xorR q => exact .finish 3 (f := fun u => accumulate aluXor (u.reg q) u) fun _ => rfl
  | orR q => exact .finish 3 (f := fun u => accumulate aluOr (u.reg q) u) fun _ => rfl
  | cpR q => exact .finish 3 (f := fun u => accumulate aluCp (u.reg q) u) fun _ => rfl
  | addAN n => exact .finish 6 (f := accumulate aluAdd n) fun _ => rfl
  | adcAN n => exact .finish 6 (f := accumulate aluAdc n) fun _ => rfl
  | subN n => exact .finish 6 (f := accumulate aluSub n) fun _ => rfl
  | sbcAN n => exact .finish 6 (f := accumulate aluSbc n) fun _ => rfl
  | andN n => exact .finish 6 (f := accumulate aluAnd n) fun _ => rfl
  | xorN n => exact .finish 6 (f := accumulate aluXor n) fun _ => rfl
  | orN n => exact .finish 6 (f := accumulate aluOr n) fun _ => rfl
  | cpN n => exact .finish 6 (f := accumulate aluCp n) fun _ => rfl
  | addAIndHl => exact .load (a := fun u => u.r16 .hl) (f := accumulate aluAdd) 6 (fun _ => rfl) fun _ _ => rfl
  | adcAIndHl => exact .load (a := fun u => u.r16 .hl) (f := accumulate aluAdc) 6 (fun _ => rfl) fun _ _ => rfl
  | subIndHl => exact .load (a := fun u => u.r16 .hl) (f := accumulate aluSub) 6 (fun _ => rfl) fun _ _ => rfl
  | sbcAIndHl => exact .load (a := fun u => u.r16 .hl) (f := accumulate aluSbc) 6 (fun _ => rfl) fun _ _ => rfl
  | andIndHl => exact .load (a := fun u => u.r16 .hl) (f := accumulate aluAnd) 6 (fun _ => rfl) fun _ _ => rfl
  | xorIndHl => exact .load (a := fun u => u.r16 .hl) (f := accumulate aluXor) 6 (fun _ => rfl) fun _ _ => rfl
  | orIndHl => exact .load (a := fun u => u.r16 .hl) (f := accumulate aluOr) 6 (fun _ => rfl) fun _ _ => rfl
  | cpIndHl => exact .load (a := fun u => u.r16 .hl) (f := accumulate aluCp) 6 (fun _ => rfl) fun _ _ => rfl

/-- The meaning of an instruction is one behaviour for each register file. -/
theorem exec_behaves (i : Instr) (h : i.isNotImplemented = false) :
    ∃ p : RegFile → Behaviour, ∀ s, exec i s = (p s.cpu.regs).run s :=
  ⟨fun r => (exec_behavesAt i h r).choose, fun s => (exec_behavesAt i h _).choose_spec s rfl⟩

end Sys2Proof.Machine
end

