-- ==== Sys2Proof/Machine/Trie.lean ====
section
/-! DEFINITION. `DT_ref` with its handlers, as one of the dispatch tries the model admits (rules R85 to
R100 of spec/30_encoding.md). -/

namespace Sys2Proof.Machine

/-- `ops[k]`, the operand byte at the `k`th lowest address (R156). -/
def operand (ops : List Byte) (k : Nat) : Byte := ops.getD k 0#8

/-- The entry of a terminal or marked leaf of `DT_ref` (R86, R88, R96). -/
def entryOf (l : Leaf) : Entry :=
  match l with
  | .op0 i => .terminal 0 fun _ s => exec i s
  | .op1 f => .terminal 1 fun ops s => exec (f (operand ops 0)) s
  | .op2 f => .terminal 2 fun ops s => exec (f (compose (operand ops 1) (operand ops 0))) s
  | .notImplemented _ => .notImplemented

/-- The root table of `DT_ref` (R97 to R100). -/
def referenceTable : Table := fun b =>
  match dtRef b with
  | .leaf l => entryOf l
  | .subTable t => .subTable fun b2 => entryOf (dtSub t b2)

/-! ### It is admitted -/

/-- What the leaf after a path stands for: instructions with a handler, or the abort of that path. -/
def leafMeans (path : List Byte) : Leaf → Prop
  | .op0 i => i.isNotImplemented = false
  | .op1 f => ∀ n, (f n).isNotImplemented = false
  | .op2 f => ∀ nn, (f nn).isNotImplemented = false
  | .notImplemented i => i.isNotImplemented ∧ ∀ s, exec i s = notImplementedPath path s

theorem dtSub_means (t : SubTable) (b : Byte) : leafMeans [t.selector, b] (dtSub t b) := by
  revert b
  refine forall_opByte ?_
  cases t <;> refine forall_field2 ?_ ?_ ?_ ?_ <;> refine forall_field3 ?_ ?_ ?_ ?_ ?_ ?_ ?_ ?_ <;>
    refine forall_field3 ?_ ?_ ?_ ?_ ?_ ?_ ?_ ?_ <;>
    first | exact rfl | exact fun _ => rfl | exact ⟨rfl, fun _ => rfl⟩

theorem dtRef_means (b : Byte) :
    match dtRef b with
    | .leaf l => leafMeans [b] l
    | .subTable t => b = t.selector := by
  revert b
  refine forall_opByte ?_
  refine forall_field2 ?_ ?_ ?_ ?_ <;> refine forall_field3 ?_ ?_ ?_ ?_ ?_ ?_ ?_ ?_ <;>
    refine forall_field3 ?_ ?_ ?_ ?_ ?_ ?_ ?_ ?_ <;>
    first | exact rfl | exact fun _ => rfl | exact ⟨rfl, fun _ => rfl⟩

theorem entryOf_wellFormed {path : List Byte} {l : Leaf} (h : leafMeans path l) :
    (entryOf l).wellFormed := by
  cases l with
  | op0 i => exact ⟨fun _ => (exec_behaves i h).choose, fun _ s _ => (exec_behaves i h).choose_spec s⟩
  | op1 f => exact ⟨fun ops => (exec_behaves _ (h (operand ops 0))).choose, fun ops s _ =>
      (exec_behaves _ (h (operand ops 0))).choose_spec s⟩
  | op2 f => exact ⟨fun ops => (exec_behaves _ (h (compose (operand ops 1) (operand ops 0)))).choose,
      fun ops s _ => (exec_behaves _ (h (compose (operand ops 1) (operand ops 0)))).choose_spec s⟩
  | notImplemented i => trivial

theorem referenceTable_wellFormed (b : Byte) : (referenceTable b).wellFormed := by
  have hb := dtRef_means b
  unfold referenceTable
  cases e : dtRef b with
  | leaf l => rw [e] at hb; exact entryOf_wellFormed hb
  | subTable t => exact fun b2 => entryOf_wellFormed (dtSub_means t b2)

/-- `DT_ref`, the reference value of the parameter `DT` (R5, D1). -/
def dtReference : DispatchTrie := ⟨referenceTable, referenceTable_wellFormed⟩

end Sys2Proof.Machine
end

