-- ==== Sys2Proof/Machine/Cycle.lean ====
section
/-! DEFINITION. The CPU cycle (rules R150 to R168 of spec/42_cpu_cycle.md) for any dispatch trie: the
message loop, the Tick, fetching and walking the trie one byte at a time, the operand bytes, the
advance of `PC`, the handler, and Stop. -/

namespace Sys2Proof.Machine

/-- Fetch `n` operand bytes from an address on, in ascending order (R156). -/
def fetchOperandBytes (n : Nat) (a : Word) (s : State) (k : List Byte → State → Result) : Result :=
  match n with
  | 0 => k [] s
  | n + 1 => fetchByte a s fun b s => fetchOperandBytes n (a + 1#16) s fun ops s => k (b :: ops) s

/-- Phase `Fetching`; the register file of this moment is what an abort records (R152, R168). -/
def beginFetch (s : State) : State :=
  { s with cpu := { s.cpu with phase := .fetching, snapshot := s.cpu.regs } }

/-- Before the handler runs `PC` is set past the whole instruction (R158), and the phase is
`Executing`. -/
def beginHandler (next : Word) (s : State) : State :=
  let t := s.put16 .pc next
  { t with cpu := { t.cpu with phase := .executing } }

/-- The entry a path has selected, for the instruction at `pc0` (R154, R156, R158). A sub-table takes
one more opcode byte; a terminal takes its operand bytes and is started; a marked entry ends the
decode with `PC` not advanced (R155, R263). -/
def Entry.run (pc0 : Word) (e : Entry) (path : List Byte) (s : State) : Result :=
  let here := pc0 + BitVec.ofNat 16 path.length
  match e with
  | .terminal nops handler => fetchOperandBytes nops here s fun ops s =>
      handler ops (beginHandler (pc0 + BitVec.ofNat 16 (path.length + nops)) s)
  | .subTable t => fetchByte here s fun b s => (t b).run pc0 (path ++ [b]) s
  | .notImplemented => notImplementedPath path s

/-- One whole instruction inside the handling of one Tick: decode from the root table (R152, R154,
R166). -/
def runInstruction (dt : DispatchTrie) (s : State) : Result :=
  (Entry.subTable dt.val).run (s.r16 .pc) [] (beginFetch s)

/-- The CPU handles a Tick (R151, R152). -/
def cpuTick (dt : DispatchTrie) (s : State) : Result :=
  if s.cpu.cyc ≠ 0 then .next { s with cpu := { s.cpu with cyc := s.cpu.cyc - 1 } }
  else runInstruction dt s

/-- The CPU handles Stop: it leaves its loop, everything else keeps its value (R162). -/
def cpuStop (s : State) : State := settle { s with cpu := { s.cpu with phase := .stopped } }

/-- Take a message off the queue. -/
def State.withQueue (s : State) (q : List ClockMsg) : State :=
  { s with cpu := { s.cpu with queue := q } }

/-- The CPU takes the next message of its queue (R150). With none left and the Clock gone it waits
for a peer that has terminated: `ChannelClosed` (R264). -/
def cpuStep (dt : DispatchTrie) (s : State) : Result :=
  match s.cpu.queue with
  | .tick :: rest => cpuTick dt (s.withQueue rest)
  | .stop :: rest => .next (cpuStop (s.withQueue rest))
  | [] => .next (raiseFatal (.channelClosed .clock) s)

/-- The CPU waits in `Idle` and a message is there, or none can come any more (R23, R264). -/
def State.cpuReady (s : State) : Bool :=
  decide (s.cpu.phase = .idle) && (!s.cpu.queue.isEmpty || decide (s.clock.phase = .dead))

end Sys2Proof.Machine
end

