-- ==== Sys2Proof/Machine/Outside.lean ====
section
/-! DEFINITION. What the outside does to the machine (rule R10): the boot sequence (rules R110 to
R114 of spec/40_bus.md, R291 of spec/70_reset_and_hazards.md), preparing memory through the Bus
while booting (decision D31), sending Stop (rules R137 to R139 of spec/41_clock.md), and an actor
that terminates unexpectedly (rule R264 of spec/60_exceptions.md). -/

namespace Sys2Proof.Machine

/-- Append a reply for the host (R81, R82). -/
def State.answerHost (s : State) (r : HostReply) : State := { s with hostOut := s.hostOut ++ [r] }

/-- Hand the result of a host's Bus call back to it (R81, R82, R111). That the host is told `Fatal` of a
`read` or `write` too, where R81 lists no such reply, is the model's choice (DESIGN CHOICE, log
entry 27). -/
def answerAccess {α : Type} (x : Access α) (reply : α → HostReply) : Result :=
  match x with
  | .ok v s => .next (s.answerHost (reply v))
  | .addressFault s => .next (s.answerHost .addressFault)
  | .fatal s => .next (s.answerHost .fatal)
  | .hang h => .fault (.deviceSilent h)

/-- The host calls the Bus or attaches a subsystem only while the machine is booting (R41, R114,
decision D31). -/
def whileBooting (s : State) (r : Result) : Result :=
  if s.status = .booting then r else .refused .hostCallAfterBoot

/-- A device was handed to the Bus already (R114). -/
def State.isRegistered (s : State) (h : Nat) : Bool :=
  match s.devices[h]? with
  | none => false
  | some d => d.registered

/-- The ranges a table holds for a device. -/
def rangesOf (h : Nat) (t : List MapEntry) : List Range :=
  (t.filter fun m => decide (m.dev = h)).map MapEntry.range

/-- What a device has declared to the Bus, by the tables: the answer it gave when it was registered,
whatever kind of device it is (R110). -/
def Bus.declared (b : Bus) (h : Nat) : RangesRet :=
  ⟨rangesOf h b.memRead, rangesOf h b.memWrite, rangesOf h b.ioRead, rangesOf h b.ioWrite⟩

/-- The conditions the model checks before launch (R42, R43, R114, R292). -/
def State.launchable (s : State) : Bool :=
  ((List.range s.devices.length).all fun h => (s.bus.declared h).wellFormed) &&
    decide (1 ≤ s.conf.tickQueueCap) && s.clock.subsystems.all fun p => decide (1 ≤ p.2)

/-- An actor terminates unexpectedly; its peers meet it as `ChannelClosed` (R264). A CPU that has taken
its Stop and a Clock that has terminated after its own have ended already, and their end stays a
regular one (log entry 15). -/
def terminatePeer (p : Peer) (s : State) : State :=
  match p with
  | .bus => { s with bus := { s.bus with alive := false } }
  | .clock => { s with clock := { s.clock with
      phase := if s.clock.phase = .terminated then .terminated else .dead } }
  | .cpu => { s with cpu := { s.cpu with
      phase := if s.cpu.phase = .stopped then .stopped else .dead } }
  | .device h => { s with devices := s.devices.modify h fun d => { d with alive := false } }

/-- Act on one input; the input has been taken off the list. A subsystem attached twice is accepted, as
two subsystems with one queue (R130 is silent; DESIGN CHOICE, log entry 28). The Clock's control
queue takes any number of `Stop` messages, so the host never waits (R27 and R137 give it no
capacity; DESIGN CHOICE, log entry 30). -/
def applyInput (x : Input) (s : State) : Result :=
  match x with
  | .register h =>
    whileBooting s (if s.isRegistered h then .refused .registeredTwice
      else answerAccess (busRegister h s) fun _ => .addDeviceOk)
  | .read sp a => whileBooting s (answerAccess (busRead sp a s) fun v => .byte v)
  | .write sp a v => whileBooting s (answerAccess (busWrite sp a v s) fun _ => .writeOk)
  | .attach sub divisor =>
    whileBooting s (if divisor = 0 then .refused .zeroDivisor
      else .next { s with clock := { s.clock with
        subsystems := s.clock.subsystems ++ [(sub, divisor)] } })
  | .start =>
    whileBooting s (if s.launchable then .next { s with status := .running }
      else .refused .illFormedConfiguration)
  | .stop _ => .next { s with clock := { s.clock with control := s.clock.control ++ [.stop] } }
  | .terminate p => .next (terminatePeer p s)

/-- The outside acts once, if it still has something to do. -/
def hostStep (s : State) : Result :=
  match s.inputs with
  | [] => .next s
  | x :: rest => applyInput x { s with inputs := rest }

/-- The next input can be acted on: `Stop` waits for the iteration it is sent in (R137, R294). One that
stands before the start is sent at once, whatever iteration it names, and waits in the control queue
for the first poll (R139 is silent; DESIGN CHOICE, log entry 29). -/
def State.hostReady (s : State) : Bool :=
  match s.inputs with
  | [] => false
  | .stop n :: _ => decide (s.status = .booting) || decide (n ≤ s.clock.ticks)
  | _ :: _ => true

end Sys2Proof.Machine
end

