-- ==== Sys2Proof/Machine/Sched.lean ====
section
/-! DEFINITION. The event loop: which agent moves next (rules R10, R78, R140; U6 of
spec/93_implementation_defined.md). -/

namespace Sys2Proof.Machine

/-- The agent is able to move. Only the outside moves before the Clock is started (R291). -/
def State.ready (s : State) (x : Agent) : Bool :=
  match x with
  | .host => s.hostReady
  | .cpu => decide (s.status = .running) && s.cpuReady
  | .device h => decide (s.status = .running) && s.deviceReady h
  | .clock => decide (s.status = .running) && s.clockReady

/-- One action of an agent. -/
def act (dt : DispatchTrie) (x : Agent) (s : State) : Result :=
  match x with
  | .host => hostStep s
  | .cpu => cpuStep dt s
  | .device h => deviceStep h s
  | .clock => clockStep s

/-- The order in which agents are asked when the schedule names none: each message is handled before
the Clock goes on, the CPU first (R140; log entry 6). -/
def State.agents (s : State) : List Agent :=
  .cpu :: ((List.range s.devices.length).map .device ++ [.host, .clock])

/-- The agent that moves when the schedule names none. -/
def State.pick (s : State) : Option Agent := s.agents.find? fun x => s.ready x

/-- A peer that has terminated unexpectedly while the rest of the machine waits for it: the Clock, or a
subsystem that is gone with its `Stop` not taken (R264). -/
def State.missingPeer (s : State) : Option Peer :=
  if s.clock.phase = .dead then some .clock
  else (s.clock.subsystems.find? fun p => s.closed p.1 && !s.exited p.1).map fun p => p.1.peer

/-- No agent can move. In a running machine a missing peer is `ChannelClosed` (R264, R266; log entry
15); with none missing, the Clock has ended, or it is blocked on a full queue nobody drains: the
machine is stuck (R140 c, U9). A machine the host has not started waits for it (R291; log entry
10). -/
def standStill (s : State) : Result :=
  if s.status = .running then
    match s.missingPeer with
    | some p => .next (raiseFatal (.channelClosed p) s)
    | none => if s.clock.phase = .terminated then .next s else .fault .stuck
  else .next s

/-- The machine moves: the agent the schedule names, or passes its turn when it has to wait; without
a schedule the first that can. -/
def moveOn (dt : DispatchTrie) (s : State) : Result :=
  match s.sched with
  | x :: rest =>
    if s.ready x then act dt x { s with sched := rest } else .next { s with sched := rest }
  | [] =>
    match s.pick with
    | some x => act dt x s
    | none => standStill s

/-- After `Stopped` only the Clock's grace period runs out (R138); nothing else changes (R31). -/
def windDown (s : State) : Result :=
  match s.clock.phase with
  | .stopOut [] => clockStep s
  | .grace _ => clockStep s
  | _ => .next s

/-- One step of the machine with a dispatch trie (R5). `Stopped` and `Aborted` are final (R31, R266). -/
def stepOf (dt : DispatchTrie) (s : State) : Result :=
  match s.status with
  | .aborted _ => .next s
  | .stopped => windDown s
  | .booting => moveOn dt s
  | .running => moveOn dt s

end Sys2Proof.Machine
end

