-- ==== Sys2Proof/Machine/View.lean ====
section
/-! DEFINITION. Looking at the machine from outside: the byte an address holds, what a store leaves in
the devices, the cost table, and placing a byte without a Bus transaction. No agent does this;
statements and `withFetchWord` do. -/

namespace Sys2Proof.Machine

/-- The byte a live device of known content holds at an offset (R51 to R55). -/
def Device.peek (d : Device) (sp : Space) (o : Word) : Option Byte :=
  if d.alive then
    match d.kind, sp with
    | .rom len cells, .mem => if o.toNat < len then some (cells.read o.toNat) else none
    | .ram len cells, .mem => if o.toNat < len then some (cells.read o.toNat) else none
    | .display u, .io => if o = 0#16 then some (u.border.zeroExtend 8) else none
    | _, _ => none
  else none

/-- The byte at an address of a space, by the read table (R57); none where a read faults. -/
def State.peek (s : State) (sp : Space) (a : Word) : Option Byte :=
  match lookup (s.bus.table sp .read) a with
  | none => none
  | some m =>
    match s.devices[m.dev]? with
    | none => none
    | some d => d.peek sp (m.offset a)

/-- What a data read of the address yields: the byte there, or `OPEN_BUS` where the read faults
(R163, R165). -/
def State.readValue (s : State) (sp : Space) (a : Word) : Byte := (s.peek sp a).getD s.conf.openBus

/-- A device after a write of known content has reached it (R51 to R55). -/
def Device.store (d : Device) (sp : Space) (o : Word) (v : Byte) : Device :=
  match d.kind, sp with
  | .ram len cells, .mem =>
    if o.toNat < len then { d with kind := .ram len (cells.write o.toNat v) } else d
  | .display u, .io => if o = 0#16 then { d with kind := .display (u.setBorder v) } else d
  | _, _ => d

/-- The machine after a one-byte write, by the write table; nothing changes where the write faults
(R57, R116, R164). -/
def State.afterStore (s : State) (sp : Space) (a : Word) (v : Byte) : State :=
  match lookup (s.bus.table sp .write) a with
  | none => s
  | some m => { s with devices := s.devices.modify m.dev fun d => d.store sp (m.offset a) v }

/-- The cost table (R300); a conditional transfer costs by whether it is taken. A marked entry has no
cost. -/
def costOf (i : Instr) (s : State) : Nat :=
  match i with
  | .nop | .exAfAf | .exx | .exDeHl | .ldRR _ _ | .incR _ | .decR _ | .jpHl => 4
  | .addAR _ | .adcAR _ | .subR _ | .sbcAR _ | .andR _ | .xorR _ | .orR _ | .cpR _ => 4
  | .addAIndHl | .adcAIndHl | .subIndHl | .sbcAIndHl | .andIndHl | .xorIndHl | .orIndHl
  | .cpIndHl => 7
  | .addAN _ | .adcAN _ | .subN _ | .sbcAN _ | .andN _ | .xorN _ | .orN _ | .cpN _ => 7
  | .ldRN _ _ | .ldRIndHl _ | .ldIndHlR _ | .ldAIndBc | .ldAIndDe | .ldIndBcA | .ldIndDeA => 7
  | .ldSpHl | .incSs _ | .decSs _ => 6
  | .ldIndHlN _ | .ldDdNn _ _ | .popQq _ | .ret | .jpNn _ | .jpCcNn _ _ => 10
  | .pushQq _ | .incIndHl | .decIndHl | .addHlSs _ | .rstP _ | .outNA _ | .inAN _ => 11
  | .jr _ | .outCR _ | .inRC _ => 12
  | .ldAIndNn _ | .ldIndNnA _ => 13
  | .ldIxNn _ | .ldIyNn _ => 14
  | .ldHlIndNn _ | .ldIndNnHl _ => 16
  | .callNn _ => 17
  | .ldRIndIx _ _ | .ldRIndIy _ _ | .ldIndIxR _ _ | .ldIndIyR _ _ => 19
  | .jrCc cc _ => if s.meets cc.cond then 12 else 7
  | .djnz _ => if s.r8 .b = 1#8 then 8 else 13
  | .callCcNn cc _ => if s.meets cc then 17 else 10
  | .retCc cc => if s.meets cc then 11 else 5
  | .niRoot _ | .niDd _ | .niFd _ | .niEd _ => 0

/-- Place a byte in the storage of a ROM or RAM device. -/
def Device.poke (d : Device) (o : Word) (v : Byte) : Device :=
  match d.kind with
  | .rom len cells =>
    if o.toNat < len then { d with kind := .rom len (cells.write o.toNat v) } else d
  | .ram len cells =>
    if o.toNat < len then { d with kind := .ram len (cells.write o.toNat v) } else d
  | .display _ => d
  | .scripted _ => d

/-- Place a byte where a memory read of the address finds it. -/
def State.poke (s : State) (a : Word) (v : Byte) : State :=
  match lookup s.bus.memRead a with
  | none => s
  | some m => { s with devices := s.devices.modify m.dev fun d => d.poke (m.offset a) v }

/-- Place bytes at consecutive addresses. -/
def State.pokeAll (s : State) (a : Word) : List Byte → State
  | [] => s
  | v :: rest => State.pokeAll (s.poke a v) (a + 1#16) rest

/-- Consecutive addresses hold these bytes. -/
def State.holds (s : State) (a : Word) : List Byte → Bool
  | [] => true
  | v :: rest => decide (s.peek .mem a = some v) && State.holds s (a + 1#16) rest

end Sys2Proof.Machine
end

