-- ==== Sys2Proof/Machine/Image.lean ====
section
/-! DEFINITION. Loading a program from outside (`ROM_IMAGE` and boot are the host's, rules R4, R291,
R292 of the spec): the pieces of `withFetchWord`. -/

namespace Sys2Proof.Machine

/-- The tables the Bus has after every device of a list has been registered in order (R110). -/
def busOf (ds : List Device) : Bus :=
  ds.zipIdx.foldl (fun b p => b.add p.2 p.1.decl) Bus.reset

/-- The list of devices, all registered. -/
def registeredAll (ds : List Device) : List Device := ds.map fun d => { d with registered := true }

/-- The subsystems of the reference machine (R5, R130). -/
def referenceSubsystems : List (SubId × Nat) :=
  [(.cpu, Config.cpuDiv), (.device 3, Config.videoDiv)]

/-- An input that is not part of the boot sequence. -/
def Input.afterBoot : Input → Bool
  | .stop _ => true
  | .terminate _ => true
  | _ => false

/-- What the boot sequence leaves: all devices registered, the subsystems attached, running (R291). -/
def State.booted (s : State) : State :=
  { s with
    status := .running
    bus := busOf s.devices
    devices := registeredAll s.devices
    clock := { s.clock with
      subsystems := if s.clock.subsystems.isEmpty then referenceSubsystems
        else s.clock.subsystems }
    inputs := s.inputs.filter Input.afterBoot }

/-- The reference devices and their tables in place of the machine's own. -/
def State.onReference (s : State) : State :=
  { s with bus := busOf referenceDevices, devices := registeredAll referenceDevices }

/-- The bytes in memory at `PC`: in the machine's own devices where they hold program bytes there,
else in the reference devices. -/
def State.withProgram (s : State) (bytes : List Byte) : State :=
  let t := s.pokeAll (s.r16 .pc) bytes
  if t.bus.alive && t.holds (s.r16 .pc) bytes then t
  else s.onReference.pokeAll (s.r16 .pc) bytes

/-- The next message of the CPU is a Tick. -/
def tickFirst (q : List ClockMsg) : List ClockMsg :=
  match q with
  | .tick :: rest => .tick :: rest
  | q => .tick :: q

/-- The CPU is the next to move, waits in `Idle`, owes no Tick, and has one in its queue (R152). -/
def State.aboutToFetch (s : State) : State :=
  { s with
    status := .running
    cpu := { s.cpu with cyc := 0, phase := .idle, queue := tickFirst s.cpu.queue }
    sched := .cpu :: s.sched }

end Sys2Proof.Machine
end

