-- ==== Sys2Proof/Machine/Step.lean ====
section
/-! DEFINITION. One step of the machine, and placing an instruction where the next step fetches it. -/

namespace Sys2Proof.Machine

/-- One step of the machine with the reference instruction set: one action of the agent whose turn it
is (log entry 17). -/
def step : State → Host.Outcome State Fault Refusal := stepOf dtReference

/-- `s` with the instruction of a table word stored at `PC` and the CPU about to execute it. A machine
that is not running is taken through its boot first (log entry 7). -/
def State.withFetchWord (s : State) (nbits w : Nat) : State :=
  let s := if s.status = .running then s else s.booted
  (s.withProgram (tableBytes nbits w)).aboutToFetch

end Sys2Proof.Machine
end

