-- ==== Sys2Proof/Safety.lean ====
section
/-! DEFINITION. The terms the statements use: the reference machine, machines whose devices always
answer, what a completed instruction leaves alone, and the invariants. -/

namespace Sys2Proof.Machine

/-! ### Machines -/

/-- The four tables of the reference machine with the border at `port` (R57, vector B1). -/
def Bus.reference (port : Word) : Bus where
  memRead := [⟨⟨0x0000#16, 0x4000⟩, 0⟩, ⟨⟨0x4000#16, 0x8000⟩, 1⟩, ⟨⟨0x8000#16, 0x10000⟩, 2⟩]
  memWrite := [⟨⟨0x4000#16, 0x8000⟩, 1⟩, ⟨⟨0x8000#16, 0x10000⟩, 2⟩]
  ioRead := [⟨⟨port, port.toNat + 1⟩, 3⟩]
  ioWrite := [⟨⟨port, port.toNat + 1⟩, 3⟩]
  alive := true

def Device.isRom (d : Device) (n : Nat) : Bool :=
  d.alive && match d.kind with
    | .rom len _ => decide (len = n)
    | _ => false

def Device.isRam (d : Device) (n : Nat) : Bool :=
  d.alive && match d.kind with
    | .ram len _ => decide (len = n)
    | _ => false

def Device.isDisplay (d : Device) : Bool :=
  d.alive && match d.kind with
    | .display _ => true
    | _ => false

def Device.isScripted (d : Device) : Bool :=
  match d.kind with
  | .scripted _ => true
  | _ => false

/-- The reference machine after boot: its tables, and ROM, BANK, RAM, DISPLAY with any contents (R57,
R278). -/
def State.isReference (s : State) (port : Word) : Bool :=
  decide (s.bus = Bus.reference port) &&
    match s.devices with
    | [rom, bank, ram, display] =>
      rom.isRom 0x4000 && bank.isRam 0x4000 && ram.isRam 0x8000 && display.isDisplay
    | _ => false

/-- Every Bus transaction gets a reply of the right kind: the Bus and the devices live, the tables
name existing devices, and no device is scripted. The address map is free, holes and overlaps
included. The reference machine is one such machine. -/
def State.settled (s : State) : Bool :=
  s.bus.alive && (s.devices.all fun d => d.alive && !d.isScripted) &&
    [s.bus.memRead, s.bus.memWrite, s.bus.ioRead, s.bus.ioWrite].all fun t =>
      t.all fun m => decide (m.dev < s.devices.length)

/-- The address can be written in the reference map (R57, R58). -/
def writable (a : Word) : Bool := decide (0x4000 ≤ a.toNat)

/-- What memory holds after one-byte stores in the reference map, the first listed being the last
performed; a store below 0x4000 is dropped (R57, R164). -/
def memoryAfter (s : State) (stores : List (Word × Byte)) (b : Word) : Option Byte :=
  match stores with
  | [] => s.peek .mem b
  | (a, v) :: rest => if b = a ∧ writable a then some v else memoryAfter s rest b

/-! ### Storage -/

/-- A device's storage is in canonical form and inside its length. -/
def Device.storageWf (d : Device) : Bool :=
  match d.kind with
  | .rom len cells => cells.wf && cells.within len
  | .ram len cells => cells.wf && cells.within len
  | .display _ => true
  | .scripted _ => true

/-- Every device's storage is. -/
def State.storageWf (s : State) : Bool := s.devices.all Device.storageWf

/-! ### A completed instruction -/

/-- The instruction has run to its end: it cost `cost`, and it changed nothing but registers and
devices (R161, R166; R21, R33). -/
structure Completed (cost : Nat) (s t : State) : Prop where
  status : t.status = s.status
  conf : t.conf = s.conf
  bus : t.bus = s.bus
  clock : t.clock = s.clock
  inputs : t.inputs = s.inputs
  hostOut : t.hostOut = s.hostOut
  sched : t.sched = s.sched
  queue : t.cpu.queue = s.cpu.queue
  snapshot : t.cpu.snapshot = s.cpu.snapshot
  phase : t.cpu.phase = .idle
  cyc : t.cpu.cyc + 1 = cost

/-- The stored registers outside the two lists are unchanged: the sixteen 8-bit ones, and `IX IY SP
PC`. -/
structure RegsKept (changed8 : List Ent8) (changed16 : List Ent16) (s t : State) : Prop where
  bytes : ∀ q : Ent8, q ∉ changed8 → t.r8 q = s.r8 q
  words : ∀ q ∈ [Ent16.ix, Ent16.iy, Ent16.sp, Ent16.pc], q ∉ changed16 → t.r16 q = s.r16 q

/-- The two stored halves of a pair, none for a stored 16-bit register (R13). -/
def Ent16.halves : Ent16 → List Ent8
  | .af => [.a, .f]
  | .bc => [.b, .c]
  | .de => [.d, .e]
  | .hl => [.h, .l]
  | .af' => [.a', .f']
  | .bc' => [.b', .c']
  | .de' => [.d', .e']
  | .hl' => [.h', .l']
  | .ix | .iy | .sp | .pc => []

/-! ### Bus transactions of a handler -/

/-- One data transaction a handler issues (R71, R163 to R165). -/
inductive Transaction
  | read (sp : Space) (a : Word)
  | write (sp : Space) (a : Word) (v : Byte)
  deriving DecidableEq, Repr

/-- What a handler does on the Bus: a list of transactions in order, each chosen from the bytes read
before it. -/
abbrev Program := List (List Byte → Transaction)

/-- Reads at these addresses, in order. -/
def readsAt (sp : Space) (as : List Word) : Program := as.map fun a _ => .read sp a

/-- Writes of these bytes, in order. -/
def writesAt (sp : Space) (ps : List (Word × Byte)) : Program := ps.map fun p _ => .write sp p.1 p.2

/-- Perform the transactions one after another: a faulting read yields `OPEN_BUS`, a faulting write
is dropped (R163 to R165, R267), and the first that cannot be completed ends the list (R269). -/
def perform : Program → List Byte → State → Access (List Byte)
  | [], got, s => .ok got s
  | x :: rest, got, s =>
    match x got with
    | .read sp a =>
      match busRead sp a s with
      | .ok b s' => perform rest (got ++ [b]) s'
      | .addressFault s' => perform rest (got ++ [s'.conf.openBus]) s'
      | .fatal s' => .fatal s'
      | .hang h => .hang h
    | .write sp a v =>
      match busWrite sp a v s with
      | .ok _ s' => perform rest got s'
      | .addressFault s' => perform rest got s'
      | .fatal s' => .fatal s'
      | .hang h => .hang h

/-- On every machine, scripted devices included, the instruction issues exactly these transactions in
this order: the devices are as they leave them; a fatal one ends the instruction with the registers
of the start of the step recorded (R168); a device that never replies hangs it (R118). -/
def Issues (i : Instr) (p : State → Program) : Prop :=
  ∀ s : State,
    match perform (p s) [] s with
    | .ok _ u => ∃ t : State, exec i s = .next t ∧ t.devices = u.devices ∧ t.status = s.status
    | .addressFault _ => False
    | .fatal u => exec i s = .next (u.withRegs s.cpu.snapshot)
    | .hang h => exec i s = .fault (.deviceSilent h)

/-! ### What an instruction does from start to end -/

/-- An instruction with no data access has this encoding, runs to its end from every state, even one
whose Bus is gone, and leaves every device alone. -/
def RunsOnRegisters (i : Instr) (code : List Byte) (cost : State → Nat) (changed8 : List Ent8)
    (changed16 : List Ent16) (result : State → State → Prop) : Prop :=
  encode i = code ∧ ∀ s : State, ∃ t : State, exec i s = .next t ∧ Completed (cost s) s t ∧
    t.devices = s.devices ∧ RegsKept changed8 changed16 s t ∧ result s t

/-- An instruction that only reads memory or ports has this encoding, issues these reads, runs to its
end wherever devices answer or nothing is read, and leaves every device alone. -/
def RunsReading (i : Instr) (code : List Byte) (cost : State → Nat) (sp : Space)
    (reads : State → List Word) (changed8 : List Ent8) (changed16 : List Ent16)
    (result : State → State → Prop) : Prop :=
  encode i = code ∧ (Issues i fun s => readsAt sp (reads s)) ∧
    ∀ s : State, s.settled ∨ reads s = [] → ∃ t : State, exec i s = .next t ∧
      Completed (cost s) s t ∧ t.devices = s.devices ∧ RegsKept changed8 changed16 s t ∧ result s t

/-- An instruction that stores to memory has this encoding, issues these transactions, and runs to its
end wherever devices answer or none are issued. The devices are what its stores leave, in the order performed. In the
reference map with storage in canonical form, every byte of memory outside the stored ones, every
byte under a dropped store, and every port, reads as before, and a stored byte reads as the value
stored. -/
def RunsStoring (i : Instr) (code : List Byte) (cost : State → Nat) (transactions : State → Program)
    (stores : State → List (Word × Byte)) (changed8 : List Ent8) (changed16 : List Ent16)
    (result : State → State → Prop) : Prop :=
  encode i = code ∧ Issues i transactions ∧
    ∀ s : State, s.settled ∨ transactions s = [] → ∃ t : State, exec i s = .next t ∧
      Completed (cost s) s t ∧ t.devices = ((stores s).foldl (fun u p => u.afterStore .mem p.1 p.2) s).devices ∧
      (∀ port, s.isReference port → s.storageWf →
        (∀ b, t.peek .mem b = memoryAfter s (stores s).reverse b) ∧
          ∀ b, t.peek .io b = s.peek .io b) ∧
      RegsKept changed8 changed16 s t ∧ result s t

/-- What the devices have handed to the video layer, oldest first (R30). -/
def State.videoOut (s : State) : List VideoMsg :=
  s.devices.flatMap fun d => match d.kind with
    | .display u => u.out
    | _ => []

/-- An instruction that writes a port has this encoding, issues that one write, and runs to its end
wherever devices answer. The devices are what the write leaves. In the reference map all of memory
reads as before, and of the ports only the border port, which reads as the low three bits written
to it. When it writes the border and changes it, the video layer is given the palette's colour for
those bits (R253); when it writes another port, nothing. -/
def RunsOutput (i : Instr) (code : List Byte) (cost : Nat) (port : State → Word)
    (value : State → Byte) : Prop :=
  encode i = code ∧ (Issues i fun s => writesAt .io [(port s, value s)]) ∧
    ∀ s : State, s.settled → ∃ t : State, exec i s = .next t ∧ Completed cost s t ∧
      t.devices = (s.afterStore .io (port s) (value s)).devices ∧
      (∀ borderPort, s.isReference borderPort →
        (∀ b, t.peek .mem b = s.peek .mem b) ∧
        (∀ b, t.peek .io b =
          if b = borderPort ∧ port s = borderPort then some (value s &&& 0x07#8)
          else s.peek .io b) ∧
        (port s ≠ borderPort → t.videoOut = s.videoOut) ∧
        (port s = borderPort → s.peek .io borderPort ≠ some (value s &&& 0x07#8) →
          t.videoOut = s.videoOut ++ [.border (Config.palette ((value s).extractLsb' 0 3))])) ∧
      RegsKept [] [] s t

/-! ### The accumulator operations by operand form -/

/-- The three operand forms (R228). -/
inductive AluSource
  | reg (r : Reg8)
  | indHl
  | immediate (n : Byte)
  deriving DecidableEq, Repr

/-- The operand (R228). -/
def AluSource.value (x : AluSource) (s : State) : Byte :=
  match x with
  | .reg r => s.reg r
  | .indHl => s.readValue .mem (s.r16 .hl)
  | .immediate n => n

/-- The cost of the form (R228). -/
def AluSource.cost : AluSource → Nat
  | .reg _ => 4
  | .indHl => 7
  | .immediate _ => 7

/-- The memory reads of the form (R228). -/
def AluSource.reads (x : AluSource) (s : State) : List Word :=
  match x with
  | .reg _ => []
  | .indHl => [s.r16 .hl]
  | .immediate _ => []

/-- The encoding of operation `ooo` in the form (R228). -/
def AluSource.code (x : AluSource) (ooo : BitVec 3) : List Byte :=
  match x with
  | .reg r => [0b10#2 ++ ooo ++ r.field]
  | .indHl => [0b10#2 ++ ooo ++ 0b110#3]
  | .immediate n => [0b11#2 ++ ooo ++ 0b110#3, n]

def AluSource.add : AluSource → Instr
  | .reg r => .addAR r | .indHl => .addAIndHl | .immediate n => .addAN n
def AluSource.adc : AluSource → Instr
  | .reg r => .adcAR r | .indHl => .adcAIndHl | .immediate n => .adcAN n
def AluSource.sub : AluSource → Instr
  | .reg r => .subR r | .indHl => .subIndHl | .immediate n => .subN n
def AluSource.sbc : AluSource → Instr
  | .reg r => .sbcAR r | .indHl => .sbcAIndHl | .immediate n => .sbcAN n
def AluSource.and : AluSource → Instr
  | .reg r => .andR r | .indHl => .andIndHl | .immediate n => .andN n
def AluSource.xor : AluSource → Instr
  | .reg r => .xorR r | .indHl => .xorIndHl | .immediate n => .xorN n
def AluSource.or : AluSource → Instr
  | .reg r => .orR r | .indHl => .orIndHl | .immediate n => .orN n
def AluSource.cp : AluSource → Instr
  | .reg r => .cpR r | .indHl => .cpIndHl | .immediate n => .cpN n

/-- The flags `S Z Y X` copied from a result (R210). -/
def CopiesResult (f res : Byte) : Prop :=
  flagS f = res.getLsbD 7 ∧ flagZ f = decide (res = 0#8) ∧ flagY f = res.getLsbD 5 ∧
    flagX f = res.getLsbD 3

/-- The number of one bits is even (R211). -/
def evenOnes (v : Byte) : Bool := decide (((List.range 8).countP fun k => v.getLsbD k) % 2 = 0)

/-! ### Shapes several instructions share -/

/-- One byte stored and nothing else: the shape the byte stores share. -/
def storesOneByte (i : Instr) (code : List Byte) (cost : Nat) (address : State → Word)
    (value : State → Byte) : Prop :=
  RunsStoring i code (fun _ => cost) (fun s => writesAt .mem [(address s, value s)])
    (fun s => [(address s, value s)]) [] [] fun _ _ => True

/-- The flags an increment leaves: all but `C`, from the old value and the result (R220). -/
def incrementFlags (old f f' : Byte) : Prop :=
  CopiesResult f' (BitVec.ofNat 8 (old.toNat + 1)) ∧ flagH f' = decide (old.toNat % 16 = 15) ∧
    flagPV f' = decide (old.toNat = 127) ∧ flagN f' = false ∧ flagC f' = flagC f

/-- The flags a decrement leaves (R222). -/
def decrementFlags (old f f' : Byte) : Prop :=
  CopiesResult f' (BitVec.ofNat 8 (old.toNat + 255)) ∧ flagH f' = decide (old.toNat % 16 = 0) ∧
    flagPV f' = decide (old.toNat = 128) ∧ flagN f' = true ∧ flagC f' = flagC f

/-- `PC`, on entry the address of the next instruction, plus a signed displacement modulo 2^16 (R235). -/
def displaced (s : State) (e : Byte) : Word := BitVec.ofInt 16 ((s.r16 .pc).toNat + e.toInt)

/-- The two bytes a call pushes: the address of the next instruction, high byte first. -/
def returnAddressStores (s : State) : List (Word × Byte) :=
  [(s.r16 .sp - 1#16, highByte (s.r16 .pc)), (s.r16 .sp - 2#16, lowByte (s.r16 .pc))]

end Sys2Proof.Machine

namespace Sys2Proof

/-! ### Which instruction reaches which state -/

/-- The instructions that write a flag (R210). -/
def Instr.writesFlags : Instr → Bool
  | .addAR _ | .addAIndHl | .addAN _ | .adcAR _ | .adcAIndHl | .adcAN _ => true
  | .subR _ | .subIndHl | .subN _ | .sbcAR _ | .sbcAIndHl | .sbcAN _ => true
  | .andR _ | .andIndHl | .andN _ | .xorR _ | .xorIndHl | .xorN _ => true
  | .orR _ | .orIndHl | .orN _ | .cpR _ | .cpIndHl | .cpN _ => true
  | .incR _ | .incIndHl | .decR _ | .decIndHl | .addHlSs _ | .inRC _ | .exAfAf => true
  | .popQq .af => true
  | _ => false

/-- The exchanges that reach the shadow bank (R12, R180 f). -/
def Instr.exchangesBanks : Instr → Bool
  | .exAfAf | .exx => true
  | _ => false

/-- The control transfers, which alone write `PC` (R180 f). -/
def Instr.transfersControl : Instr → Bool
  | .jpNn _ | .jpCcNn _ _ | .jpHl | .jr _ | .jrCc _ _ | .djnz _ => true
  | .callNn _ | .callCcNn _ _ | .ret | .retCc _ | .rstP _ => true
  | _ => false

/-- The instructions that write `SP`: the stack, the calls and returns, and the pair forms that name
it (R16, R180 f). -/
def Instr.writesSp : Instr → Bool
  | .pushQq _ | .popQq _ | .callNn _ | .callCcNn _ _ | .ret | .retCc _ | .rstP _ => true
  | .ldSpHl | .ldDdNn .sp _ | .incSs .sp | .decSs .sp => true
  | _ => false

end Sys2Proof

namespace Sys2Proof.Machine

/-! ### What the statements look at in a device -/

/-- The contents of a ROM device (R28). -/
def Device.romImage (d : Device) : Option (Nat × Memory) :=
  match d.kind with
  | .rom len cells => some (len, cells)
  | _ => none

/-- The render position of a DISPLAY (R30). -/
def Device.renderPos (d : Device) : Option Nat :=
  match d.kind with
  | .display u => some u.renderPos
  | _ => none

/-- A device without what only the video layer sees (R56). -/
def Device.withoutVideo (d : Device) : Device :=
  match d.kind with
  | .display u => { d with kind := .display { u with renderPos := 0, seen := 0, out := [] } }
  | _ => d

/-- Two machines that differ at most in what only the video layer sees (R56). -/
def State.sameButVideo (s t : State) : Prop :=
  { s with devices := s.devices.map Device.withoutVideo } =
    { t with devices := t.devices.map Device.withoutVideo }

/-- Two outcomes that differ at most so. -/
def sameResultButVideo : Result → Result → Prop
  | .next s, .next t => s.sameButVideo t
  | .fault f, .fault g => f = g
  | .refused f, .refused g => f = g
  | _, _ => False

/-- What a device is apart from what it holds (R32, R46): none of it is within reach of a request. -/
def Device.frame (d : Device) : RangesRet × Bool × Bool × List ClockMsg × Bool :=
  (d.decl, d.alive, d.registered, d.inbox, d.exited)

/-- The reply a read of a space expects (R115). -/
def readReply : Space → Byte → Reply
  | .mem, b => .memReadOk b
  | .io, b => .ioReadOk b

/-- The reply a write to a space expects (R116). -/
def writeReply : Space → Reply
  | .mem => .memWriteOk
  | .io => .ioWriteOk

/-- No queue holds more messages than `TICK_QUEUE_CAP` (R24, R140). -/
def State.queuesBounded (s : State) : Prop :=
  ∀ sub : SubId, (s.queueOf sub).length ≤ s.conf.tickQueueCap

/-! ### Whose turn it is -/

/-- The CPU is the agent that moves next, a Tick is first in its queue, and `sched'` is the schedule
that is left (R150). -/
def State.cpuTakesTick (s : State) (rest : List ClockMsg) (sched' : List Agent) : Prop :=
  s.status = .running ∧ s.cpu.phase = .idle ∧ s.cpu.queue = .tick :: rest ∧
    (s.sched = .cpu :: sched' ∨ s.sched = [] ∧ sched' = [])

/-- The state once that Tick has been taken off the queue. -/
def State.tickTaken (s : State) (rest : List ClockMsg) (sched' : List Agent) : State :=
  { s with sched := sched', cpu := { s.cpu with queue := rest } }

/-- The state in which the fetch for that Tick starts: phase `Fetching`, the registers remembered for
an abort (R152, R168). -/
def State.fetchStarts (s : State) (rest : List ClockMsg) (sched' : List Agent) : State :=
  let u := s.tickTaken rest sched'
  { u with cpu := { u.cpu with snapshot := s.cpu.regs, phase := .fetching } }

/-- The state in which the handler of an instruction of `n` bytes starts: `PC` past the instruction,
phase `Executing` (R158, R166). A marked entry has no handler (R154). -/
def State.handlerStarts (u : State) (i : Instr) (n : Nat) : State :=
  if i.isNotImplemented then u
  else { u with cpu := { u.cpu with
    regs := { u.cpu.regs with pc := u.cpu.regs.pc + BitVec.ofNat 16 n }
    phase := .executing } }

/-- The machine is running in the reference configuration and nothing outside is about to kill an
agent. -/
def State.soundReference (s : State) (port : Word) : Bool :=
  s.isReference port && decide (s.status ≠ .booting) &&
    s.inputs.all fun x => match x with
      | .terminate _ => false
      | _ => true

/-- Reading these bytes from consecutive addresses, one Bus transaction each, takes `s` to `u`. -/
def readsInOrder : Word → List Byte → State → State → Prop
  | _, [], s, u => u = s
  | a, b :: rest, s, u => ∃ s', busRead .mem a s = .ok b s' ∧ readsInOrder (a + 1#16) rest s' u

/-! ### Launch -/

/-- A machine right after construction: `State.reset` with any launch values in place of the model's
own (R35, R294). -/
def launch (regs : RegFile) (rom bank ram : Memory) (border : BitVec 3) (port : Word)
    (cpuDiv videoDiv : Nat) (conf : Conf) : State :=
  { State.reset with
    conf := conf
    cpu := { Cpu.reset with regs := { regs with pc := 0x0000#16 } }
    devices := [.constructed romDecl (.rom 0x4000 rom), .constructed bankDecl (.ram 0x4000 bank),
      .constructed ramDecl (.ram 0x8000 ram),
      .constructed (displayDecl port) (.display { Display.reset with border := border })]
    inputs := [.register 0, .register 1, .register 2, .register 3, .attach .cpu cpuDiv,
      .attach (.device 3) videoDiv, .start] }

/-- A number of actions in a row, as long as each answers a next state. -/
def runFor (f : State → Result) : Nat → State → Result
  | 0, s => .next s
  | n + 1, s =>
    match f s with
    | .next t => runFor f n t
    | .fault r => .fault r
    | .refused r => .refused r

end Sys2Proof.Machine
end

