-- ==== Sys2Proof/Certificates/Slice0/Obligations.lean ====
section
/-! DEFINITION. The statements for the provers, each a rule of the spec or a consequence of several. A
statement that rests on a choice of the model says so and names the log entry. -/

open Sys2Proof Sys2Proof.Machine

/-! ### Encoding -/

/-- The operand field codes (R93 to R95): each code names its register, pair or condition, code 6 of a
register field names none, and `JR cc` encodes a condition as its number plus 4. -/
def Obligations.FieldCodesNameRegistersPairsConditions : Prop :=
  ((List.finRange 8).map fun k => (regOfField (BitVec.ofFin k)).map Reg8.ent) =
      [some .b, some .c, some .d, some .e, some .h, some .l, none, some .a] ∧
    ((List.finRange 4).map fun k => (pairSpOfField (BitVec.ofFin k)).ent) = [.bc, .de, .hl, .sp] ∧
    ((List.finRange 4).map fun k => (pairAfOfField (BitVec.ofFin k)).ent) = [.bc, .de, .hl, .af] ∧
    ((List.finRange 8).map fun k => condOfField (BitVec.ofFin k)) =
      [.nz, .z, .nc, .c, .po, .pe, .p, .m] ∧
    (∀ r : Reg8, regOfField r.field = some r) ∧ (∀ p : PairSp, pairSpOfField p.field = p) ∧
    (∀ p : PairAf, pairAfOfField p.field = p) ∧ (∀ x : Cond, condOfField x.field = x) ∧
    ∀ x : JrCond, x.field = x.cond.field + 4#3

/-- Words written out from the spec's encodings, one or more for each family and format, decode to the
instructions they stand for. -/
def Obligations.SpecWordsDecode : Prop :=
  decode [0b00000000#8] = .ok (.nop, []) ∧
    decode [0b01111000#8] = .ok (.ldRR .a .b, []) ∧
    decode [0b00111110#8, 0x02#8] = .ok (.ldRN .a 0x02#8, []) ∧
    decode [0b00100001#8, 0x00#8, 0x80#8] = .ok (.ldDdNn .hl 0x8000#16, []) ∧
    decode [0b11010001#8] = .ok (.popQq .de, []) ∧
    decode [0xDD#8, 0b01111110#8, 0x01#8] = .ok (.ldRIndIx .a 0x01#8, []) ∧
    decode [0xFD#8, 0b01110000#8, 0xF0#8] = .ok (.ldIndIyR 0xF0#8 .b, []) ∧
    decode [0xDD#8, 0b00100001#8, 0x34#8, 0x12#8] = .ok (.ldIxNn 0x1234#16, []) ∧
    decode [0b10000000#8] = .ok (.addAR .b, []) ∧
    decode [0b10111110#8] = .ok (.cpIndHl, []) ∧
    decode [0b11100110#8, 0x3C#8] = .ok (.andN 0x3C#8, []) ∧
    decode [0b00001011#8] = .ok (.decSs .bc, []) ∧
    decode [0b00111000#8, 0xFE#8] = .ok (.jrCc .c 0xFE#8, []) ∧
    decode [0b11011100#8, 0x00#8, 0x80#8] = .ok (.callCcNn .c 0x8000#16, []) ∧
    decode [0b11111111#8] = .ok (.rstP 7#3, []) ∧
    decode [0b11010011#8, 0xFE#8] = .ok (.outNA 0xFE#8, []) ∧
    decode [0xED#8, 0b01010000#8] = .ok (.inRC .d, []) ∧
    decode [0b01110110#8] = .ok (.niRoot 0x76#8, []) ∧
    decode [0xED#8, 0b01110000#8] = .ok (.niEd 0x70#8, [])

/-- Decoding the encoding of a well-formed instruction gives it back, with every operand, and leaves
the bytes that follow. -/
def Obligations.DecodeOfEncodeIsIdentity : Prop :=
  ∀ (i : Instr) (rest : List Byte), i.wellFormed → decode (encode i ++ rest) = .ok (i, rest)

/-- Whatever the decoder answers is a well-formed instruction, and the bytes it has taken are that
instruction's encoding: no word has two meanings. -/
def Obligations.DecodedBytesAreTheEncoding : Prop :=
  ∀ (bytes rest : List Byte) (i : Instr), decode bytes = .ok (i, rest) →
    i.wellFormed ∧ bytes = encode i ++ rest

/-- Every byte string of four bytes or more begins with an instruction: every entry of every table is a
terminal or marked, and an instruction is one to four bytes long (R86, R90). -/
def Obligations.EveryOpcodePathEndsAtAnEntry : Prop :=
  ∀ bytes : List Byte, 4 ≤ bytes.length →
    ∃ i rest, decode bytes = .ok (i, rest) ∧ 1 ≤ (encode i).length ∧ (encode i).length ≤ 4

/-! ### NOP and loads -/

/-- `NOP`, `LD r,r'` and `LD r,n` (R170, R181, R182). -/
def Obligations.NopAndRegisterLoads : Prop :=
  (RunsOnRegisters .nop [0x00#8] (fun _ => 4) [] [] fun s t => t.cpu.regs = s.cpu.regs) ∧
    (∀ rd rs : Reg8, RunsOnRegisters (.ldRR rd rs) [opByte 0b01#2 rd.field rs.field] (fun _ => 4)
      [rd.ent] [] fun s t => t.r8 rd.ent = s.r8 rs.ent) ∧
    ∀ (r : Reg8) (n : Byte), RunsOnRegisters (.ldRN r n) [opByte 0b00#2 r.field 0b110#3, n]
      (fun _ => 7) [r.ent] [] fun _ t => t.r8 r.ent = n

/-- The loads of one byte from memory (R183, R186, R187, R190, R200): where they read, what they load,
and what they leave. -/
def Obligations.LoadByteFromMemory : Prop :=
  (∀ r : Reg8, RunsReading (.ldRIndHl r) [opByte 0b01#2 r.field 0b110#3] (fun _ => 7) .mem
      (fun s => [s.r16 .hl]) [r.ent] [] fun s t => t.r8 r.ent = s.readValue .mem (s.r16 .hl)) ∧
    RunsReading .ldAIndBc [0x0A#8] (fun _ => 7) .mem (fun s => [s.r16 .bc]) [.a] []
      (fun s t => t.r8 .a = s.readValue .mem (s.r16 .bc)) ∧
    RunsReading .ldAIndDe [0x1A#8] (fun _ => 7) .mem (fun s => [s.r16 .de]) [.a] []
      (fun s t => t.r8 .a = s.readValue .mem (s.r16 .de)) ∧
    (∀ nn : Word, RunsReading (.ldAIndNn nn) [0x3A#8, lowByte nn, highByte nn] (fun _ => 13) .mem
      (fun _ => [nn]) [.a] [] fun s t => t.r8 .a = s.readValue .mem nn) ∧
    (∀ (r : Reg8) (d : Byte), RunsReading (.ldRIndIx r d)
      [0xDD#8, opByte 0b01#2 r.field 0b110#3, d] (fun _ => 19) .mem
      (fun s => [BitVec.ofInt 16 ((s.r16 .ix).toNat + d.toInt)]) [r.ent] []
      fun s t => t.r8 r.ent = s.readValue .mem (BitVec.ofInt 16 ((s.r16 .ix).toNat + d.toInt))) ∧
    ∀ (r : Reg8) (d : Byte), RunsReading (.ldRIndIy r d)
      [0xFD#8, opByte 0b01#2 r.field 0b110#3, d] (fun _ => 19) .mem
      (fun s => [BitVec.ofInt 16 ((s.r16 .iy).toNat + d.toInt)]) [r.ent] []
      fun s t => t.r8 r.ent = s.readValue .mem (BitVec.ofInt 16 ((s.r16 .iy).toNat + d.toInt))

/-- The stores of one byte (R184, R185, R188, R189, R191, R201). -/
def Obligations.StoreByteToMemory : Prop :=
  (∀ r : Reg8, storesOneByte (.ldIndHlR r) [opByte 0b01#2 0b110#3 r.field] 7
      (fun s => s.r16 .hl) fun s => s.r8 r.ent) ∧
    (∀ n : Byte, storesOneByte (.ldIndHlN n) [0x36#8, n] 10 (fun s => s.r16 .hl) fun _ => n) ∧
    storesOneByte .ldIndBcA [0x02#8] 7 (fun s => s.r16 .bc) (fun s => s.r8 .a) ∧
    storesOneByte .ldIndDeA [0x12#8] 7 (fun s => s.r16 .de) (fun s => s.r8 .a) ∧
    (∀ nn : Word, storesOneByte (.ldIndNnA nn) [0x32#8, lowByte nn, highByte nn] 13 (fun _ => nn)
      fun s => s.r8 .a) ∧
    (∀ (r : Reg8) (d : Byte), storesOneByte (.ldIndIxR d r)
      [0xDD#8, opByte 0b01#2 0b110#3 r.field, d] 19
      (fun s => BitVec.ofInt 16 ((s.r16 .ix).toNat + d.toInt)) fun s => s.r8 r.ent) ∧
    ∀ (r : Reg8) (d : Byte), storesOneByte (.ldIndIyR d r)
      [0xFD#8, opByte 0b01#2 0b110#3 r.field, d] 19
      (fun s => BitVec.ofInt 16 ((s.r16 .iy).toNat + d.toInt)) fun s => s.r8 r.ent

/-- `LD dd,nn`, `LD IX,nn`, `LD IY,nn`, `LD SP,HL` (R192, R199, R203). -/
def Obligations.LoadSixteenBitRegister : Prop :=
  (∀ (dd : PairSp) (nn : Word), RunsOnRegisters (.ldDdNn dd nn)
      [0b00#2 ++ dd.field ++ 0b0001#4, lowByte nn, highByte nn] (fun _ => 10) dd.ent.halves [dd.ent]
      fun _ t => t.r16 dd.ent = nn) ∧
    (∀ nn : Word, RunsOnRegisters (.ldIxNn nn) [0xDD#8, 0x21#8, lowByte nn, highByte nn]
      (fun _ => 14) [] [.ix] fun _ t => t.r16 .ix = nn) ∧
    (∀ nn : Word, RunsOnRegisters (.ldIyNn nn) [0xFD#8, 0x21#8, lowByte nn, highByte nn]
      (fun _ => 14) [] [.iy] fun _ t => t.r16 .iy = nn) ∧
    RunsOnRegisters .ldSpHl [0xF9#8] (fun _ => 6) [] [.sp] fun s t => t.r16 .sp = s.r16 .hl

/-- `LD HL,(nn)` and `LD (nn),HL` (R195, R196): `L` at `nn`, then `H` at `nn + 1`, each byte stored or
dropped on its own. -/
def Obligations.LoadAndStoreHl : Prop :=
  (∀ nn : Word, RunsReading (.ldHlIndNn nn) [0x2A#8, lowByte nn, highByte nn] (fun _ => 16) .mem
      (fun _ => [nn, nn + 1#16]) [.h, .l] [] fun s t =>
        t.r8 .l = s.readValue .mem nn ∧ t.r8 .h = s.readValue .mem (nn + 1#16)) ∧
    ∀ nn : Word, RunsStoring (.ldIndNnHl nn) [0x22#8, lowByte nn, highByte nn] (fun _ => 16)
      (fun s => writesAt .mem [(nn, s.r8 .l), (nn + 1#16, s.r8 .h)])
      (fun s => [(nn, s.r8 .l), (nn + 1#16, s.r8 .h)]) [] [] fun _ _ => True

/-- `PUSH qq` and `POP qq` (R193, R194): a push stores the high byte at `SP - 1`, then the low byte at
`SP - 2`; a pop loads the low byte from `SP`, then the high byte from `SP + 1`. -/
def Obligations.PushAndPop : Prop :=
  (∀ qq : PairAf, RunsStoring (.pushQq qq) [0b11#2 ++ qq.field ++ 0b0101#4] (fun _ => 11)
      (fun s => writesAt .mem
        [(s.r16 .sp - 1#16, highByte (s.r16 qq.ent)), (s.r16 .sp - 2#16, lowByte (s.r16 qq.ent))])
      (fun s =>
        [(s.r16 .sp - 1#16, highByte (s.r16 qq.ent)), (s.r16 .sp - 2#16, lowByte (s.r16 qq.ent))])
      [] [.sp] fun s t => t.r16 .sp = s.r16 .sp - 2#16) ∧
    ∀ qq : PairAf, RunsReading (.popQq qq) [0b11#2 ++ qq.field ++ 0b0001#4] (fun _ => 10) .mem
      (fun s => [s.r16 .sp, s.r16 .sp + 1#16]) qq.ent.halves [.sp] fun s t =>
        t.r16 qq.ent =
          compose (s.readValue .mem (s.r16 .sp + 1#16)) (s.readValue .mem (s.r16 .sp)) ∧
        t.r16 .sp = s.r16 .sp + 2#16

/-- `EX AF,AF'`, `EXX`, `EX DE,HL` (R197, R198, R202): the named registers change places. -/
def Obligations.ExchangesSwapRegisters : Prop :=
  RunsOnRegisters .exAfAf [0x08#8] (fun _ => 4) [.a, .f, .a', .f'] []
      (fun s t => t.r8 .a = s.r8 .a' ∧ t.r8 .f = s.r8 .f' ∧ t.r8 .a' = s.r8 .a ∧
        t.r8 .f' = s.r8 .f) ∧
    RunsOnRegisters .exx [0xD9#8] (fun _ => 4)
      [.b, .c, .d, .e, .h, .l, .b', .c', .d', .e', .h', .l'] []
      (fun s t => t.r8 .b = s.r8 .b' ∧ t.r8 .c = s.r8 .c' ∧ t.r8 .d = s.r8 .d' ∧
        t.r8 .e = s.r8 .e' ∧ t.r8 .h = s.r8 .h' ∧ t.r8 .l = s.r8 .l' ∧ t.r8 .b' = s.r8 .b ∧
        t.r8 .c' = s.r8 .c ∧ t.r8 .d' = s.r8 .d ∧ t.r8 .e' = s.r8 .e ∧ t.r8 .h' = s.r8 .h ∧
        t.r8 .l' = s.r8 .l) ∧
    RunsOnRegisters .exDeHl [0xEB#8] (fun _ => 4) [.d, .e, .h, .l] []
      fun s t => t.r8 .d = s.r8 .h ∧ t.r8 .e = s.r8 .l ∧ t.r8 .h = s.r8 .d ∧ t.r8 .l = s.r8 .e

/-! ### Arithmetic and logic -/

/-- `ADD` and `ADC` in their three forms (R212, R213): the sum modulo 256 and all eight flags, with
`PV` as signed overflow of the exact sum. -/
def Obligations.AddAndAddWithCarry : Prop :=
  ∀ (x : AluSource) (withCarry : Bool),
    RunsReading (if withCarry then x.adc else x.add) (x.code (if withCarry then 1#3 else 0#3))
      (fun _ => x.cost) .mem x.reads [.a, .f] [] fun s t =>
        let a := s.r8 .a
        let v := x.value s
        let c := (withCarry && flagC (s.r8 .f)).toNat
        t.r8 .a = BitVec.ofNat 8 (a.toNat + v.toNat + c) ∧
          CopiesResult (t.r8 .f) (t.r8 .a) ∧
          flagH (t.r8 .f) = decide (15 < a.toNat % 16 + v.toNat % 16 + c) ∧
          flagPV (t.r8 .f) =
            decide (a.toInt + v.toInt + c < -128 ∨ 127 < a.toInt + v.toInt + c) ∧
          flagN (t.r8 .f) = false ∧ flagC (t.r8 .f) = decide (255 < a.toNat + v.toNat + c)

/-- `SUB` and `SBC` in their three forms (R214, R215). -/
def Obligations.SubtractAndSubtractWithBorrow : Prop :=
  ∀ (x : AluSource) (withBorrow : Bool),
    RunsReading (if withBorrow then x.sbc else x.sub) (x.code (if withBorrow then 3#3 else 2#3))
      (fun _ => x.cost) .mem x.reads [.a, .f] [] fun s t =>
        let a := s.r8 .a
        let v := x.value s
        let c := (withBorrow && flagC (s.r8 .f)).toNat
        t.r8 .a = BitVec.ofInt 8 (a.toNat - v.toNat - c) ∧
          CopiesResult (t.r8 .f) (t.r8 .a) ∧
          flagH (t.r8 .f) = decide (a.toNat % 16 < v.toNat % 16 + c) ∧
          flagPV (t.r8 .f) =
            decide (a.toInt - v.toInt - c < -128 ∨ 127 < a.toInt - v.toInt - c) ∧
          flagN (t.r8 .f) = true ∧ flagC (t.r8 .f) = decide (a.toNat < v.toNat + c)

/-- `CP` in its three forms (R219): the flags of the subtraction but `Y` and `X` from the operand, and
`A` not written. -/
def Obligations.CompareSetsFlagsOnly : Prop :=
  ∀ x : AluSource, RunsReading x.cp (x.code 7#3) (fun _ => x.cost) .mem x.reads [.f] [] fun s t =>
    let a := s.r8 .a
    let v := x.value s
    let res : Byte := BitVec.ofInt 8 (a.toNat - v.toNat)
    flagS (t.r8 .f) = res.getLsbD 7 ∧ flagZ (t.r8 .f) = decide (a = v) ∧
      flagY (t.r8 .f) = v.getLsbD 5 ∧ flagX (t.r8 .f) = v.getLsbD 3 ∧
      flagH (t.r8 .f) = decide (a.toNat % 16 < v.toNat % 16) ∧
      flagPV (t.r8 .f) = decide (a.toInt - v.toInt < -128 ∨ 127 < a.toInt - v.toInt) ∧
      flagN (t.r8 .f) = true ∧ flagC (t.r8 .f) = decide (a.toNat < v.toNat)

/-- `AND`, `XOR`, `OR` in their three forms (R216 to R218): the result bit by bit, and all eight flags
with `PV` as even parity. -/
def Obligations.BitwiseOperations : Prop :=
  ∀ x : AluSource,
    (RunsReading x.and (x.code 4#3) (fun _ => x.cost) .mem x.reads [.a, .f] [] fun s t =>
      (∀ k < 8, (t.r8 .a).getLsbD k = ((s.r8 .a).getLsbD k && (x.value s).getLsbD k)) ∧
        CopiesResult (t.r8 .f) (t.r8 .a) ∧ flagH (t.r8 .f) = true ∧
        flagPV (t.r8 .f) = evenOnes (t.r8 .a) ∧ flagN (t.r8 .f) = false ∧
        flagC (t.r8 .f) = false) ∧
    (RunsReading x.xor (x.code 5#3) (fun _ => x.cost) .mem x.reads [.a, .f] [] fun s t =>
      (∀ k < 8, (t.r8 .a).getLsbD k = ((s.r8 .a).getLsbD k ^^ (x.value s).getLsbD k)) ∧
        CopiesResult (t.r8 .f) (t.r8 .a) ∧ flagH (t.r8 .f) = false ∧
        flagPV (t.r8 .f) = evenOnes (t.r8 .a) ∧ flagN (t.r8 .f) = false ∧
        flagC (t.r8 .f) = false) ∧
    RunsReading x.or (x.code 6#3) (fun _ => x.cost) .mem x.reads [.a, .f] [] fun s t =>
      (∀ k < 8, (t.r8 .a).getLsbD k = ((s.r8 .a).getLsbD k || (x.value s).getLsbD k)) ∧
        CopiesResult (t.r8 .f) (t.r8 .a) ∧ flagH (t.r8 .f) = false ∧
        flagPV (t.r8 .f) = evenOnes (t.r8 .a) ∧ flagN (t.r8 .f) = false ∧
        flagC (t.r8 .f) = false

/-- `INC r` and `DEC r` (R220, R222). -/
def Obligations.IncrementAndDecrementRegister : Prop :=
  (∀ r : Reg8, RunsOnRegisters (.incR r) [opByte 0b00#2 r.field 0b100#3] (fun _ => 4) [r.ent, .f] []
      fun s t => t.r8 r.ent = BitVec.ofNat 8 ((s.r8 r.ent).toNat + 1) ∧
        incrementFlags (s.r8 r.ent) (s.r8 .f) (t.r8 .f)) ∧
    ∀ r : Reg8, RunsOnRegisters (.decR r) [opByte 0b00#2 r.field 0b101#3] (fun _ => 4) [r.ent, .f] []
      fun s t => t.r8 r.ent = BitVec.ofNat 8 ((s.r8 r.ent).toNat + 255) ∧
        decrementFlags (s.r8 r.ent) (s.r8 .f) (t.r8 .f)

/-- `INC (HL)` and `DEC (HL)` (R221, R223): read at `HL`, then write at `HL`; the flags follow the
result even where the write is dropped. -/
def Obligations.IncrementAndDecrementMemory : Prop :=
  (RunsStoring .incIndHl [0x34#8] (fun _ => 11)
      (fun s => [fun _ => .read .mem (s.r16 .hl),
        fun got => .write .mem (s.r16 .hl) (BitVec.ofNat 8 ((got.headD 0).toNat + 1))])
      (fun s => [(s.r16 .hl, BitVec.ofNat 8 ((s.readValue .mem (s.r16 .hl)).toNat + 1))]) [.f] []
      fun s t => incrementFlags (s.readValue .mem (s.r16 .hl)) (s.r8 .f) (t.r8 .f)) ∧
    RunsStoring .decIndHl [0x35#8] (fun _ => 11)
      (fun s => [fun _ => .read .mem (s.r16 .hl),
        fun got => .write .mem (s.r16 .hl) (BitVec.ofNat 8 ((got.headD 0).toNat + 255))])
      (fun s => [(s.r16 .hl, BitVec.ofNat 8 ((s.readValue .mem (s.r16 .hl)).toNat + 255))]) [.f] []
      fun s t => decrementFlags (s.readValue .mem (s.r16 .hl)) (s.r8 .f) (t.r8 .f)

/-- `INC ss` and `DEC ss` (R224, R225): one up or down modulo 2^16, no flag. -/
def Obligations.IncrementAndDecrementPair : Prop :=
  (∀ ss : PairSp, RunsOnRegisters (.incSs ss) [0b00#2 ++ ss.field ++ 0b0011#4] (fun _ => 6)
      ss.ent.halves [ss.ent] fun s t =>
        (t.r16 ss.ent).toNat = ((s.r16 ss.ent).toNat + 1) % 65536) ∧
    ∀ ss : PairSp, RunsOnRegisters (.decSs ss) [0b00#2 ++ ss.field ++ 0b1011#4] (fun _ => 6)
      ss.ent.halves [ss.ent] fun s t =>
        (t.r16 ss.ent).toNat = ((s.r16 ss.ent).toNat + 65535) % 65536

/-- `ADD HL,ss` (R226): the sum modulo 2^16; `S Z PV` stay, the other five flags come from the sum. -/
def Obligations.AddPairToHl : Prop :=
  ∀ ss : PairSp, RunsOnRegisters (.addHlSs ss) [0b00#2 ++ ss.field ++ 0b1001#4] (fun _ => 11)
    [.h, .l, .f] [] fun s t =>
      let a := (s.r16 .hl).toNat
      let v := (s.r16 ss.ent).toNat
      (t.r16 .hl).toNat = (a + v) % 65536 ∧
        flagS (t.r8 .f) = flagS (s.r8 .f) ∧ flagZ (t.r8 .f) = flagZ (s.r8 .f) ∧
        flagPV (t.r8 .f) = flagPV (s.r8 .f) ∧ flagY (t.r8 .f) = (t.r16 .hl).getLsbD 13 ∧
        flagX (t.r8 .f) = (t.r16 .hl).getLsbD 11 ∧
        flagH (t.r8 .f) = decide (4095 < a % 4096 + v % 4096) ∧ flagN (t.r8 .f) = false ∧
        flagC (t.r8 .f) = decide (65535 < a + v)

/-! ### Control transfers -/

/-- The eight conditions, read from `F` (R231). -/
def Obligations.ConditionsReadTheirFlag : Prop :=
  ∀ s : State, let f := s.r8 .f
    s.meets .nz = !f.getLsbD 6 ∧ s.meets .z = f.getLsbD 6 ∧ s.meets .nc = !f.getLsbD 0 ∧
      s.meets .c = f.getLsbD 0 ∧ s.meets .po = !f.getLsbD 2 ∧ s.meets .pe = f.getLsbD 2 ∧
      s.meets .p = !f.getLsbD 7 ∧ s.meets .m = f.getLsbD 7

/-- `JP nn`, `JP cc,nn`, `JP (HL)` (R232 to R234). -/
def Obligations.AbsoluteJumps : Prop :=
  (∀ nn : Word, RunsOnRegisters (.jpNn nn) [0xC3#8, lowByte nn, highByte nn] (fun _ => 10) [] [.pc]
      fun _ t => t.r16 .pc = nn) ∧
    (∀ (cc : Cond) (nn : Word), RunsOnRegisters (.jpCcNn cc nn)
      [opByte 0b11#2 cc.field 0b010#3, lowByte nn, highByte nn] (fun _ => 10) [] [.pc]
      fun s t => t.r16 .pc = if s.meets cc then nn else s.r16 .pc) ∧
    RunsOnRegisters .jpHl [0xE9#8] (fun _ => 4) [] [.pc] fun s t => t.r16 .pc = s.r16 .hl

/-- `JR e`, `JR cc,e`, `DJNZ e` (R235 to R237): target from the next instruction's address, cost by
whether the jump is taken, no flag. -/
def Obligations.RelativeJumps : Prop :=
  (∀ e : Byte, RunsOnRegisters (.jr e) [0x18#8, e] (fun _ => 12) [] [.pc]
      fun s t => t.r16 .pc = displaced s e) ∧
    (∀ (cc : JrCond) (e : Byte), RunsOnRegisters (.jrCc cc e)
      [opByte 0b00#2 cc.field 0b000#3, e] (fun s => if s.meets cc.cond then 12 else 7) [] [.pc]
      fun s t => t.r16 .pc = if s.meets cc.cond then displaced s e else s.r16 .pc) ∧
    ∀ e : Byte, RunsOnRegisters (.djnz e) [0x10#8, e]
      (fun s => if (s.r8 .b).toNat = 1 then 8 else 13) [.b] [.pc]
      fun s t => t.r8 .b = BitVec.ofNat 8 ((s.r8 .b).toNat + 255) ∧
        t.r16 .pc = if (s.r8 .b).toNat = 1 then s.r16 .pc else displaced s e

/-- `CALL nn`, `CALL cc,nn`, `RST p` (R238, R239, R242). -/
def Obligations.CallsPushTheReturnAddress : Prop :=
  (∀ nn : Word, RunsStoring (.callNn nn) [0xCD#8, lowByte nn, highByte nn] (fun _ => 17)
      (fun s => writesAt .mem (returnAddressStores s)) returnAddressStores [] [.sp, .pc]
      fun s t => t.r16 .sp = s.r16 .sp - 2#16 ∧ t.r16 .pc = nn) ∧
    (∀ (cc : Cond) (nn : Word), RunsStoring (.callCcNn cc nn)
      [opByte 0b11#2 cc.field 0b100#3, lowByte nn, highByte nn]
      (fun s => if s.meets cc then 17 else 10)
      (fun s => writesAt .mem (if s.meets cc then returnAddressStores s else []))
      (fun s => if s.meets cc then returnAddressStores s else []) [] [.sp, .pc]
      fun s t => t.r16 .sp = (if s.meets cc then s.r16 .sp - 2#16 else s.r16 .sp) ∧
        t.r16 .pc = if s.meets cc then nn else s.r16 .pc) ∧
    ∀ p : BitVec 3, RunsStoring (.rstP p) [opByte 0b11#2 p 0b111#3] (fun _ => 11)
      (fun s => writesAt .mem (returnAddressStores s)) returnAddressStores [] [.sp, .pc]
      fun s t => t.r16 .sp = s.r16 .sp - 2#16 ∧ t.r16 .pc = BitVec.ofNat 16 (8 * p.toNat)

/-- `RET` and `RET cc` (R240, R241). -/
def Obligations.ReturnsPopTheProgramCounter : Prop :=
  RunsReading .ret [0xC9#8] (fun _ => 10) .mem (fun s => [s.r16 .sp, s.r16 .sp + 1#16]) []
      [.sp, .pc] (fun s t => t.r16 .sp = s.r16 .sp + 2#16 ∧ t.r16 .pc =
        compose (s.readValue .mem (s.r16 .sp + 1#16)) (s.readValue .mem (s.r16 .sp))) ∧
    ∀ cc : Cond, RunsReading (.retCc cc) [opByte 0b11#2 cc.field 0b000#3]
      (fun s => if s.meets cc then 11 else 5) .mem
      (fun s => if s.meets cc then [s.r16 .sp, s.r16 .sp + 1#16] else []) [] [.sp, .pc]
      fun s t => t.r16 .sp = (if s.meets cc then s.r16 .sp + 2#16 else s.r16 .sp) ∧ t.r16 .pc =
        if s.meets cc then
          compose (s.readValue .mem (s.r16 .sp + 1#16)) (s.readValue .mem (s.r16 .sp))
        else s.r16 .pc

/-! ### Input and output -/

/-- `OUT (n),A` and `OUT (C),r` (R251, R253): which port, which byte, which colour for the video layer,
and nothing else. -/
def Obligations.OutputsWriteTheirPort : Prop :=
  (∀ n : Byte, RunsOutput (.outNA n) [0xD3#8, n] 11 (fun s => compose (s.r8 .a) n)
      fun s => s.r8 .a) ∧
    ∀ r : Reg8, RunsOutput (.outCR r) [0xED#8, opByte 0b01#2 r.field 0b001#3] 12
      (fun s => compose (s.r8 .b) (s.r8 .c)) fun s => s.r8 r.ent

/-- `IN A,(n)` and `IN r,(C)` (R252, R254): the port from the old registers; the second form sets all
flags but `C` from the byte read. -/
def Obligations.InputsReadTheirPort : Prop :=
  (∀ n : Byte, RunsReading (.inAN n) [0xDB#8, n] (fun _ => 11) .io
      (fun s => [compose (s.r8 .a) n]) [.a] []
      fun s t => t.r8 .a = s.readValue .io (compose (s.r8 .a) n)) ∧
    ∀ r : Reg8, RunsReading (.inRC r) [0xED#8, opByte 0b01#2 r.field 0b000#3] (fun _ => 12) .io
      (fun s => [compose (s.r8 .b) (s.r8 .c)]) [r.ent, .f] []
      fun s t =>
        let v := s.readValue .io (compose (s.r8 .b) (s.r8 .c))
        t.r8 r.ent = v ∧ CopiesResult (t.r8 .f) v ∧ flagH (t.r8 .f) = false ∧
          flagPV (t.r8 .f) = evenOnes v ∧ flagN (t.r8 .f) = false ∧
          flagC (t.r8 .f) = flagC (s.r8 .f)

/-! ### Marked entries -/

/-- An entry marked "not yet implemented" aborts the machine (R155, R263). Its meaning is that abort,
with the opcode path recorded and nothing else changed; and a Tick that meets such a path in memory
ends there, with `PC` still on the first opcode byte. -/
def Obligations.MarkedEntriesAbortTheMachine : Prop :=
  (∀ (op : Byte) (s : State),
    let abort (path : List Byte) : Result :=
      .next { s with status := .aborted (.notImplemented (s.r16 .pc) path) }
    exec (.niRoot op) s = abort [op] ∧ exec (.niDd op) s = abort [0xDD#8, op] ∧
      exec (.niFd op) s = abort [0xFD#8, op] ∧ exec (.niEd op) s = abort [0xED#8, op]) ∧
  ∀ (s : State) (rest : List ClockMsg) (sched' : List Agent) (path : List Byte) (i : Instr),
    s.cpuTakesTick rest sched' → s.cpu.cyc = 0 → s.settled → s.holds (s.r16 .pc) path →
    decode path = .ok (i, []) → i.isNotImplemented →
    step s = .next { s.fetchStarts rest sched' with
      status := .aborted (.notImplemented (s.r16 .pc) path) }

/-! ### The CPU cycle -/

/-- A Tick with nothing owed runs the instruction whose bytes memory holds at `PC`: the step is its
meaning, started with `PC` past the instruction (R152 to R158, R166). -/
def Obligations.StepRunsTheDecodedInstruction : Prop :=
  ∀ (s : State) (rest : List ClockMsg) (sched' : List Agent) (bytes : List Byte) (i : Instr),
    s.cpuTakesTick rest sched' → s.cpu.cyc = 0 → s.settled → s.holds (s.r16 .pc) bytes →
    decode bytes = .ok (i, []) →
    step s = exec i ((s.fetchStarts rest sched').handlerStarts i bytes.length)

/-- The instruction stream is read one Bus transaction at a time, on any devices: each byte once, in
ascending order, no byte past the instruction, a byte only after those before it selected it. When
the bytes read so far are no whole instruction, the outcome of the next read decides: `AddressFault`
is `FetchFault` at that address, a fatal condition aborts, a silent device hangs (R153, R154, R156,
R157, R269). -/
def Obligations.FetchReadsOneByteAtATime : Prop :=
  ∀ (s u : State) (rest : List ClockMsg) (sched' : List Agent) (bytes : List Byte),
    s.cpuTakesTick rest sched' → s.cpu.cyc = 0 →
    readsInOrder (s.r16 .pc) bytes (s.fetchStarts rest sched') u →
    (∀ i, decode bytes = .ok (i, []) → step s = exec i (u.handlerStarts i bytes.length)) ∧
      ∀ e, decode bytes = .error e →
        let a := s.r16 .pc + BitVec.ofNat 16 bytes.length
        (∀ v, busRead .mem a u = .addressFault v →
          step s = .next { v with status := .aborted (.fetchFault a) }) ∧
        (∀ v, busRead .mem a u = .fatal v → step s = .next v) ∧
        ∀ h, busRead .mem a u = .hang h → step s = .fault (.deviceSilent h)

/-- A Tick while an instruction is still being paid for only counts down (R151). -/
def Obligations.OwedTickOnlyCountsDown : Prop :=
  ∀ (s : State) (rest : List ClockMsg) (sched' : List Agent), s.cpuTakesTick rest sched' →
    s.cpu.cyc ≠ 0 →
    step s = .next { s with sched := sched', cpu := { s.cpu with
      queue := rest, cyc := s.cpu.cyc - 1 } }

/-- Stop ends the loop: phase `Stopped`, registers, `PC` and `cyc` kept, no Bus transaction; and a
stopped CPU keeps them whatever the machine does next (R162). -/
def Obligations.StopEndsTheLoop : Prop :=
  (∀ (s : State) (rest : List ClockMsg) (sched' : List Agent), s.status = .running →
    s.cpu.phase = .idle → s.cpu.queue = .stop :: rest →
    (s.sched = .cpu :: sched' ∨ s.sched = [] ∧ sched' = []) →
    ∃ t : State, step s = .next t ∧ t.cpu = { s.cpu with queue := rest, phase := .stopped } ∧
      t.devices = s.devices ∧ t.bus = s.bus ∧ t.clock = s.clock) ∧
  ∀ s t : State, s.cpu.phase = .stopped → step s = .next t →
    t.cpu.phase = .stopped ∧ t.cpu.regs = s.cpu.regs ∧ t.cpu.cyc = s.cpu.cyc

/-- `Stopped` and `Aborted` are final (R31, R266): the status stays, and of an aborted machine
everything else too; of a stopped one the CPU, the Bus, the devices and the tick count. -/
def Obligations.FinalStatusesAreFinal : Prop :=
  (∀ (s : State) (f : Fatal), s.status = .aborted f → step s = .next s) ∧
  ∀ s : State, s.status = .stopped → ∃ t : State, step s = .next t ∧ t.status = .stopped ∧
    t.cpu = s.cpu ∧ t.bus = s.bus ∧ t.devices = s.devices ∧ t.clock.ticks = s.clock.ticks

/-- `cyc` never exceeds 18: every step keeps that bound (R22, R300). -/
def Obligations.CyclesOwedStayBelowNineteen : Prop :=
  ∀ s t : State, s.cpu.cyc ≤ 18 → step s = .next t → t.cpu.cyc ≤ 18

/-! ### Clock -/

/-- Rate division (R134): over `n` iterations of the Clock, counted as its own actions in a row, a
subsystem with divisor `d` is sent a Tick for every multiple of `d` among the iteration numbers, so
`n / d` of them from construction, and nothing else. -/
def Obligations.TicksAreDividedByTheDivisor : Prop :=
  ∀ (s : State) (n : Nat), s.clock.phase = .top → s.clock.control = [] →
    (s.clock.subsystems.map Prod.fst).Nodup →
    (∀ p ∈ s.clock.subsystems, 1 ≤ p.2 ∧ s.closed p.1 = false) →
    ∃ t : State, runFor clockStep ((s.clock.subsystems.length + 3) * n) s = .next t ∧
      t.clock.ticks = s.clock.ticks + n ∧ t.clock.phase = .top ∧
      (∀ p ∈ s.clock.subsystems, t.queueOf p.1 = s.queueOf p.1 ++
        List.replicate ((s.clock.ticks + n) / p.2 - s.clock.ticks / p.2) .tick) ∧
      (s.clock.ticks = 0 → ∀ p ∈ s.clock.subsystems,
        t.queueOf p.1 = s.queueOf p.1 ++ List.replicate (n / p.2) .tick)

/-- On seeing Stop the Clock sends one `Stop` to every subsystem, behind the Ticks already in its
queue, sends nothing more and counts no further iteration (R138). How long the grace period after it
is, `STOP_GRACE` steps of the Clock and one to terminate, is the model's choice: R138 gives it neither
a unit nor a length (log entry 22, DESIGN CHOICE). -/
def Obligations.StopIsSentToEverySubsystem : Prop :=
  ∀ (s : State) (rest : List ControlMsg), s.clock.phase = .poll →
    s.clock.control = .stop :: rest → (s.clock.subsystems.map Prod.fst).Nodup →
    (∀ p ∈ s.clock.subsystems, s.closed p.1 = false) →
    ∃ t : State, runFor clockStep (s.clock.subsystems.length + 2) s = .next t ∧
      t.clock.phase = .grace s.conf.stopGrace ∧ t.clock.ticks = s.clock.ticks ∧
      (∀ p ∈ s.clock.subsystems, t.queueOf p.1 = s.queueOf p.1 ++ [.stop]) ∧
      runFor clockStep (s.conf.stopGrace + 1) t =
        .next { t with clock := { t.clock with phase := .terminated } }

/-- The Clock waits for room (R140): no queue ever holds more than `TICK_QUEUE_CAP` messages. -/
def Obligations.QueuesStayBounded : Prop :=
  ∀ s t : State, s.queuesBounded → step s = .next t → t.queuesBounded

/-! ### Bus, devices and the address map -/

/-- Lookup and the overlap policy (R113): the entry appended last among those that contain the address;
none exactly when no entry does, and then a read and a write fault and change nothing (R44). -/
def Obligations.LastRegisteredEntryWins : Prop :=
  (∀ (table : List MapEntry) (a : Word) (m : MapEntry), lookup table a = some m ↔
    ∃ older newer, table = older ++ m :: newer ∧
      (m.range.start.toNat ≤ a.toNat ∧ a.toNat < m.range.stop) ∧
      ∀ k ∈ newer, ¬(k.range.start.toNat ≤ a.toNat ∧ a.toNat < k.range.stop)) ∧
  ∀ (s : State) (sp : Space) (a : Word), s.bus.alive →
    ((∀ k ∈ s.bus.table sp .read, ¬(k.range.start.toNat ≤ a.toNat ∧ a.toNat < k.range.stop)) →
      busRead sp a s = .addressFault s) ∧
    ((∀ k ∈ s.bus.table sp .write, ¬(k.range.start.toNat ≤ a.toNat ∧ a.toNat < k.range.stop)) →
      ∀ v, busWrite sp a v s = .addressFault s)

/-- Registration (R110, R111): one entry per declared range at the end of the right table, the device
itself unchanged but for the record that it is registered (and what an arbitrary device does when it
answers); a device that does not answer, or answers with anything but its ranges, aborts the machine
with the tables as they were. -/
def Obligations.RegistrationAppendsDeclaredRanges : Prop :=
  ∀ (s : State) (h : Nat) (d : Device), s.bus.alive → s.devices[h]? = some d →
    (d.alive → d.isScripted = false → busRegister h s = .ok () { s with
      bus := { s.bus with
        memRead := s.bus.memRead ++ d.decl.memRead.map fun g => ⟨g, h⟩
        memWrite := s.bus.memWrite ++ d.decl.memWrite.map fun g => ⟨g, h⟩
        ioRead := s.bus.ioRead ++ d.decl.ioRead.map fun g => ⟨g, h⟩
        ioWrite := s.bus.ioWrite ++ d.decl.ioWrite.map fun g => ⟨g, h⟩ }
      devices := s.devices.set h { d with registered := true } }) ∧
    (∀ (g : RangesRet) (script : List Answer), d.alive →
      d.kind = .scripted (.reply (.rangesRet g) :: script) → busRegister h s = .ok () { s with
        bus := { s.bus with
          memRead := s.bus.memRead ++ g.memRead.map fun x => ⟨x, h⟩
          memWrite := s.bus.memWrite ++ g.memWrite.map fun x => ⟨x, h⟩
          ioRead := s.bus.ioRead ++ g.ioRead.map fun x => ⟨x, h⟩
          ioWrite := s.bus.ioWrite ++ g.ioWrite.map fun x => ⟨x, h⟩ }
        devices := s.devices.set h { d with kind := .scripted script, registered := true } }) ∧
    (d.alive = false → busRegister h s =
      .fatal { s with status := .aborted (.channelClosed (.device h)) }) ∧
    ∀ (r : Reply) (script : List Answer), d.alive → d.kind = .scripted (.reply r :: script) →
      (∀ g, r ≠ .rangesRet g) → busRegister h s = .fatal { s with
        status := .aborted (.protocolViolation (.device h))
        devices := s.devices.set h { d with kind := .scripted script } }

/-- What the Bus makes of any device's answer (R115 to R118): the expected reply is handed on, `Err` is
`AddressFault`, a reply of another kind is `ProtocolViolation`, a terminated device `ChannelClosed`,
and a device that never replies hangs the Bus. -/
def Obligations.DeviceAnswersAreMapped : Prop :=
  ∀ (s : State) (sp : Space) (a : Word) (m : MapEntry) (d : Device) (x : Answer)
    (script : List Answer), s.bus.alive → s.devices[m.dev]? = some d → d.alive →
    d.kind = .scripted (x :: script) →
    let u := { s with devices := s.devices.set m.dev { d with kind := .scripted script } }
    let violation := { u with status := .aborted (.protocolViolation (.device m.dev)) }
    let gone := { u with status := .aborted (.channelClosed (.device m.dev)) }
    (lookup (s.bus.table sp .read) a = some m →
      (∀ b, x = .reply (readReply sp b) → busRead sp a s = .ok b u) ∧
      (x = .reply .err → busRead sp a s = .addressFault u) ∧
      (∀ r, x = .reply r → r ≠ .err → (∀ b, r ≠ readReply sp b) →
        busRead sp a s = .fatal violation) ∧
      (x = .closed → busRead sp a s = .fatal gone) ∧
      (x = .silent → busRead sp a s = .hang m.dev)) ∧
    (lookup (s.bus.table sp .write) a = some m → ∀ v,
      (x = .reply (writeReply sp) → busWrite sp a v s = .ok () u) ∧
      (x = .reply .err → busWrite sp a v s = .addressFault u) ∧
      (∀ r, x = .reply r → r ≠ .err → r ≠ writeReply sp →
        busWrite sp a v s = .fatal violation) ∧
      (x = .closed → busWrite sp a v s = .fatal gone) ∧
      (x = .silent → busWrite sp a v s = .hang m.dev))

/-- A peer that has terminated is `ChannelClosed` for whoever needs it (R264, R141): the Bus for its
caller, a device for the Bus, a subsystem for the Clock, the Clock for the CPU and for a waiting
subsystem. The two clauses about a dead Clock are the model's reading (log entry 15, DEDUCED): R264
makes a missing Clock fatal, and does not say who notices it, or when. Here it is a CPU that waits with
an empty queue; and a running machine that waits for nothing else aborts even when its CPU has
stopped. -/
def Obligations.DeadPeersAreChannelClosed : Prop :=
  (∀ (s : State) (sp : Space) (a : Word), s.bus.alive = false →
    busRead sp a s = .fatal { s with status := .aborted (.channelClosed .bus) } ∧
      ∀ v, busWrite sp a v s = .fatal { s with status := .aborted (.channelClosed .bus) }) ∧
  (∀ (s : State) (sp : Space) (a : Word) (m : MapEntry) (d : Device), s.bus.alive →
    s.devices[m.dev]? = some d → d.alive = false →
    (lookup (s.bus.table sp .read) a = some m → busRead sp a s =
      .fatal { s with status := .aborted (.channelClosed (.device m.dev)) }) ∧
    (lookup (s.bus.table sp .write) a = some m → ∀ v, busWrite sp a v s =
      .fatal { s with status := .aborted (.channelClosed (.device m.dev)) })) ∧
  (∀ (s : State) (sub : SubId) (msg : ClockMsg), s.closed sub →
    sendTo sub msg s = { s with status := .aborted (.channelClosed sub.peer) }) ∧
  (∀ s : State, s.status = .running → s.cpu.phase = .idle → s.cpu.queue = [] →
    s.clock.phase = .dead → s.sched = [] →
    step s = .next { s with status := .aborted (.channelClosed .clock) }) ∧
  ∀ s : State, s.status = .running → s.cpu.queue = [] → (∀ d ∈ s.devices, d.inbox = []) →
    s.inputs = [] → s.clock.phase = .dead → s.sched = [] →
    step s = .next { s with status := .aborted (.channelClosed .clock) }

/-- The reference devices serve the contract (R51 to R55): what each declares, whatever the border
port, and what it answers to every request. -/
def Obligations.ReferenceDevicesServeTheContract : Prop :=
  (referenceDevices.map Device.decl = [romDecl, bankDecl, ramDecl, displayDecl Config.borderPort] ∧
    ∀ port : Word, [romDecl, bankDecl, ramDecl, displayDecl port] =
      [⟨[⟨0x0000#16, 0x4000⟩], [], [], []⟩,
        ⟨[⟨0x4000#16, 0x8000⟩], [⟨0x4000#16, 0x8000⟩], [], []⟩,
        ⟨[⟨0x8000#16, 0x10000⟩], [⟨0x8000#16, 0x10000⟩], [], []⟩,
        ⟨[], [], [⟨port, port.toNat + 1⟩], [⟨port, port.toNat + 1⟩]⟩]) ∧
  ∀ (d : Device) (o : Word) (b : Byte), d.alive →
    (∀ len cells, d.kind = .rom len cells →
      d.serve .getRanges = (.reply (.rangesRet d.decl), d) ∧
      d.serve (.memGet o) =
        (.reply (if o.toNat < len then .memReadOk (cells.read o.toNat) else .err), d) ∧
      d.serve (.memPut o b) = (.reply .err, d) ∧ d.serve (.ioGet o) = (.reply .err, d) ∧
      d.serve (.ioPut o b) = (.reply .err, d)) ∧
    (∀ len cells, d.kind = .ram len cells → cells.wf →
      d.serve .getRanges = (.reply (.rangesRet d.decl), d) ∧
      d.serve (.memGet o) =
        (.reply (if o.toNat < len then .memReadOk (cells.read o.toNat) else .err), d) ∧
      (len ≤ o.toNat → d.serve (.memPut o b) = (.reply .err, d)) ∧
      (o.toNat < len → ∃ cells', d.serve (.memPut o b) =
          (.reply .memWriteOk, { d with kind := .ram len cells' }) ∧
        ∀ p, cells'.read p = if p = o.toNat then b else cells.read p) ∧
      d.serve (.ioGet o) = (.reply .err, d) ∧ d.serve (.ioPut o b) = (.reply .err, d)) ∧
    ∀ u, d.kind = .display u →
      d.serve .getRanges = (.reply (.rangesRet d.decl), d) ∧
      d.serve (.memGet o) = (.reply .err, d) ∧ d.serve (.memPut o b) = (.reply .err, d) ∧
      d.serve (.ioGet o) = (.reply
        (if o = 0#16 then .ioReadOk (BitVec.ofNat 8 u.border.toNat) else .err), d) ∧
      (o ≠ 0#16 → d.serve (.ioPut o b) = (.reply .err, d)) ∧
      (o = 0#16 → ∃ u' : Display, d.serve (.ioPut o b) =
          (.reply .ioWriteOk, { d with kind := .display u' }) ∧
        u'.border.toNat = b.toNat % 8 ∧ u'.renderPos = u.renderPos)

/-- DISPLAY toward the video layer (R30, R56): the palette's colour for a border write is handed
on exactly when the write changes the value, a Tick never moves the render position back, and the
eight colours. That a position is handed on at every Tick is the model's reading (log entry 12). -/
def Obligations.VideoSeesChangesAndAdvances : Prop :=
  (∀ (u : Display) (b : Byte), (u.setBorder b).out = u.out ++
    if b.toNat % 8 = u.border.toNat then [] else [.border (Config.palette (BitVec.ofNat 3 b.toNat))]) ∧
  (∀ u : Display, u.tick.border = u.border ∧ u.renderPos ≤ u.tick.renderPos ∧
    u.tick.out = u.out ++ [.position u.tick.renderPos]) ∧
  (List.finRange 8).map (fun c => Config.palette (BitVec.ofFin c)) =
    [(0x00, 0x00, 0x00), (0x00, 0x00, 0xD7), (0xD7, 0x00, 0x00), (0xD7, 0x00, 0xD7),
      (0x00, 0xD7, 0x00), (0x00, 0xD7, 0xD7), (0xD7, 0xD7, 0x00), (0xD7, 0xD7, 0xD7)]

/-- The reference memory map (R57): what a Bus read of every address of both spaces answers, and what a
Bus write to it does. -/
def Obligations.ReferenceMapRoutesEveryAddress : Prop :=
  ∀ (s : State) (port : Word) (rom bank ram display : Device) (c0 c1 c2 : Memory) (u : Display)
    (a : Word) (v : Byte), s.isReference port → s.devices = [rom, bank, ram, display] →
    rom.kind = .rom 0x4000 c0 → bank.kind = .ram 0x4000 c1 → ram.kind = .ram 0x8000 c2 →
    display.kind = .display u →
    busRead .mem a s = .ok (if a.toNat < 0x4000 then c0.read a.toNat
      else if a.toNat < 0x8000 then c1.read (a.toNat - 0x4000)
      else c2.read (a.toNat - 0x8000)) s ∧
    busRead .io a s = (if a = port then .ok (u.border.zeroExtend 8) s else .addressFault s) ∧
    busWrite .mem a v s = (if a.toNat < 0x4000 then .addressFault s
      else if a.toNat < 0x8000 then .ok () { s with devices :=
        [rom, { bank with kind := .ram 0x4000 (c1.write (a.toNat - 0x4000) v) }, ram, display] }
      else .ok () { s with devices :=
        [rom, bank, { ram with kind := .ram 0x8000 (c2.write (a.toNat - 0x8000) v) }, display] }) ∧
    busWrite .io a v s = (if a = port then .ok () { s with devices :=
        [rom, bank, ram, { display with kind := .display (u.setBorder v) }] }
      else .addressFault s)

/-- A byte stored through the Bus is what the next read of its address returns, and every other address
of both spaces reads as before (R53, R73). -/
def Obligations.StoredByteReadsBack : Prop :=
  ∀ (s : State) (port a : Word) (v : Byte), s.isReference port → s.storageWf →
    0x4000 ≤ a.toNat → ∃ t : State, busWrite .mem a v s = .ok () t ∧
      busRead .mem a t = .ok v t ∧ (∀ b, b ≠ a → t.peek .mem b = s.peek .mem b) ∧
      ∀ b, t.peek .io b = s.peek .io b

/-! ### Launch -/

/-- Every launch state boots in seven steps (R291): devices registered in order, subsystems attached,
running, with registers, storage and border as launched. `State.reset` is the launch state whose
arbitrary values the model chose (log entries 1 to 4). -/
def Obligations.EveryLaunchStateBoots : Prop :=
  (∀ (regs : RegFile) (rom bank ram : Memory) (border : BitVec 3) (port : Word)
    (cpuDiv videoDiv : Nat) (conf : Conf), 1 ≤ cpuDiv → 1 ≤ videoDiv → 1 ≤ conf.tickQueueCap →
    let s := launch regs rom bank ram border port cpuDiv videoDiv conf
    ∃ t : State, runFor step 7 s = .next t ∧ t.status = .running ∧ t.isReference port ∧
      t.clock = { Clock.reset with subsystems := [(.cpu, cpuDiv), (.device 3, videoDiv)] } ∧
      t.cpu = s.cpu ∧ t.conf = conf ∧ t.inputs = [] ∧
      t.devices.map Device.kind = s.devices.map Device.kind ∧
      t.devices.map Device.registered = [true, true, true, true] ∧
      t.hostOut = [.addDeviceOk, .addDeviceOk, .addDeviceOk, .addDeviceOk]) ∧
  State.reset = launch .reset [] [] [] 0 Config.borderPort Config.cpuDiv Config.videoDiv
    ⟨Config.openBus, Config.tickQueueCap, Config.stopGrace⟩

/-- The values the spec gives after construction (R35, R290). The registers, memory contents and border
it leaves arbitrary are not stated here. -/
def Obligations.ConstructionLeavesTheStatedValues : Prop :=
  let s := State.reset
  s.r16 .pc = 0x0000#16 ∧ s.cpu.cyc = 0 ∧ s.cpu.phase = .idle ∧ s.cpu.queue = [] ∧
    s.bus.memRead = [] ∧ s.bus.memWrite = [] ∧ s.bus.ioRead = [] ∧ s.bus.ioWrite = [] ∧
    s.clock.ticks = 0 ∧ s.clock.control = [] ∧ s.status = .booting ∧
    s.devices.map Device.renderPos = [none, none, none, some 0] ∧
    s.devices.map Device.inbox = [[], [], [], []]

/-! ### Registers -/

/-- Composition is lossless and symmetric, a pair is a view of its halves (R13, R14), and an access of
the other width truncates or zero-extends (R20). -/
def Obligations.PairsAreViewsOfTheirHalves : Prop :=
  (∀ h l : Byte, decompose (compose h l) = (h, l) ∧
    (compose h l).toNat = h.toNat * 256 + l.toNat) ∧
  (∀ v : Word, compose (decompose v).1 (decompose v).2 = v) ∧
  (∀ (s : State) (q : Ent16) (hi lo : Ent8) (v : Word), q.halves = [hi, lo] →
    s.r16 q = compose (s.r8 hi) (s.r8 lo) ∧ (s.put16 q v).r8 hi = highByte v ∧
      (s.put16 q v).r8 lo = lowByte v ∧ (s.put16 q v).r16 q = v ∧
      ∀ b, highByte ((s.put8 hi b).r16 q) = b ∧ lowByte ((s.put8 hi b).r16 q) = s.r8 lo) ∧
  ∀ (r : RegFile) (p : Ent8) (q : Ent16) (b : Byte) (v : Word),
    r.readAs8 (.word q) = lowByte (r.readAs16 (.word q)) ∧
      (r.writeAs8 (.word q) b).readAs16 (.word q) = 0x00#8 ++ b ∧
      r.readAs16 (.byte p) = 0x00#8 ++ r.readAs8 (.byte p) ∧
      (r.writeAs16 (.byte p) v).readAs8 (.byte p) = lowByte v

/-- Which instruction reaches which register (R180 f, R210): only those named write a flag, the shadow
bank, `PC`, `SP`, `IX` or `IY`. -/
def Obligations.OnlyNamedInstructionsReachARegister : Prop :=
  ∀ (i : Instr) (s t : State), s.settled → exec i s = .next t →
    (i.writesFlags = false → t.r8 .f = s.r8 .f) ∧
    (i.exchangesBanks = false → ∀ q ∈ [Ent8.a', .f', .b', .c', .d', .e', .h', .l'],
      t.r8 q = s.r8 q) ∧
    (i.transfersControl = false → t.r16 .pc = s.r16 .pc) ∧
    (i.writesSp = false → t.r16 .sp = s.r16 .sp) ∧
    ((∀ nn, i ≠ .ldIxNn nn) → t.r16 .ix = s.r16 .ix) ∧
    ((∀ nn, i ≠ .ldIyNn nn) → t.r16 .iy = s.r16 .iy)

/-! ### Handlers -/

/-- Every instruction but the marked ones completes at its tabulated cost, from 1 to 19, wherever devices
answer, with or without address faults (R159, R267, R300); and so does every handler of every dispatch
trie the model admits, on any operand bytes, at a cost of at least 1 of its own (R159, R292 d). -/
def Obligations.EveryInstructionCompletesAtItsCost : Prop :=
  (∀ (i : Instr) (s : State), i.isNotImplemented = false → s.settled →
    ∃ t : State, exec i s = .next t ∧ Completed (costOf i s) s t ∧ 1 ≤ costOf i s ∧
      costOf i s ≤ 19) ∧
  ∀ (nops : Nat) (handler : List Byte → State → Result), HandlerWellFormed nops handler →
    ∀ (ops : List Byte) (s : State), ops.length = nops → s.settled →
      ∃ (t : State) (cost : Nat), handler ops s = .next t ∧ Completed cost s t ∧ 1 ≤ cost

/-- A handler, an instruction's or that of any admitted dispatch trie, reads nothing but the register
file and the replies of the Bus (R159): on two machines that agree on these it leaves the same
registers, devices and cost, whatever `cyc`, `ticks`, the queues or the host are. -/
def Obligations.HandlersReadOnlyRegistersAndReplies : Prop :=
  ∀ (handle : State → Result) (s s' t : State),
    ((∃ i : Instr, handle = exec i) ∨ ∃ (nops : Nat) (handler : List Byte → State → Result)
      (ops : List Byte), HandlerWellFormed nops handler ∧ ops.length = nops ∧
        handle = handler ops) →
    s'.cpu.regs = s.cpu.regs → s'.cpu.snapshot = s.cpu.snapshot →
    s'.devices = s.devices → s'.bus = s.bus → s'.conf.openBus = s.conf.openBus →
    s.cpu.phase = .executing → s'.cpu.phase = .executing → handle s = .next t →
    ∃ t' : State, handle s' = .next t' ∧ t'.cpu.regs = t.cpu.regs ∧ t'.devices = t.devices ∧
      t'.cpu.phase = t.cpu.phase ∧ (t.cpu.phase = .idle → t'.cpu.cyc = t.cpu.cyc)

/-- No instruction reaches a control state of the machine (R33): on any devices, the Clock, the tables,
the queues, the configuration and what the host sees stay, and of a device only what a request
changes. -/
def Obligations.ProgramsCannotReachControlState : Prop :=
  ∀ (i : Instr) (s t : State), exec i s = .next t →
    t.clock = s.clock ∧ t.bus = s.bus ∧ t.conf = s.conf ∧ t.inputs = s.inputs ∧
      t.hostOut = s.hostOut ∧ t.sched = s.sched ∧ t.cpu.queue = s.cpu.queue ∧
      t.cpu.snapshot = s.cpu.snapshot ∧
      t.devices.map Device.frame = s.devices.map Device.frame ∧
      (t.status = s.status ∨ ∃ f, t.status = .aborted f)

/-! ### Whole-machine rules -/

/-- Every step keeps device storage in canonical form and inside its length. The form (offsets strictly
rising, no cell equal to what an unlisted byte reads as) is the model's choice, not the spec's (log
entry 2, DESIGN CHOICE). -/
def Obligations.StorageStaysCanonical : Prop :=
  ∀ s t : State, s.storageWf → step s = .next t → t.storageWf

/-- The invariants hold right after construction (R35: `cyc` 0, queues empty). That storage is a canonical
list, and that it is empty then, is the model's choice (log entry 2, DESIGN CHOICE). -/
def Obligations.InvariantsHoldAfterConstruction : Prop :=
  State.reset.storageWf ∧ State.reset.cpu.cyc ≤ 18 ∧ State.reset.queuesBounded

/-- No step changes the contents of a ROM (R28, R51). -/
def Obligations.RomIsNeverChanged : Prop :=
  ∀ s t : State, step s = .next t →
    t.devices.map Device.romImage = s.devices.map Device.romImage

/-- No step moves a render position back (R30). -/
def Obligations.RenderPositionNeverDecreases : Prop :=
  ∀ (s t : State) (h p : Nat), step s = .next t →
    s.devices[h]?.bind Device.renderPos = some p →
    ∃ q, t.devices[h]?.bind Device.renderPos = some q ∧ p ≤ q

/-- After boot the tables, the declared ranges, the subsystems with their divisors and the configuration
are constant, and the machine never boots again (R25, R32, R290). -/
def Obligations.TablesAreStaticAfterBoot : Prop :=
  ∀ s t : State, s.status ≠ .booting → step s = .next t →
    t.status ≠ .booting ∧ { t.bus with alive := s.bus.alive } = s.bus ∧
      t.devices.map Device.decl = s.devices.map Device.decl ∧
      t.clock.subsystems = s.clock.subsystems ∧ t.conf = s.conf

/-- After boot only the CPU reaches a device through the Bus (R41, R279): the action of any other agent
leaves what every device holds, whatever dispatch trie the machine was built with. -/
def Obligations.OnlyTheCpuReachesDevicesAfterBoot : Prop :=
  ∀ (dt : DispatchTrie) (s t : State) (x : Agent), s.status = .running → x ≠ .cpu →
    act dt x s = .next t →
    t.devices.map (fun d => d.withoutVideo.kind) = s.devices.map (fun d => d.withoutVideo.kind)

/-- The reference machine stays the reference machine, and no step of it raises `FetchFault` or
`ProtocolViolation`: it aborts only at a marked entry or on a peer that is gone (R262, R265). -/
def Obligations.ReferenceMachineNeverFetchFaults : Prop :=
  ∀ (s t : State) (port : Word), s.soundReference port → step s = .next t →
    t.soundReference port ∧ ∀ f, t.status = .aborted f → s.status = .aborted f ∨
      (∃ pc path, f = .notImplemented pc path) ∨ (∃ sub : SubId, f = .channelClosed sub.peer) ∨
      f = .channelClosed .clock ∧ s.clock.phase = .dead

/-- Nothing but the video layer depends on the render position or on what was handed to it (R56): two
machines that differ only there take steps that differ only there. -/
def Obligations.VideoNeverReachesTheRest : Prop :=
  ∀ s t : State, s.sameButVideo t → sameResultButVideo (step s) (step t)
end

