-- ==== Sys2Proof/Laws/State.lean ====
section
/-! SUPPORT. One lemma per field per update of State, each by `rfl`. -/

namespace Sys2Proof.Machine

@[simp] theorem State.withRegs_status (s : State) (r : RegFile) : (s.withRegs r).status = s.status := rfl
@[simp] theorem State.withRegs_conf (s : State) (r : RegFile) : (s.withRegs r).conf = s.conf := rfl
@[simp] theorem State.withRegs_bus (s : State) (r : RegFile) : (s.withRegs r).bus = s.bus := rfl
@[simp] theorem State.withRegs_devices (s : State) (r : RegFile) : (s.withRegs r).devices = s.devices := rfl
@[simp] theorem State.withRegs_clock (s : State) (r : RegFile) : (s.withRegs r).clock = s.clock := rfl
@[simp] theorem State.withRegs_inputs (s : State) (r : RegFile) : (s.withRegs r).inputs = s.inputs := rfl
@[simp] theorem State.withRegs_hostOut (s : State) (r : RegFile) : (s.withRegs r).hostOut = s.hostOut := rfl
@[simp] theorem State.withRegs_sched (s : State) (r : RegFile) : (s.withRegs r).sched = s.sched := rfl
@[simp] theorem State.put8_status (s : State) (q : Ent8) (v : Byte) : (s.put8 q v).status = s.status := rfl
@[simp] theorem State.put8_conf (s : State) (q : Ent8) (v : Byte) : (s.put8 q v).conf = s.conf := rfl
@[simp] theorem State.put8_bus (s : State) (q : Ent8) (v : Byte) : (s.put8 q v).bus = s.bus := rfl
@[simp] theorem State.put8_devices (s : State) (q : Ent8) (v : Byte) : (s.put8 q v).devices = s.devices := rfl
@[simp] theorem State.put8_clock (s : State) (q : Ent8) (v : Byte) : (s.put8 q v).clock = s.clock := rfl
@[simp] theorem State.put8_inputs (s : State) (q : Ent8) (v : Byte) : (s.put8 q v).inputs = s.inputs := rfl
@[simp] theorem State.put8_hostOut (s : State) (q : Ent8) (v : Byte) : (s.put8 q v).hostOut = s.hostOut := rfl
@[simp] theorem State.put8_sched (s : State) (q : Ent8) (v : Byte) : (s.put8 q v).sched = s.sched := rfl
@[simp] theorem State.put16_status (s : State) (q : Ent16) (v : Word) : (s.put16 q v).status = s.status := rfl
@[simp] theorem State.put16_conf (s : State) (q : Ent16) (v : Word) : (s.put16 q v).conf = s.conf := rfl
@[simp] theorem State.put16_bus (s : State) (q : Ent16) (v : Word) : (s.put16 q v).bus = s.bus := rfl
@[simp] theorem State.put16_devices (s : State) (q : Ent16) (v : Word) : (s.put16 q v).devices = s.devices := rfl
@[simp] theorem State.put16_clock (s : State) (q : Ent16) (v : Word) : (s.put16 q v).clock = s.clock := rfl
@[simp] theorem State.put16_inputs (s : State) (q : Ent16) (v : Word) : (s.put16 q v).inputs = s.inputs := rfl
@[simp] theorem State.put16_hostOut (s : State) (q : Ent16) (v : Word) : (s.put16 q v).hostOut = s.hostOut := rfl
@[simp] theorem State.put16_sched (s : State) (q : Ent16) (v : Word) : (s.put16 q v).sched = s.sched := rfl
@[simp] theorem State.putReg_status (s : State) (r : Reg8) (v : Byte) : (s.putReg r v).status = s.status := rfl
@[simp] theorem State.putReg_conf (s : State) (r : Reg8) (v : Byte) : (s.putReg r v).conf = s.conf := rfl
@[simp] theorem State.putReg_bus (s : State) (r : Reg8) (v : Byte) : (s.putReg r v).bus = s.bus := rfl
@[simp] theorem State.putReg_devices (s : State) (r : Reg8) (v : Byte) : (s.putReg r v).devices = s.devices := rfl
@[simp] theorem State.putReg_clock (s : State) (r : Reg8) (v : Byte) : (s.putReg r v).clock = s.clock := rfl
@[simp] theorem State.putReg_inputs (s : State) (r : Reg8) (v : Byte) : (s.putReg r v).inputs = s.inputs := rfl
@[simp] theorem State.putReg_hostOut (s : State) (r : Reg8) (v : Byte) : (s.putReg r v).hostOut = s.hostOut := rfl
@[simp] theorem State.putReg_sched (s : State) (r : Reg8) (v : Byte) : (s.putReg r v).sched = s.sched := rfl
@[simp] theorem jump_status (s : State) (v : Word) : (jump v s).status = s.status := rfl
@[simp] theorem jump_conf (s : State) (v : Word) : (jump v s).conf = s.conf := rfl
@[simp] theorem jump_bus (s : State) (v : Word) : (jump v s).bus = s.bus := rfl
@[simp] theorem jump_devices (s : State) (v : Word) : (jump v s).devices = s.devices := rfl
@[simp] theorem jump_clock (s : State) (v : Word) : (jump v s).clock = s.clock := rfl
@[simp] theorem jump_inputs (s : State) (v : Word) : (jump v s).inputs = s.inputs := rfl
@[simp] theorem jump_hostOut (s : State) (v : Word) : (jump v s).hostOut = s.hostOut := rfl
@[simp] theorem jump_sched (s : State) (v : Word) : (jump v s).sched = s.sched := rfl
@[simp] theorem State.withQueue_status (s : State) (q : List ClockMsg) : (s.withQueue q).status = s.status := rfl
@[simp] theorem State.withQueue_conf (s : State) (q : List ClockMsg) : (s.withQueue q).conf = s.conf := rfl
@[simp] theorem State.withQueue_bus (s : State) (q : List ClockMsg) : (s.withQueue q).bus = s.bus := rfl
@[simp] theorem State.withQueue_devices (s : State) (q : List ClockMsg) : (s.withQueue q).devices = s.devices := rfl
@[simp] theorem State.withQueue_clock (s : State) (q : List ClockMsg) : (s.withQueue q).clock = s.clock := rfl
@[simp] theorem State.withQueue_inputs (s : State) (q : List ClockMsg) : (s.withQueue q).inputs = s.inputs := rfl
@[simp] theorem State.withQueue_hostOut (s : State) (q : List ClockMsg) : (s.withQueue q).hostOut = s.hostOut := rfl
@[simp] theorem State.withQueue_sched (s : State) (q : List ClockMsg) : (s.withQueue q).sched = s.sched := rfl
@[simp] theorem restoreSnapshot_status (s : State) : (restoreSnapshot s).status = s.status := rfl
@[simp] theorem restoreSnapshot_conf (s : State) : (restoreSnapshot s).conf = s.conf := rfl
@[simp] theorem restoreSnapshot_bus (s : State) : (restoreSnapshot s).bus = s.bus := rfl
@[simp] theorem restoreSnapshot_devices (s : State) : (restoreSnapshot s).devices = s.devices := rfl
@[simp] theorem restoreSnapshot_clock (s : State) : (restoreSnapshot s).clock = s.clock := rfl
@[simp] theorem restoreSnapshot_inputs (s : State) : (restoreSnapshot s).inputs = s.inputs := rfl
@[simp] theorem restoreSnapshot_hostOut (s : State) : (restoreSnapshot s).hostOut = s.hostOut := rfl
@[simp] theorem restoreSnapshot_sched (s : State) : (restoreSnapshot s).sched = s.sched := rfl
@[simp] theorem beginFetch_status (s : State) : (beginFetch s).status = s.status := rfl
@[simp] theorem beginFetch_conf (s : State) : (beginFetch s).conf = s.conf := rfl
@[simp] theorem beginFetch_bus (s : State) : (beginFetch s).bus = s.bus := rfl
@[simp] theorem beginFetch_devices (s : State) : (beginFetch s).devices = s.devices := rfl
@[simp] theorem beginFetch_clock (s : State) : (beginFetch s).clock = s.clock := rfl
@[simp] theorem beginFetch_inputs (s : State) : (beginFetch s).inputs = s.inputs := rfl
@[simp] theorem beginFetch_hostOut (s : State) : (beginFetch s).hostOut = s.hostOut := rfl
@[simp] theorem beginFetch_sched (s : State) : (beginFetch s).sched = s.sched := rfl
@[simp] theorem raiseFatal_conf (s : State) (f : Fatal) : (raiseFatal f s).conf = s.conf := rfl
@[simp] theorem raiseFatal_bus (s : State) (f : Fatal) : (raiseFatal f s).bus = s.bus := rfl
@[simp] theorem raiseFatal_devices (s : State) (f : Fatal) : (raiseFatal f s).devices = s.devices := rfl
@[simp] theorem raiseFatal_cpu (s : State) (f : Fatal) : (raiseFatal f s).cpu = s.cpu := rfl
@[simp] theorem raiseFatal_clock (s : State) (f : Fatal) : (raiseFatal f s).clock = s.clock := rfl
@[simp] theorem raiseFatal_inputs (s : State) (f : Fatal) : (raiseFatal f s).inputs = s.inputs := rfl
@[simp] theorem raiseFatal_hostOut (s : State) (f : Fatal) : (raiseFatal f s).hostOut = s.hostOut := rfl
@[simp] theorem raiseFatal_sched (s : State) (f : Fatal) : (raiseFatal f s).sched = s.sched := rfl
@[simp] theorem State.withClockPhase_status (s : State) (p : ClockPhase) : (s.withClockPhase p).status = s.status := rfl
@[simp] theorem State.withClockPhase_conf (s : State) (p : ClockPhase) : (s.withClockPhase p).conf = s.conf := rfl
@[simp] theorem State.withClockPhase_bus (s : State) (p : ClockPhase) : (s.withClockPhase p).bus = s.bus := rfl
@[simp] theorem State.withClockPhase_devices (s : State) (p : ClockPhase) : (s.withClockPhase p).devices = s.devices := rfl
@[simp] theorem State.withClockPhase_cpu (s : State) (p : ClockPhase) : (s.withClockPhase p).cpu = s.cpu := rfl
@[simp] theorem State.withClockPhase_inputs (s : State) (p : ClockPhase) : (s.withClockPhase p).inputs = s.inputs := rfl
@[simp] theorem State.withClockPhase_hostOut (s : State) (p : ClockPhase) : (s.withClockPhase p).hostOut = s.hostOut := rfl
@[simp] theorem State.withClockPhase_sched (s : State) (p : ClockPhase) : (s.withClockPhase p).sched = s.sched := rfl
@[simp] theorem State.answerHost_status (s : State) (r : HostReply) : (s.answerHost r).status = s.status := rfl
@[simp] theorem State.answerHost_conf (s : State) (r : HostReply) : (s.answerHost r).conf = s.conf := rfl
@[simp] theorem State.answerHost_bus (s : State) (r : HostReply) : (s.answerHost r).bus = s.bus := rfl
@[simp] theorem State.answerHost_devices (s : State) (r : HostReply) : (s.answerHost r).devices = s.devices := rfl
@[simp] theorem State.answerHost_cpu (s : State) (r : HostReply) : (s.answerHost r).cpu = s.cpu := rfl
@[simp] theorem State.answerHost_clock (s : State) (r : HostReply) : (s.answerHost r).clock = s.clock := rfl
@[simp] theorem State.answerHost_inputs (s : State) (r : HostReply) : (s.answerHost r).inputs = s.inputs := rfl
@[simp] theorem State.answerHost_sched (s : State) (r : HostReply) : (s.answerHost r).sched = s.sched := rfl
@[simp] theorem State.withRegs_cpu_snapshot (s : State) (r : RegFile) : (s.withRegs r).cpu.snapshot = s.cpu.snapshot := rfl
@[simp] theorem State.withRegs_cpu_cyc (s : State) (r : RegFile) : (s.withRegs r).cpu.cyc = s.cpu.cyc := rfl
@[simp] theorem State.withRegs_cpu_phase (s : State) (r : RegFile) : (s.withRegs r).cpu.phase = s.cpu.phase := rfl
@[simp] theorem State.withRegs_cpu_queue (s : State) (r : RegFile) : (s.withRegs r).cpu.queue = s.cpu.queue := rfl
@[simp] theorem State.put8_cpu_snapshot (s : State) (q : Ent8) (v : Byte) : (s.put8 q v).cpu.snapshot = s.cpu.snapshot := rfl
@[simp] theorem State.put8_cpu_cyc (s : State) (q : Ent8) (v : Byte) : (s.put8 q v).cpu.cyc = s.cpu.cyc := rfl
@[simp] theorem State.put8_cpu_phase (s : State) (q : Ent8) (v : Byte) : (s.put8 q v).cpu.phase = s.cpu.phase := rfl
@[simp] theorem State.put8_cpu_queue (s : State) (q : Ent8) (v : Byte) : (s.put8 q v).cpu.queue = s.cpu.queue := rfl
@[simp] theorem State.put16_cpu_snapshot (s : State) (q : Ent16) (v : Word) : (s.put16 q v).cpu.snapshot = s.cpu.snapshot := rfl
@[simp] theorem State.put16_cpu_cyc (s : State) (q : Ent16) (v : Word) : (s.put16 q v).cpu.cyc = s.cpu.cyc := rfl
@[simp] theorem State.put16_cpu_phase (s : State) (q : Ent16) (v : Word) : (s.put16 q v).cpu.phase = s.cpu.phase := rfl
@[simp] theorem State.put16_cpu_queue (s : State) (q : Ent16) (v : Word) : (s.put16 q v).cpu.queue = s.cpu.queue := rfl
@[simp] theorem State.putReg_cpu_snapshot (s : State) (r : Reg8) (v : Byte) : (s.putReg r v).cpu.snapshot = s.cpu.snapshot := rfl
@[simp] theorem State.putReg_cpu_cyc (s : State) (r : Reg8) (v : Byte) : (s.putReg r v).cpu.cyc = s.cpu.cyc := rfl
@[simp] theorem State.putReg_cpu_phase (s : State) (r : Reg8) (v : Byte) : (s.putReg r v).cpu.phase = s.cpu.phase := rfl
@[simp] theorem State.putReg_cpu_queue (s : State) (r : Reg8) (v : Byte) : (s.putReg r v).cpu.queue = s.cpu.queue := rfl
@[simp] theorem jump_cpu_snapshot (s : State) (v : Word) : (jump v s).cpu.snapshot = s.cpu.snapshot := rfl
@[simp] theorem jump_cpu_cyc (s : State) (v : Word) : (jump v s).cpu.cyc = s.cpu.cyc := rfl
@[simp] theorem jump_cpu_phase (s : State) (v : Word) : (jump v s).cpu.phase = s.cpu.phase := rfl
@[simp] theorem jump_cpu_queue (s : State) (v : Word) : (jump v s).cpu.queue = s.cpu.queue := rfl
@[simp] theorem State.withQueue_cpu_regs (s : State) (q : List ClockMsg) : (s.withQueue q).cpu.regs = s.cpu.regs := rfl
@[simp] theorem State.withQueue_cpu_snapshot (s : State) (q : List ClockMsg) : (s.withQueue q).cpu.snapshot = s.cpu.snapshot := rfl
@[simp] theorem State.withQueue_cpu_cyc (s : State) (q : List ClockMsg) : (s.withQueue q).cpu.cyc = s.cpu.cyc := rfl
@[simp] theorem State.withQueue_cpu_phase (s : State) (q : List ClockMsg) : (s.withQueue q).cpu.phase = s.cpu.phase := rfl
@[simp] theorem restoreSnapshot_cpu_snapshot (s : State) : (restoreSnapshot s).cpu.snapshot = s.cpu.snapshot := rfl
@[simp] theorem restoreSnapshot_cpu_cyc (s : State) : (restoreSnapshot s).cpu.cyc = s.cpu.cyc := rfl
@[simp] theorem restoreSnapshot_cpu_phase (s : State) : (restoreSnapshot s).cpu.phase = s.cpu.phase := rfl
@[simp] theorem restoreSnapshot_cpu_queue (s : State) : (restoreSnapshot s).cpu.queue = s.cpu.queue := rfl
@[simp] theorem beginFetch_cpu_regs (s : State) : (beginFetch s).cpu.regs = s.cpu.regs := rfl
@[simp] theorem beginFetch_cpu_cyc (s : State) : (beginFetch s).cpu.cyc = s.cpu.cyc := rfl
@[simp] theorem beginFetch_cpu_queue (s : State) : (beginFetch s).cpu.queue = s.cpu.queue := rfl

@[simp] theorem State.withRegs_cpu_regs (s : State) (r : RegFile) : (s.withRegs r).cpu.regs = r := rfl
@[simp] theorem State.withQueue_cpu_queue (s : State) (q : List ClockMsg) :
    (s.withQueue q).cpu.queue = q := rfl
@[simp] theorem restoreSnapshot_cpu_regs (s : State) :
    (restoreSnapshot s).cpu.regs = s.cpu.snapshot := rfl
@[simp] theorem beginFetch_cpu_snapshot (s : State) :
    (beginFetch s).cpu.snapshot = s.cpu.regs := rfl
@[simp] theorem beginFetch_cpu_phase (s : State) : (beginFetch s).cpu.phase = .fetching := rfl
@[simp] theorem beginHandler_cpu_phase (a : Word) (s : State) :
    (beginHandler a s).cpu.phase = .executing := rfl
@[simp] theorem beginHandler_cpu_regs (a : Word) (s : State) :
    (beginHandler a s).cpu.regs = { s.cpu.regs with pc := a } := rfl
@[simp] theorem beginHandler_cpu_queue (a : Word) (s : State) :
    (beginHandler a s).cpu.queue = s.cpu.queue := rfl
@[simp] theorem Device.gone_withInbox (d : Device) (m : List ClockMsg) :
    { d with inbox := m : Device }.gone = d.gone := rfl
@[simp] theorem raiseFatal_status (s : State) (f : Fatal) :
    (raiseFatal f s).status = .aborted f := rfl
@[simp] theorem State.withClockPhase_clock_phase (s : State) (p : ClockPhase) :
    (s.withClockPhase p).clock.phase = p := rfl
@[simp] theorem State.withClockPhase_clock_ticks (s : State) (p : ClockPhase) :
    (s.withClockPhase p).clock.ticks = s.clock.ticks := rfl
@[simp] theorem State.withClockPhase_clock_subsystems (s : State) (p : ClockPhase) :
    (s.withClockPhase p).clock.subsystems = s.clock.subsystems := rfl
@[simp] theorem State.withClockPhase_clock_control (s : State) (p : ClockPhase) :
    (s.withClockPhase p).clock.control = s.clock.control := rfl

@[simp] theorem State.withRegs_withRegs (s : State) (r r' : RegFile) :
    (s.withRegs r).withRegs r' = s.withRegs r' := rfl

end Sys2Proof.Machine
end

