-- ==== Sys2Proof/Laws/Bus.lean ====
section
/-! SUPPORT. One lemma per shared operation: what a Bus transaction, a data access and a stack
operation do on a machine whose devices answer (`State.settled`). -/

namespace Sys2Proof.Machine

/-! ### The read-only views see only the Bus and the devices -/

@[simp] theorem State.peek_withRegs (s : State) (r : RegFile) : (s.withRegs r).peek = s.peek := rfl
@[simp] theorem State.peek_put8 (s : State) (q : Ent8) (v : Byte) : (s.put8 q v).peek = s.peek := rfl
@[simp] theorem State.peek_put16 (s : State) (q : Ent16) (v : Word) :
    (s.put16 q v).peek = s.peek := rfl
@[simp] theorem State.readValue_put8 (s : State) (q : Ent8) (v : Byte) :
    (s.put8 q v).readValue = s.readValue := rfl
@[simp] theorem State.readValue_put16 (s : State) (q : Ent16) (v : Word) :
    (s.put16 q v).readValue = s.readValue := rfl
@[simp] theorem State.settled_put8 (s : State) (q : Ent8) (v : Byte) :
    (s.put8 q v).settled = s.settled := rfl
@[simp] theorem State.settled_put16 (s : State) (q : Ent16) (v : Word) :
    (s.put16 q v).settled = s.settled := rfl

theorem State.peek_congr {s t : State} (hb : t.bus = s.bus) (hd : t.devices = s.devices) :
    t.peek = s.peek := by
  funext sp a
  simp only [State.peek, hb, hd]

theorem State.settled_congr {s t : State} (hb : t.bus = s.bus) (hd : t.devices = s.devices) :
    t.settled = s.settled := by
  simp only [State.settled, hb, hd]

/-! ### What a settled machine is made of -/

theorem State.settled_alive {s : State} (h : s.settled) : s.bus.alive = true := by
  simp only [State.settled, Bool.and_eq_true] at h
  exact h.1.1

/-- A routed access reaches a live device that is not scripted. -/
theorem State.settled_device {s : State} (h : s.settled) {sp : Space} {dir : Dir} {a : Word}
    {m : MapEntry} (hm : lookup (s.bus.table sp dir) a = some m) :
    ∃ d, s.devices[m.dev]? = some d ∧ d.alive = true ∧ d.isScripted = false := by
  have hmem : m ∈ s.bus.table sp dir := by
    have := List.mem_of_find?_eq_some hm
    simpa using this
  simp only [State.settled, Bool.and_eq_true, List.all_cons, List.all_nil, List.all_eq_true,
    decide_eq_true_eq] at h
  obtain ⟨⟨-, hd⟩, h1, h2, h3, h4, -⟩ := h
  have hlt : m.dev < s.devices.length := by
    cases sp <;> cases dir
    · exact h1 m hmem
    · exact h2 m hmem
    · exact h3 m hmem
    · exact h4 m hmem
  have := hd (s.devices[m.dev]) (List.getElem_mem hlt)
  simp only [Bool.not_eq_true'] at this
  exact ⟨s.devices[m.dev], by simp [hlt], this.1, this.2⟩

theorem setDevices_self (s : State) {h : Nat} {d : Device} (hd : s.devices[h]? = some d) :
    { s with devices := s.devices.set h d } = s := by
  have : s.devices.set h d = s.devices := by
    apply List.ext_getElem?
    intro i
    by_cases hi : h = i
    · subst hi
      have hlt : h < s.devices.length := by
        by_contra hc
        simp [List.getElem?_eq_none (Nat.le_of_not_lt hc)] at hd
      simp [hlt, ← hd]
    · simp [hi]
  rw [this]

theorem modifyDevices_of_getElem? (l : List Device) (h : Nat) (d : Device) (f : Device → Device)
    (hd : l[h]? = some d) : l.modify h f = l.set h (f d) := by
  apply List.ext_getElem?
  intro i
  by_cases hi : h = i
  · subst hi
    have hlt : h < l.length := by
      by_contra hc
      simp [List.getElem?_eq_none (Nat.le_of_not_lt hc)] at hd
    have hg : l[h] = d := by simpa [hlt] using hd
    simp [hlt, hg]
  · simp [hi]

/-! ### Bus transactions -/

/-- A read on a settled machine changes nothing and answers the byte that is there (R64, R115). -/
theorem busRead_settled {s : State} (h : s.settled) (sp : Space) (a : Word) :
    busRead sp a s = match s.peek sp a with
      | some b => .ok b s
      | none => .addressFault s := by
  simp only [busRead, State.settled_alive h, if_true, State.peek]
  cases hm : lookup (s.bus.table sp .read) a with
  | none => rfl
  | some m =>
    obtain ⟨d, hd, ha, hk⟩ := State.settled_device h hm
    have hself := setDevices_self s hd
    obtain ⟨decl, kind, alive, reg, inbox, exited⟩ := d
    simp only [Device.isScripted] at ha hk
    subst ha
    cases kind with
    | scripted script => simp at hk
    | rom len cells =>
      cases sp <;> simp only [askDevice, hd, Device.serve, Device.peek, readRequest, serveRom, if_true, hself] <;>
        (try split) <;> simp [finishRead]
    | ram len cells =>
      cases sp <;> simp only [askDevice, hd, Device.serve, Device.peek, readRequest, serveRam, if_true, hself] <;>
        (try split) <;> simp [finishRead]
    | display u =>
      cases sp <;> simp only [askDevice, hd, Device.serve, Device.peek, readRequest, serveDisplay, if_true, hself] <;>
        (try split) <;> simp [finishRead]

/-- A data read on a settled machine continues with the byte there, or `OPEN_BUS` (R163, R165). -/
theorem dataRead_settled {s : State} (h : s.settled) (sp : Space) (a : Word)
    (k : Byte → State → Result) : dataRead sp a s k = k (s.readValue sp a) s := by
  simp only [dataRead, busRead_settled h, State.readValue]
  cases s.peek sp a <;> rfl

/-- A write on a settled machine leaves the store done, or dropped (R64, R116). -/
theorem busWrite_settled {s : State} (h : s.settled) (sp : Space) (a : Word) (v : Byte) :
    busWrite sp a v s = .ok () (s.afterStore sp a v) ∨
      busWrite sp a v s = .addressFault (s.afterStore sp a v) := by
  simp only [busWrite, State.settled_alive h, if_true, State.afterStore]
  cases hm : lookup (s.bus.table sp .write) a with
  | none => exact .inr rfl
  | some m =>
    obtain ⟨d, hd, ha, hk⟩ := State.settled_device h hm
    have hself := setDevices_self s hd
    simp only [modifyDevices_of_getElem? _ _ d _ hd]
    obtain ⟨decl, kind, alive, reg, inbox, exited⟩ := d
    simp only [Device.isScripted] at ha hk
    subst ha
    cases kind with
    | scripted script => simp at hk
    | rom len cells =>
      cases sp <;>
        simp [askDevice, hd, Device.serve, Device.store, writeRequest, serveRom, hself, finishWrite]
    | ram len cells =>
      by_cases ho : (m.offset a).toNat < len <;> cases sp <;>
        simp [askDevice, hd, Device.serve, Device.store, writeRequest, serveRam, hself, finishWrite, ho]
    | display u =>
      by_cases ho : m.offset a = 0#16 <;> cases sp <;>
        simp [askDevice, hd, Device.serve, Device.store, writeRequest, serveDisplay, hself, finishWrite, ho]

/-- A data write on a settled machine continues with the store done, or dropped (R164, R165). -/
theorem dataWrite_settled {s : State} (h : s.settled) (sp : Space) (a : Word) (v : Byte)
    (k : State → Result) : dataWrite sp a v s k = k (s.afterStore sp a v) := by
  rcases busWrite_settled h sp a v with e | e <;> simp only [dataWrite, e]

/-! ### What a store keeps -/

@[simp] theorem State.afterStore_status (s : State) (sp : Space) (a : Word) (v : Byte) :
    (s.afterStore sp a v).status = s.status := by unfold State.afterStore; split <;> rfl
@[simp] theorem State.afterStore_conf (s : State) (sp : Space) (a : Word) (v : Byte) :
    (s.afterStore sp a v).conf = s.conf := by unfold State.afterStore; split <;> rfl
@[simp] theorem State.afterStore_bus (s : State) (sp : Space) (a : Word) (v : Byte) :
    (s.afterStore sp a v).bus = s.bus := by unfold State.afterStore; split <;> rfl
@[simp] theorem State.afterStore_cpu (s : State) (sp : Space) (a : Word) (v : Byte) :
    (s.afterStore sp a v).cpu = s.cpu := by unfold State.afterStore; split <;> rfl
@[simp] theorem State.afterStore_clock (s : State) (sp : Space) (a : Word) (v : Byte) :
    (s.afterStore sp a v).clock = s.clock := by unfold State.afterStore; split <;> rfl
@[simp] theorem State.afterStore_inputs (s : State) (sp : Space) (a : Word) (v : Byte) :
    (s.afterStore sp a v).inputs = s.inputs := by unfold State.afterStore; split <;> rfl
@[simp] theorem State.afterStore_hostOut (s : State) (sp : Space) (a : Word) (v : Byte) :
    (s.afterStore sp a v).hostOut = s.hostOut := by unfold State.afterStore; split <;> rfl
@[simp] theorem State.afterStore_sched (s : State) (sp : Space) (a : Word) (v : Byte) :
    (s.afterStore sp a v).sched = s.sched := by unfold State.afterStore; split <;> rfl
@[simp] theorem State.afterStore_r8 (s : State) (sp : Space) (a : Word) (v : Byte) (q : Ent8) :
    (s.afterStore sp a v).r8 q = s.r8 q := by unfold State.afterStore; split <;> rfl
@[simp] theorem State.afterStore_r16 (s : State) (sp : Space) (a : Word) (v : Byte) (q : Ent16) :
    (s.afterStore sp a v).r16 q = s.r16 q := by unfold State.afterStore; split <;> rfl

@[simp] theorem Device.store_alive (d : Device) (sp : Space) (o : Word) (v : Byte) :
    (d.store sp o v).alive = d.alive := by
  unfold Device.store
  (repeat' split) <;> rfl

@[simp] theorem Device.store_isScripted (d : Device) (sp : Space) (o : Word) (v : Byte) :
    (d.store sp o v).isScripted = d.isScripted := by
  obtain ⟨decl, kind, alive, reg, inbox, exited⟩ := d
  cases kind <;> cases sp <;> simp only [Device.store] <;> (try split) <;> rfl

theorem all_modify_of {p : Device → Bool} (f : Device → Device) (hf : ∀ d, p d = true → p (f d) = true) :
    ∀ (l : List Device) (h : Nat), l.all p = true → (l.modify h f).all p = true := by
  intro l
  induction l with
  | nil => intro h _; simp
  | cons d l ih =>
    intro h hl
    simp only [List.all_cons, Bool.and_eq_true] at hl
    cases h with
    | zero => simp only [List.modify_zero_cons, List.all_cons, Bool.and_eq_true]; exact ⟨hf d hl.1, hl.2⟩
    | succ h =>
      simp only [List.modify_succ_cons, List.all_cons, Bool.and_eq_true]
      exact ⟨hl.1, ih h hl.2⟩

/-- A store keeps the machine settled. -/
theorem State.settled_afterStore {s : State} (h : s.settled) (sp : Space) (a : Word) (v : Byte) :
    (s.afterStore sp a v).settled := by
  unfold State.afterStore
  split
  · exact h
  · simp only [State.settled, Bool.and_eq_true, List.length_modify] at h ⊢
    exact ⟨⟨h.1.1, all_modify_of _ (fun d hd => by simpa using hd) _ _ h.1.2⟩, h.2⟩

/-- The reference machine is settled. -/
theorem State.settled_of_isReference {s : State} {port : Word} (h : s.isReference port) :
    s.settled := by
  simp only [State.isReference, Bool.and_eq_true, decide_eq_true_eq] at h
  obtain ⟨hb, hd⟩ := h
  split at hd
  · rename_i d0 d1 d2 d3 heq
    simp only [Device.isRom, Device.isRam, Device.isDisplay, Bool.and_eq_true] at hd
    simp only [State.settled, hb, heq, Bus.reference]
    obtain ⟨⟨⟨h0, h1⟩, h2⟩, h3⟩ := hd
    have n0 : d0.isScripted = false := by
      have := h0.2
      unfold Device.isScripted
      split at this <;> simp_all
    have n1 : d1.isScripted = false := by
      have := h1.2
      unfold Device.isScripted
      split at this <;> simp_all
    have n2 : d2.isScripted = false := by
      have := h2.2
      unfold Device.isScripted
      split at this <;> simp_all
    have n3 : d3.isScripted = false := by
      have := h3.2
      unfold Device.isScripted
      split at this <;> simp_all
    simp [h0.1, h1.1, h2.1, h3.1, n0, n1, n2, n3]
  · simp at hd

/-! ### The stack on a settled machine -/

/-- A push decrements `SP` and stores (R193). -/
theorem pushByte_settled {s : State} (h : s.settled) (v : Byte) (k : State → Result) :
    pushByte v s k =
      k ((s.put16 .sp (s.r16 .sp - 1#16)).afterStore .mem ((s.put16 .sp (s.r16 .sp - 1#16)).r16 .sp) v) :=
  dataWrite_settled (s := s.put16 .sp (s.r16 .sp - 1#16)) h .mem _ v k

/-- A pop reads and increments `SP` (R194). -/
theorem popByte_settled {s : State} (h : s.settled) (k : Byte → State → Result) :
    popByte s k = k (s.readValue .mem (s.r16 .sp)) (s.put16 .sp (s.r16 .sp + 1#16)) :=
  dataRead_settled h .mem _ _

end Sys2Proof.Machine
end

