-- ==== Sys2Proof/Laws/Clock.lean ====
section
/-! SUPPORT. The Clock said once: what sending leaves in the queues, what a whole fan-out leaves, and actions
in a row (R131 to R138). -/

namespace Sys2Proof.Machine

/-- Sending closes and opens no queue. -/
theorem State.closed_enqueue (s : State) (x y : SubId) (m : ClockMsg) :
    (s.enqueue x m).closed y = s.closed y := by
  cases x with
  | cpu => cases y <;> rfl
  | device n =>
    cases y with
    | cpu => rfl
    | device k =>
      simp only [State.closed, State.enqueue, List.getElem?_modify]
      cases s.devices[k]? with
      | none => rfl
      | some d => by_cases h : n = k <;> simp [h]

/-- A message goes to the end of the one queue it is sent to. -/
theorem State.queueOf_enqueue (s : State) (x y : SubId) (m : ClockMsg) (h : s.closed x = false) :
    (s.enqueue x m).queueOf y = s.queueOf y ++ if x = y then [m] else [] := by
  cases x with
  | cpu => cases y <;> simp [State.queueOf, State.enqueue]
  | device n =>
    cases y with
    | cpu => simp [State.queueOf, State.enqueue]
    | device k =>
      simp only [State.queueOf, State.enqueue, List.getElem?_modify]
      by_cases hk : n = k
      · subst hk
        simp only [State.closed] at h
        cases hd : s.devices[n]? <;> simp [hd] at h ⊢
      · cases s.devices[k]? <;> simp [hk]

theorem sendTo_open {s : State} {x : SubId} {m : ClockMsg} (h : s.closed x = false) :
    sendTo x m s = s.enqueue x m := by
  unfold sendTo; simp [h]

theorem State.enqueue_clock (s : State) (x : SubId) (m : ClockMsg) :
    (s.enqueue x m).clock = s.clock := by cases x <;> rfl

theorem State.enqueue_conf (s : State) (x : SubId) (m : ClockMsg) :
    (s.enqueue x m).conf = s.conf := by cases x <;> rfl

theorem State.closed_withClockPhase (s : State) (p : ClockPhase) (x : SubId) :
    (s.withClockPhase p).closed x = s.closed x := by cases x <;> rfl

theorem State.queueOf_withClockPhase (s : State) (p : ClockPhase) (x : SubId) :
    (s.withClockPhase p).queueOf x = s.queueOf x := by cases x <;> rfl

/-- What a subsystem with divisor `d` is sent in the fan-out of the present iteration, or of Stop. -/
def State.sent (s : State) (stop : Bool) (d : Nat) : List ClockMsg :=
  if stop then [.stop] else if s.clock.ticks % d = 0 then [.tick] else []

/-- The fan-out to a list of subsystems, of Ticks or of `Stop`, one action each. -/
theorem fanOut_runs (stop : Bool) (rest : List (SubId × Nat)) (s : State)
    (hp : s.clock.phase = if stop then .stopOut rest else .fanOut rest)
    (hn : (rest.map Prod.fst).Nodup)
    (hr : ∀ p ∈ rest, (stop = false → 1 ≤ p.2) ∧ s.closed p.1 = false) :
    ∃ t, runFor clockStep rest.length s = .next t ∧
      t.clock = { s.clock with phase := if stop then .stopOut [] else .fanOut [] } ∧
      (∀ x, t.closed x = s.closed x) ∧ t.conf = s.conf ∧
      (∀ x, x ∉ rest.map Prod.fst → t.queueOf x = s.queueOf x) ∧
      ∀ p ∈ rest, t.queueOf p.1 = s.queueOf p.1 ++ s.sent stop p.2 := by
  induction rest generalizing s with
  | nil =>
    refine ⟨s, rfl, ?_, fun _ => rfl, rfl, fun _ _ => rfl, fun p hp => by simp at hp⟩
    rw [← hp]
  | cons p rest ih =>
    obtain ⟨x, d⟩ := p
    have h0 := hr (x, d) (by simp)
    have ⟨hnx, hn'⟩ := List.nodup_cons.mp hn
    let ph : ClockPhase := if stop then .stopOut rest else .fanOut rest
    let w : State := s.withClockPhase ph
    let u : State := if stop then w.enqueue x .stop
      else if s.clock.ticks % d = 0 then w.enqueue x .tick else w
    have hw : w.closed x = false := by rw [State.closed_withClockPhase]; exact h0.2
    have hu : clockStep s = .next u := by
      unfold clockStep
      rw [hp]
      cases stop with
      | true =>
        show Host.Outcome.next (sendTo x .stop w) = _
        rw [sendTo_open hw]; rfl
      | false =>
        have hd : d ≠ 0 := by have := h0.1 rfl; simp at this; omega
        simp only [Bool.false_eq_true, if_false, hd, State.due]
        rw [sendTo_open (s := s.withClockPhase (.fanOut rest)) hw]
        by_cases hm : s.clock.ticks % d = 0 <;> simp [hm, u, w, ph]
    have hcl : u.clock = { s.clock with phase := ph } ∧ u.conf = s.conf ∧
        ∀ y, u.closed y = s.closed y := by
      have hq : ∀ m, (w.enqueue x m).clock = { s.clock with phase := ph } ∧
          (w.enqueue x m).conf = s.conf ∧ ∀ y, (w.enqueue x m).closed y = s.closed y := fun m =>
        ⟨State.enqueue_clock _ _ _, State.enqueue_conf _ _ _, fun y =>
          (State.closed_enqueue _ _ _ _).trans (State.closed_withClockPhase _ _ _)⟩
      simp only [u]
      split
      · exact hq _
      · split
        · exact hq _
        · exact ⟨rfl, rfl, fun y => State.closed_withClockPhase _ _ _⟩
    have hq : ∀ y, u.queueOf y = s.queueOf y ++ if x = y then s.sent stop d else [] := by
      intro y
      simp only [u, State.sent]
      split
      · rw [State.queueOf_enqueue _ _ _ _ hw, State.queueOf_withClockPhase]
      · split
        · rw [State.queueOf_enqueue _ _ _ _ hw, State.queueOf_withClockPhase]
        · rw [State.queueOf_withClockPhase]; simp
    obtain ⟨t, ht, hc, hcl2, hconf, hout, hin⟩ := ih u (by rw [hcl.1]) hn'
      (fun p hp => by rw [hcl.2.2]; exact hr p (by simp [hp]))
    refine ⟨t, ?_, ?_, fun y => (hcl2 y).trans (hcl.2.2 y), hconf.trans hcl.2.1, fun y hy => ?_,
      fun q hq' => ?_⟩
    · simp only [List.length_cons, runFor, hu]; exact ht
    · rw [hc, hcl.1]
    · simp only [List.map_cons, List.mem_cons, not_or] at hy
      rw [hout y hy.2, hq y, if_neg (Ne.symm hy.1)]; simp
    · rcases List.mem_cons.mp hq' with rfl | hq'
      · rw [hout x hnx, hq x]; simp
      · have hne : x ≠ q.1 := fun e => hnx (by rw [e]; exact List.mem_map.mpr ⟨q, hq', rfl⟩)
        rw [hin q hq', hq q.1]; simp [hne, State.sent, hcl.1]

/-- Actions in a row can be cut in two. -/
theorem runFor_add (f : State → Result) (a b : Nat) (s t : State) (h : runFor f a s = .next t) :
    runFor f (a + b) s = runFor f b t := by
  induction a generalizing s with
  | zero => simp only [runFor] at h; cases h; simp
  | succ a ih =>
    rw [show a + 1 + b = (a + b) + 1 by omega]
    simp only [runFor] at h ⊢
    cases hf : f s <;> simp only [hf] at h ⊢
    · exact ih _ h
    all_goals cases h

end Sys2Proof.Machine
end

