-- ==== Sys2Proof/Laws/Regs.lean ====
section
/-! SUPPORT. What the register file answers after a write: the composition laws (R13, R14), and
reading one entity after writing another. -/

namespace Sys2Proof

theorem compose_toNat (h l : Byte) : (compose h l).toNat = h.toNat * 256 + l.toNat := by
  show ((h ++ l : BitVec (8 + 8))).toNat = _
  rw [BitVec.toNat_append, ← Nat.shiftLeft_add_eq_or_of_lt l.isLt, Nat.shiftLeft_eq]

theorem highByte_toNat (v : Word) : (highByte v).toNat = v.toNat / 256 % 256 := by
  simp [highByte, BitVec.extractLsb'_toNat, Nat.shiftRight_eq_div_pow]

theorem lowByte_toNat (v : Word) : (lowByte v).toNat = v.toNat % 256 := by
  simp [lowByte, BitVec.extractLsb'_toNat]

@[simp] theorem highByte_compose (h l : Byte) : highByte (compose h l) = h := by
  apply BitVec.eq_of_toNat_eq
  rw [highByte_toNat, compose_toNat]
  have := h.isLt; have := l.isLt
  omega

@[simp] theorem lowByte_compose (h l : Byte) : lowByte (compose h l) = l := by
  apply BitVec.eq_of_toNat_eq
  rw [lowByte_toNat, compose_toNat]
  have := l.isLt
  omega

@[simp] theorem compose_bytes (v : Word) : compose (highByte v) (lowByte v) = v := by
  apply BitVec.eq_of_toNat_eq
  rw [compose_toNat, highByte_toNat, lowByte_toNat]
  have := v.isLt
  omega

end Sys2Proof

namespace Sys2Proof.Machine

/-! ### The register file -/

theorem RegFile.get8_set8 (r : RegFile) (p q : Ent8) (v : Byte) :
    (r.set8 p v).get8 q = if q = p then v else r.get8 q := by
  cases p <;> cases q <;> rfl

theorem RegFile.get8_set16_of_not_mem (r : RegFile) (p : Ent16) (q : Ent8) (v : Word)
    (h : q ∉ p.halves) : (r.set16 p v).get8 q = r.get8 q := by
  cases p <;> cases q <;> first | rfl | simp [Ent16.halves] at h

theorem RegFile.get16_set16_self (r : RegFile) (p : Ent16) (v : Word) :
    (r.set16 p v).get16 p = v := by
  cases p <;> simp [RegFile.set16, RegFile.get16]

/-! ### The machine state -/

@[simp] theorem State.r8_put8_self (s : State) (q : Ent8) (v : Byte) : (s.put8 q v).r8 q = v := by
  simp [State.r8, State.put8, RegFile.readAs8, RegFile.writeAs8, RegFile.get8_set8]

@[simp] theorem State.r8_put8_of_ne (s : State) (p q : Ent8) (v : Byte) (h : q ≠ p) :
    (s.put8 p v).r8 q = s.r8 q := by
  simp [State.r8, State.put8, RegFile.readAs8, RegFile.writeAs8, RegFile.get8_set8, h]

@[simp] theorem State.r8_put16_of_not_mem (s : State) (p : Ent16) (q : Ent8) (v : Word)
    (h : q ∉ p.halves) : (s.put16 p v).r8 q = s.r8 q := by
  simp [State.r8, State.put16, RegFile.readAs8, RegFile.writeAs16, RegFile.get8_set16_of_not_mem, h]

@[simp] theorem State.r16_put16_self (s : State) (p : Ent16) (v : Word) :
    (s.put16 p v).r16 p = v := by
  simp [State.r16, State.put16, RegFile.readAs16, RegFile.writeAs16, RegFile.get16_set16_self]

/-- A stored 16-bit register is not touched by an 8-bit write. -/
theorem State.r16_put8_stored (s : State) (p : Ent8) (q : Ent16) (v : Byte) (h : q.halves = []) :
    (s.put8 p v).r16 q = s.r16 q := by
  cases q <;> simp [Ent16.halves] at h <;> cases p <;> rfl

/-- A stored 16-bit register is touched only by a write to itself. -/
theorem State.r16_put16_stored (s : State) (p q : Ent16) (v : Word) (h : q.halves = [])
    (hne : q ≠ p) : (s.put16 p v).r16 q = s.r16 q := by
  cases q <;> simp [Ent16.halves] at h <;> cases p <;> first | rfl | exact absurd rfl hne

/-- A pair is a view of its halves (R13). -/
theorem State.r16_pair (s : State) :
    s.r16 .af = compose (s.r8 .a) (s.r8 .f) ∧ s.r16 .bc = compose (s.r8 .b) (s.r8 .c) ∧
      s.r16 .de = compose (s.r8 .d) (s.r8 .e) ∧ s.r16 .hl = compose (s.r8 .h) (s.r8 .l) := by
  exact ⟨rfl, rfl, rfl, rfl⟩

end Sys2Proof.Machine
end

