-- ==== Sys2Proof/Laws/Transactions.lean ====
section
/-! SUPPORT. One lemma per shared operation about the Bus transactions it issues (`Issues`), on any
machine, and about what the end of an instruction leaves (`Completed`, `RegsKept`). -/

namespace Sys2Proof.Machine

/-! ### A transaction changes only devices, and the status when it is fatal -/

/-- The state an access hands on is `s` with other devices, and another status only if fatal. -/
def Access.Within {α : Type} (s : State) : Access α → Prop
  | .ok _ u => u = { s with devices := u.devices }
  | .addressFault u => u = { s with devices := u.devices }
  | .fatal u => u = { s with devices := u.devices, status := u.status }
  | .hang _ => True

theorem askDevice_eq (n : Nat) (q : Request) (s : State) :
    (askDevice n q s).2 = { s with devices := (askDevice n q s).2.devices } := by
  unfold askDevice
  split <;> rfl

theorem busRead_within (sp : Space) (a : Word) (s : State) : (busRead sp a s).Within s := by
  unfold busRead
  split
  · split
    · exact rfl
    · rename_i m _
      have hs := askDevice_eq m.dev (readRequest sp (m.offset a)) s
      simp only
      generalize askDevice m.dev (readRequest sp (m.offset a)) s = y at hs
      obtain ⟨x, u⟩ := y
      simp only at hs
      unfold finishRead
      split
      all_goals first | exact hs | (rw [hs]; exact rfl) | trivial
  · exact rfl

theorem busWrite_within (sp : Space) (a : Word) (v : Byte) (s : State) :
    (busWrite sp a v s).Within s := by
  unfold busWrite
  split
  · split
    · exact rfl
    · rename_i m _
      have hs := askDevice_eq m.dev (writeRequest sp (m.offset a) v) s
      simp only
      generalize askDevice m.dev (writeRequest sp (m.offset a) v) s = y at hs
      obtain ⟨x, u⟩ := y
      simp only at hs
      unfold finishWrite
      split
      all_goals first | exact hs | (rw [hs]; exact rfl) | trivial
  · exact rfl

/-! ### Following a list of transactions -/

/-- The result `r`, reached from `s` after the bytes `got`, is that of the transactions `p`. -/
def Follows (p : Program) (got : List Byte) (s : State) (r : Result) : Prop :=
  match perform p got s with
  | .ok _ u => ∃ t : State, r = .next t ∧ t.devices = u.devices ∧ t.status = s.status
  | .addressFault _ => False
  | .fatal u => r = .next (u.withRegs s.cpu.snapshot)
  | .hang h => r = .fault (.deviceSilent h)

theorem issues_iff (i : Instr) (p : State → Program) :
    Issues i p ↔ ∀ s, Follows (p s) [] s (exec i s) := Iff.rfl

theorem follows_nil {got : List Byte} {s t : State} (hd : t.devices = s.devices)
    (hs : t.status = s.status) : Follows [] got s (.next t) := ⟨t, rfl, hd, hs⟩

/-- The end of an instruction issues nothing. -/
theorem follows_finish {got : List Byte} {s u : State} (c : Nat) (hd : u.devices = s.devices)
    (hs : u.status = s.status) : Follows [] got s (finish c u) := follows_nil hd hs

theorem perform_withRegs (p : Program) : ∀ (got : List Byte) (s : State) (r : RegFile),
    perform p got (s.withRegs r) = (perform p got s).withRegs r := by
  induction p with
  | nil => intros; rfl
  | cons x rest ih =>
    intro got s r
    simp only [perform]
    split
    · rename_i sp a _
      rw [busRead_withRegs]
      cases busRead sp a s with
      | ok b u => exact ih _ _ _
      | addressFault u => exact ih _ _ _
      | fatal u => rfl
      | hang h => rfl
    · rename_i sp a v _
      rw [busWrite_withRegs]
      cases busWrite sp a v s with
      | ok b u => exact ih _ _ _
      | addressFault u => exact ih _ _ _
      | fatal u => rfl
      | hang h => rfl

/-- A register change between two transactions does not show on the Bus. -/
theorem follows_withRegs {p : Program} {got : List Byte} {s : State} {r : Result} (g : RegFile)
    (h : Follows p got (s.withRegs g) r) : Follows p got s r := by
  unfold Follows at h ⊢
  rw [perform_withRegs] at h
  cases hp : perform p got s <;> rw [hp] at h <;> exact h

/-- Reading, then going on with the byte. -/
theorem follows_read {x : List Byte → Transaction} {rest : Program} {got : List Byte} {s : State}
    {sp : Space} {a : Word} {k : Byte → State → Result} (hx : x got = .read sp a)
    (hk : ∀ b u, u = { s with devices := u.devices } → Follows rest (got ++ [b]) u (k b u)) :
    Follows (x :: rest) got s (dataRead sp a s k) := by
  have hw := busRead_within sp a s
  have hgo : ∀ b u, u = { s with devices := u.devices } →
      (match perform rest (got ++ [b]) u with
        | .ok _ v => ∃ t : State, k b u = .next t ∧ t.devices = v.devices ∧ t.status = s.status
        | .addressFault _ => False
        | .fatal v => k b u = .next (v.withRegs s.cpu.snapshot)
        | .hang h => k b u = .fault (.deviceSilent h)) := by
    intro b u hu
    have h := hk b u hu
    unfold Follows at h
    rw [congrArg State.status hu, congrArg State.cpu hu] at h
    exact h
  unfold Follows dataRead
  simp only [perform, hx]
  generalize busRead sp a s = y at hw
  cases y with
  | ok b u => exact hgo b u hw
  | addressFault u => exact hgo _ u hw
  | fatal u => simp only [restoreSnapshot, congrArg State.cpu (show u = _ from hw)]
  | hang h => rfl

/-- Writing, then going on. -/
theorem follows_write {x : List Byte → Transaction} {rest : Program} {got : List Byte} {s : State}
    {sp : Space} {a : Word} {v : Byte} {k : State → Result} (hx : x got = .write sp a v)
    (hk : ∀ u, u = { s with devices := u.devices } → Follows rest got u (k u)) :
    Follows (x :: rest) got s (dataWrite sp a v s k) := by
  have hw := busWrite_within sp a v s
  have hgo : ∀ u, u = { s with devices := u.devices } →
      (match perform rest got u with
        | .ok _ w => ∃ t : State, k u = .next t ∧ t.devices = w.devices ∧ t.status = s.status
        | .addressFault _ => False
        | .fatal w => k u = .next (w.withRegs s.cpu.snapshot)
        | .hang h => k u = .fault (.deviceSilent h)) := by
    intro u hu
    have h := hk u hu
    unfold Follows at h
    rw [congrArg State.status hu, congrArg State.cpu hu] at h
    exact h
  unfold Follows dataWrite
  simp only [perform, hx]
  generalize busWrite sp a v s = y at hw
  cases y with
  | ok b u => exact hgo u hw
  | addressFault u => exact hgo u hw
  | fatal u => simp only [restoreSnapshot, congrArg State.cpu (show u = _ from hw)]
  | hang h => rfl

/-! ### The end of an instruction -/

/-- An instruction that has changed registers and devices only completes. -/
theorem completed_finish {s u : State} (c : Nat) (hc : 1 ≤ c)
    (h : { u with devices := s.devices, cpu := { u.cpu with regs := s.cpu.regs } } = s) :
    ∃ t, finish c u = .next t ∧ Completed c s t ∧ t.devices = u.devices ∧
      t.cpu.regs = u.cpu.regs := by
  refine ⟨_, rfl, ?_, rfl, rfl⟩
  constructor
  case cyc => simp only; omega
  case phase => rfl
  all_goals rw [← h]

/-! ### Registers left alone -/

section
variable {l8 : List Ent8} {l16 : List Ent16} {s t : State}

theorem RegsKept.refl (l8 : List Ent8) (l16 : List Ent16) (s : State) : RegsKept l8 l16 s s :=
  ⟨fun _ _ => rfl, fun _ _ _ => rfl⟩

/-- The registers matter, nothing else. -/
theorem RegsKept.of_regs {u : State} (h : RegsKept l8 l16 s t) (hr : u.cpu.regs = t.cpu.regs) :
    RegsKept l8 l16 s u := by
  constructor
  · intro q hq
    rw [← h.bytes q hq]
    simp only [State.r8, hr]
  · intro q hq hn
    rw [← h.words q hq hn]
    simp only [State.r16, hr]

theorem RegsKept.put8 (h : RegsKept l8 l16 s t) (q : Ent8) (v : Byte) (hq : q ∈ l8) :
    RegsKept l8 l16 s (t.put8 q v) := by
  constructor
  · intro p hp
    rw [State.r8_put8_of_ne _ _ _ _ (fun e : p = q => hp (e ▸ hq))]
    exact h.bytes p hp
  · intro p hp hn
    rw [State.r16_put8_stored _ _ _ _ (by
      simp only [List.mem_cons, List.not_mem_nil, or_false] at hp
      rcases hp with rfl | rfl | rfl | rfl <;> rfl)]
    exact h.words p hp hn

theorem RegsKept.put16 (h : RegsKept l8 l16 s t) (q : Ent16) (v : Word)
    (hb : ∀ x ∈ q.halves, x ∈ l8) (hw : q ∈ l16 ∨ q.halves ≠ []) :
    RegsKept l8 l16 s (t.put16 q v) := by
  constructor
  · intro p hp
    rw [State.r8_put16_of_not_mem _ _ _ _ (fun e => hp (hb p e))]
    exact h.bytes p hp
  · intro p hp hn
    have hs : p.halves = [] := by
      simp only [List.mem_cons, List.not_mem_nil, or_false] at hp
      rcases hp with rfl | rfl | rfl | rfl <;> rfl
    rw [State.r16_put16_stored _ _ _ _ hs (by
      rintro rfl
      rcases hw with hw | hw
      · exact hn hw
      · exact hw hs)]
    exact h.words p hp hn

end

end Sys2Proof.Machine
end

