-- ==== Sys2Proof/Laws/Encoding.lean ====
section
/-! SUPPORT. The trie by cases: every terminal with the encoding of the instruction it holds (R97 to
R100). -/

namespace Sys2Proof

/-- The instructions a terminal holds are well formed, and their bytes are the path to it and then the
operand bytes. -/
def Leaf.Encodes (path : List Byte) : Leaf → Prop
  | .op0 i => i.wellFormed ∧ encode i = path
  | .notImplemented i => i.wellFormed ∧ encode i = path
  | .op1 f => ∀ n, (f n).wellFormed ∧ encode (f n) = path ++ [n]
  | .op2 f => ∀ nn, (f nn).wellFormed ∧ encode (f nn) = path ++ [lowByte nn, highByte nn]

theorem dtSub_encodes (t : SubTable) (b : Byte) : (dtSub t b).Encodes [t.selector, b] := by
  revert b
  refine forall_opByte ?_
  cases t <;> refine forall_field2 ?_ ?_ ?_ ?_ <;> refine forall_field3 ?_ ?_ ?_ ?_ ?_ ?_ ?_ ?_ <;>
    refine forall_field3 ?_ ?_ ?_ ?_ ?_ ?_ ?_ ?_ <;>
    first | exact ⟨rfl, rfl⟩ | exact fun _ => ⟨rfl, rfl⟩

theorem dtRef_encodes (b : Byte) :
    match dtRef b with
    | .leaf l => l.Encodes [b]
    | .subTable t => b = t.selector := by
  revert b
  refine forall_opByte ?_
  refine forall_field2 ?_ ?_ ?_ ?_ <;> refine forall_field3 ?_ ?_ ?_ ?_ ?_ ?_ ?_ ?_ <;>
    refine forall_field3 ?_ ?_ ?_ ?_ ?_ ?_ ?_ ?_ <;>
    first | exact rfl | exact ⟨rfl, rfl⟩ | exact fun _ => ⟨rfl, rfl⟩

end Sys2Proof
end

