-- ==== Sys2Proof/Laws/Trie.lean ====
section
/-! SUPPORT. The walk along `DT_ref` unrolled: what an instruction of the reference machine is, in terms of
the decoder's tables and `exec` (R97 to R100, R154 to R158). -/

namespace Sys2Proof.Machine

/-! ### The unrolled walk -/

/-- Fetch the operand bytes of a leaf found after `n` path bytes (R156). -/
def fetchOperands (pc0 : Word) (n : Nat) (l : Leaf) (s : State)
    (k : Instr → Nat → State → Result) : Result :=
  match l with
  | .op0 i => k i n s
  | .notImplemented i => k i n s
  | .op1 f => fetchByte (pc0 + BitVec.ofNat 16 n) s fun v s => k (f v) (n + 1) s
  | .op2 f =>
    fetchByte (pc0 + BitVec.ofNat 16 n) s fun lo s =>
      fetchByte (pc0 + BitVec.ofNat 16 (n + 1)) s fun hi s => k (f (compose hi lo)) (n + 2) s

/-- Fetch and decode over the reference tables; hand on the instruction and its length (R154, R157). -/
def fetchInstr (pc0 : Word) (s : State) (k : Instr → Nat → State → Result) : Result :=
  fetchByte pc0 s fun b s =>
    match dtRef b with
    | .leaf l => fetchOperands pc0 1 l s k
    | .subTable t =>
      fetchByte (pc0 + 1#16) s fun b2 s => fetchOperands pc0 2 (dtSub t b2) s k

/-- The state an instruction of `n` bytes starts in; a marked entry starts none (R155, R158). -/
def enterHandler (i : Instr) (pc0 : Word) (n : Nat) (s : State) : State :=
  if i.isNotImplemented then s else beginHandler (pc0 + BitVec.ofNat 16 n) s

/-! ### The walk is the unrolled walk -/

theorem next_address (a : Word) (n : Nat) :
    a + BitVec.ofNat 16 n + 1#16 = a + BitVec.ofNat 16 (n + 1) := by
  apply BitVec.eq_of_toNat_eq; simp [BitVec.toNat_add]; omega

theorem entryOf_run (pc0 : Word) (path : List Byte) (l : Leaf) (h : leafMeans path l) (s : State) :
    (entryOf l).run pc0 path s =
      fetchOperands pc0 path.length l s fun i n u => exec i (enterHandler i pc0 n u) := by
  cases l with
  | op0 i => simp only [leafMeans] at h; simp [entryOf, Entry.run, fetchOperandBytes, fetchOperands,
      enterHandler, h]
  | op1 f => simp only [leafMeans] at h; simp [entryOf, Entry.run, fetchOperandBytes, fetchOperands,
      enterHandler, h, operand]
  | op2 f => simp only [leafMeans] at h; simp [entryOf, Entry.run, fetchOperandBytes, fetchOperands,
      enterHandler, h, operand, next_address]
  | notImplemented i => simp [entryOf, Entry.run, fetchOperands, enterHandler, h.1, h.2]

/-- An instruction of the reference machine: fetched along its tables, then `exec`. -/
theorem runInstruction_reference (s : State) : runInstruction dtReference s =
    fetchInstr (s.r16 .pc) (beginFetch s) fun i n u => exec i (enterHandler i (s.r16 .pc) n u) := by
  unfold runInstruction fetchInstr
  rw [Entry.run]
  simp only [List.length_nil, List.nil_append]
  congr 1
  · simp
  · funext b u
    have hb := dtRef_means b
    show (match dtRef b with | .leaf l => entryOf l | .subTable t => _ : Entry).run _ _ _ = _
    cases e : dtRef b with
    | leaf l =>
      rw [e] at hb
      exact entryOf_run _ _ _ hb _
    | subTable t =>
      rw [e] at hb
      have hb : b = t.selector := hb
      subst hb
      show (Entry.subTable fun b2 => entryOf (dtSub t b2)).run _ _ _ = _
      rw [Entry.run]
      congr 1
      funext b2 v
      exact entryOf_run _ _ _ (dtSub_means t b2) _

end Sys2Proof.Machine
end

