-- ==== Sys2Proof/Laws/Cycle.lean ====
section
/-! SUPPORT. Whose turn it is, and the fetch said once: what a step is when the CPU takes a message, and what
the walk along the trie makes of the bytes it reads (R150 to R157). -/

namespace Sys2Proof.Machine

/-- When it is the CPU's turn, the step is the CPU's. -/
theorem step_cpu (dt : DispatchTrie) {s : State} {sched' : List Agent} (h1 : s.status = .running)
    (h2 : s.cpu.phase = .idle) (h3 : s.cpu.queue ≠ [] ∨ s.clock.phase = .dead)
    (h4 : s.sched = .cpu :: sched' ∨ s.sched = [] ∧ sched' = []) :
    stepOf dt s = cpuStep dt { s with sched := sched' } := by
  have hr : s.ready .cpu = true := by
    simp only [State.ready, h1, State.cpuReady, h2, decide_true, Bool.true_and, Bool.or_eq_true,
      decide_eq_true_eq]
    rcases h3 with h3 | h3
    · left; cases hq : s.cpu.queue <;> simp_all
    · exact .inr h3
  have hm : stepOf dt s = moveOn dt s := by unfold stepOf; rw [h1]
  rw [hm]
  unfold moveOn
  rcases h4 with h4 | ⟨h4, h5⟩
  · rw [h4]; simp only [hr, if_true, act]
  · have hp : s.pick = some .cpu := by simp [State.pick, State.agents, hr]
    rw [h4, hp]
    simp only [act]
    congr 1
    subst h5
    cases s; simp_all

/-- When the CPU takes a Tick, the step handles it. -/
theorem step_tick (dt : DispatchTrie) {s : State} {rest : List ClockMsg} {sched' : List Agent}
    (h : s.cpuTakesTick rest sched') : stepOf dt s = cpuTick dt (s.tickTaken rest sched') := by
  obtain ⟨h1, h2, h3, h4⟩ := h
  rw [step_cpu dt h1 h2 (by simp [h3]) h4]
  simp only [cpuStep, h3]; rfl

/-- While the machine boots without a schedule, the step is the next call of the outside. -/
theorem step_host (dt : DispatchTrie) {s : State} {x : Input} {rest : List Input} (h1 : s.status = .booting)
    (h2 : s.sched = []) (h3 : s.inputs = x :: rest) (hx : ∀ n, x ≠ .stop n) :
    stepOf dt s = applyInput x { s with inputs := rest } := by
  have hr : s.hostReady = true := by
    unfold State.hostReady; rw [h3]
    cases x <;> first | rfl | exact absurd rfl (hx _)
  have hp : s.pick = some .host := by
    unfold State.pick State.agents
    rw [List.find?_cons_of_neg (by simp [State.ready, h1]), List.find?_append,
      List.find?_eq_none.mpr (by
        intro y hy
        obtain ⟨n, _, rfl⟩ := List.mem_map.mp hy
        simp [State.ready, h1])]
    simp [State.ready, hr]
  have hm : stepOf dt s = moveOn dt s := by unfold stepOf; rw [h1]
  rw [hm]; unfold moveOn; rw [h2]; simp only [hp, act, hostStep, h3]; rw [← h2]

/-! ### Fetching -/

theorem fetchByte_ok {a : Word} {s u : State} {b : Byte} (h : busRead .mem a s = .ok b u)
    (k : Byte → State → Result) : fetchByte a s k = k b u := by
  unfold fetchByte; rw [h]

/-- What ends a fetch whose next read, at `a` on `u`, does not bring a byte (R153, R269). -/
def EndsFetch (a : Word) (u : State) (r : Result) : Prop :=
  (∀ v, busRead .mem a u = .addressFault v →
    r = .next { v with status := .aborted (.fetchFault a) }) ∧
  (∀ v, busRead .mem a u = .fatal v → r = .next v) ∧
  ∀ h, busRead .mem a u = .hang h → r = .fault (.deviceSilent h)

theorem fetchByte_ends (a : Word) (u : State) (k : Byte → State → Result) :
    EndsFetch a u (fetchByte a u k) := by
  unfold EndsFetch fetchByte
  exact ⟨fun v h => by rw [h]; rfl, fun v h => by rw [h], fun v h => by rw [h]⟩

/-- Operand bytes of any handler, against the bytes the addresses hold (R156). -/
theorem fetchOperandBytes_reads (a : Word) (ops : List Byte) (s u : State)
    (k : List Byte → State → Result) (h : readsInOrder a ops s u) :
    fetchOperandBytes ops.length a s k = k ops u := by
  induction ops generalizing a s k with
  | nil => cases h; rfl
  | cons b rest ih =>
    obtain ⟨s', hb, hu⟩ := h
    exact (fetchByte_ok hb _).trans (ih _ _ _ hu)

/-- The entry an opcode path leads to in any trie (R89). -/
def Entry.follow (e : Entry) (path : List Byte) : Option Entry :=
  match path, e with
  | [], e => some e
  | b :: rest, .subTable t => (t b).follow rest
  | _ :: _, .terminal _ _ => none
  | _ :: _, .notImplemented => none

/-- Any trie, against the bytes the addresses hold: the handler at the end of the path is started with
the operand bytes after it and `PC` past both (R154, R156, R158). -/
theorem Entry.run_terminal (pc0 : Word) (e : Entry) (pre path ops : List Byte) (s u : State)
    (handler : List Byte → State → Result) (he : e.follow path = some (.terminal ops.length handler))
    (h : readsInOrder (pc0 + BitVec.ofNat 16 pre.length) (path ++ ops) s u) :
    e.run pc0 pre s = handler ops
      (beginHandler (pc0 + BitVec.ofNat 16 (pre.length + path.length + ops.length)) u) := by
  induction path generalizing e pre s with
  | nil =>
    simp only [Entry.follow, Option.some.injEq] at he
    subst he
    exact fetchOperandBytes_reads _ ops s u _ h
  | cons b rest ih =>
    cases e with
    | terminal _ _ => simp [Entry.follow] at he
    | notImplemented => simp [Entry.follow] at he
    | subTable t =>
      obtain ⟨s', hb, hu⟩ := h
      rw [next_address] at hu
      rw [Entry.run]
      refine (fetchByte_ok hb _).trans ((ih (t b) (pre ++ [b]) s' he (by simpa using hu)).trans ?_)
      rw [show (pre ++ [b]).length + rest.length + ops.length =
        pre.length + (b :: rest).length + ops.length by simp; omega]

/-- The operand bytes of a terminal, against the bytes the addresses hold. -/
theorem fetchOperands_reads (pc0 : Word) (n : Nat) (l : Leaf) (bytes : List Byte) (s u : State)
    (k : Instr → Nat → State → Result)
    (h : readsInOrder (pc0 + BitVec.ofNat 16 n) bytes s u) :
    (∀ i, l.finish bytes = .ok (i, []) → fetchOperands pc0 n l s k = k i (n + bytes.length) u) ∧
    ∀ e, l.finish bytes = .error e →
      EndsFetch (pc0 + BitVec.ofNat 16 (n + bytes.length)) u (fetchOperands pc0 n l s k) := by
  cases l with
  | op0 i0 =>
    refine ⟨fun i hi => ?_, fun e he => by simp [Leaf.finish] at he⟩
    simp [Leaf.finish] at hi
    obtain ⟨rfl, rfl⟩ := hi
    cases h; rfl
  | notImplemented i0 =>
    refine ⟨fun i hi => ?_, fun e he => by simp [Leaf.finish] at he⟩
    simp [Leaf.finish] at hi
    obtain ⟨rfl, rfl⟩ := hi
    cases h; rfl
  | op1 f =>
    cases bytes with
    | nil =>
      refine ⟨fun i hi => by simp [Leaf.finish] at hi, fun e he => ?_⟩
      cases h; exact fetchByte_ends _ _ _
    | cons b rest =>
      refine ⟨fun i hi => ?_, fun e he => by simp [Leaf.finish] at he⟩
      simp [Leaf.finish] at hi
      obtain ⟨rfl, rfl⟩ := hi
      obtain ⟨s', hb, hu⟩ := h
      cases hu
      exact fetchByte_ok hb _
  | op2 f =>
    cases bytes with
    | nil =>
      refine ⟨fun i hi => by simp [Leaf.finish] at hi, fun e he => ?_⟩
      cases h; exact fetchByte_ends _ _ _
    | cons b rest =>
      obtain ⟨s', hb, hu⟩ := h
      simp only [fetchOperands]
      rw [fetchByte_ok hb]
      rw [next_address] at hu
      cases rest with
      | nil =>
        refine ⟨fun i hi => by simp [Leaf.finish] at hi, fun e he => ?_⟩
        cases hu; exact fetchByte_ends _ _ _
      | cons b2 rest =>
        refine ⟨fun i hi => ?_, fun e he => by simp [Leaf.finish] at he⟩
        simp [Leaf.finish] at hi
        obtain ⟨rfl, rfl⟩ := hi
        obtain ⟨s'', hb2, hu⟩ := hu
        cases hu
        exact fetchByte_ok hb2 _

/-- The whole fetch, against the bytes the addresses hold: it ends in the instruction they decode to,
or, where they end inside one, by what the next read meets. -/
theorem fetchInstr_reads (pc0 : Word) (bytes : List Byte) (s u : State)
    (k : Instr → Nat → State → Result) (h : readsInOrder pc0 bytes s u) :
    (∀ i, decode bytes = .ok (i, []) → fetchInstr pc0 s k = k i bytes.length u) ∧
    ∀ e, decode bytes = .error e →
      EndsFetch (pc0 + BitVec.ofNat 16 bytes.length) u (fetchInstr pc0 s k) := by
  cases bytes with
  | nil =>
    refine ⟨fun i hi => by simp [decode] at hi, fun e he => ?_⟩
    cases h
    have e0 : pc0 + BitVec.ofNat 16 ([] : List Byte).length = pc0 := by simp
    rw [e0]
    exact fetchByte_ends _ _ _
  | cons b rest =>
    obtain ⟨s', hb, hu⟩ := h
    unfold fetchInstr
    rw [fetchByte_ok hb]
    simp only [decode]
    cases dtRef b with
    | leaf l => simpa [Nat.add_comm] using fetchOperands_reads pc0 1 l rest s' u k hu
    | subTable t =>
      cases rest with
      | nil =>
        refine ⟨fun i hi => by simp at hi, fun e he => ?_⟩
        cases hu; exact fetchByte_ends _ _ _
      | cons b2 rest =>
        obtain ⟨s'', hb2, hu⟩ := hu
        simp only
        rw [fetchByte_ok hb2, show (b :: b2 :: rest).length = 2 + rest.length by simp; omega]
        exact fetchOperands_reads pc0 2 (dtSub t b2) rest s'' u k (by
          rw [← next_address pc0 1]; exact hu)

/-- Reading changes nothing of the CPU. -/
theorem readsInOrder_cpu {a : Word} {bytes : List Byte} {s u : State}
    (h : readsInOrder a bytes s u) : u.cpu = s.cpu := by
  induction bytes generalizing a s with
  | nil => cases h; rfl
  | cons b rest ih =>
    obtain ⟨s', hb, hu⟩ := h
    have hw := busRead_within .mem a s
    rw [hb] at hw
    simp only [Access.Within] at hw
    rw [ih hu, hw]

/-- On a settled machine the bytes at consecutive addresses are read without any change. -/
theorem readsInOrder_of_holds {s : State} (hs : s.settled) (a : Word) (bytes : List Byte)
    (h : s.holds a bytes) : readsInOrder a bytes s s := by
  induction bytes generalizing a with
  | nil => rfl
  | cons b rest ih =>
    simp only [State.holds, Bool.and_eq_true, decide_eq_true_eq] at h
    exact ⟨s, by rw [busRead_settled hs, h.1], ih _ h.2⟩

end Sys2Proof.Machine
end

