-- ==== Sys2Proof/Laws/Memory.lean ====
section
/-! SUPPORT. Device storage: a read after a write (R53, R73), and that a write keeps the canonical
form. -/

namespace Sys2Proof.Machine

theorem Memory.read_consCell (o p : Nat) (v : Byte) (m : Memory) (h : Memory.read m o = Config.unlisted) :
    Memory.read (Memory.consCell o v m) p = if p = o then v else Memory.read m p := by
  unfold Memory.consCell
  split
  · subst_vars
    split
    · subst_vars; exact h
    · rfl
  · by_cases hp : p = o
    · simp [Memory.read, hp]
    · simp [Memory.read, hp, Ne.symm hp]

theorem Memory.read_of_lt (lo o : Nat) (m : Memory) (hwf : Memory.wfFrom lo m) (h : o < lo) :
    Memory.read m o = Config.unlisted := by
  induction m generalizing lo with
  | nil => rfl
  | cons c rest ih =>
    obtain ⟨k, b⟩ := c
    simp only [Memory.wfFrom, Bool.and_eq_true, decide_eq_true_eq] at hwf
    have : k ≠ o := by omega
    simp only [Memory.read, this, if_false]
    exact ih (k + 1) hwf.2 (by omega)

/-- A write is seen at its offset and nowhere else. -/
theorem Memory.read_write (lo : Nat) (m : Memory) (o p : Nat) (v : Byte) (hwf : Memory.wfFrom lo m) :
    Memory.read (Memory.write m o v) p = if p = o then v else Memory.read m p := by
  induction m generalizing lo with
  | nil => exact Memory.read_consCell o p v [] rfl
  | cons c rest ih =>
    obtain ⟨k, b⟩ := c
    have hwf' := hwf
    simp only [Memory.wfFrom, Bool.and_eq_true, decide_eq_true_eq] at hwf
    simp only [Memory.write]
    split
    · apply Memory.read_consCell
      have : k ≠ o := by omega
      simp only [Memory.read, this, if_false]
      exact Memory.read_of_lt (k + 1) o rest hwf.2 (by omega)
    · split
      · rename_i hk
        rw [Memory.read_consCell o p v rest (Memory.read_of_lt _ _ _ hwf.2 (by omega))]
        by_cases hp : p = o
        · simp [hp]
        · simp [Memory.read, hp, ← hk, Ne.symm hp]
      · simp only [Memory.read]
        rw [ih (k + 1) hwf.2]
        by_cases hk : k = p
        · have : p ≠ o := by omega
          simp [hk, this]
        · simp [hk]

theorem Memory.wfFrom_mono (lo lo' : Nat) (m : Memory) (h : lo' ≤ lo) (hwf : Memory.wfFrom lo m) :
    Memory.wfFrom lo' m := by
  cases m with
  | nil => rfl
  | cons c rest =>
    obtain ⟨k, b⟩ := c
    simp only [Memory.wfFrom, Bool.and_eq_true, decide_eq_true_eq] at hwf ⊢
    exact ⟨⟨by omega, hwf.1.2⟩, hwf.2⟩

theorem Memory.wfFrom_consCell (lo o : Nat) (v : Byte) (m : Memory) (h : lo ≤ o)
    (hwf : Memory.wfFrom (o + 1) m) : Memory.wfFrom lo (Memory.consCell o v m) := by
  unfold Memory.consCell
  split
  · exact Memory.wfFrom_mono _ _ _ (by omega) hwf
  · simp_all [Memory.wfFrom]

theorem Memory.wfFrom_write (lo : Nat) (m : Memory) (o : Nat) (v : Byte) (h : lo ≤ o)
    (hwf : Memory.wfFrom lo m) : Memory.wfFrom lo (Memory.write m o v) := by
  induction m generalizing lo with
  | nil => exact Memory.wfFrom_consCell lo o v [] h rfl
  | cons c rest ih =>
    obtain ⟨k, b⟩ := c
    have hwf' := hwf
    simp only [Memory.wfFrom, Bool.and_eq_true, decide_eq_true_eq] at hwf
    simp only [Memory.write]
    split
    · apply Memory.wfFrom_consCell lo o v _ h
      simp only [Memory.wfFrom, Bool.and_eq_true, decide_eq_true_eq]
      exact ⟨⟨by omega, hwf.1.2⟩, hwf.2⟩
    · split
      · rename_i hk
        exact Memory.wfFrom_consCell lo o v rest h (hk ▸ hwf.2)
      · simp only [Memory.wfFrom, Bool.and_eq_true, decide_eq_true_eq]
        exact ⟨hwf.1, ih (k + 1) (by omega) hwf.2⟩

/-- A write keeps the canonical form. -/
theorem Memory.wf_write (m : Memory) (o : Nat) (v : Byte) (hwf : m.wf) : (m.write o v).wf :=
  Memory.wfFrom_write 0 m o v (Nat.zero_le o) hwf

/-- A write inside the storage keeps every cell inside it. -/
theorem Memory.within_write (len : Nat) (m : Memory) (o : Nat) (v : Byte) (ho : o < len)
    (h : m.within len) : (m.write o v).within len := by
  have hcons : ∀ rest : Memory, rest.within len → (Memory.consCell o v rest).within len := by
    intro rest hr
    unfold Memory.consCell
    split
    · exact hr
    · simpa [Memory.within, ho] using hr
  induction m with
  | nil => exact hcons [] rfl
  | cons c rest ih =>
    obtain ⟨k, b⟩ := c
    have hc : k < len ∧ Memory.within len rest := by simpa [Memory.within] using h
    unfold Memory.write
    split
    · exact hcons _ h
    · split
      · exact hcons _ hc.2
      · have := ih hc.2
        simpa [Memory.within, hc.1] using this

end Sys2Proof.Machine
end

