-- ==== Sys2Proof/Laws/Exec.lean ====
section
/-! SUPPORT. What running a handler can do, said once: a property that survives a register change, a
request to a device, an abort and the end of an instruction survives every instruction. -/

namespace Sys2Proof.Machine

/-- The four things a handler does to the machine keep `P`. -/
structure KeptByHandlers (P : State → Prop) : Prop where
  regs : ∀ s r, P s → P (s.withRegs r)
  ask : ∀ h q s, P s → P (askDevice h q s).2
  fatal : ∀ f s, P s → P (raiseFatal f s)
  finish : ∀ c s, c ≤ 18 → P s → P { s with cpu := { s.cpu with cyc := c, phase := .idle } }

/-- Whatever next state the result has satisfies `P`. -/
def Result.Keeps (P : State → Prop) (r : Result) : Prop := ∀ t, r = .next t → P t

/-- The state a Bus transaction hands on satisfies `P`, however it ends. -/
def Access.Keeps {α : Type} (P : State → Prop) : Access α → Prop
  | .ok _ s => P s
  | .addressFault s => P s
  | .fatal s => P s
  | .hang _ => True

section
variable {P : State → Prop} (hP : KeptByHandlers P)
include hP

theorem KeptByHandlers.put8 {s : State} (q : Ent8) (v : Byte) (h : P s) : P (s.put8 q v) :=
  hP.regs s _ h

theorem KeptByHandlers.put16 {s : State} (q : Ent16) (v : Word) (h : P s) : P (s.put16 q v) :=
  hP.regs s _ h

theorem KeptByHandlers.putReg {s : State} (r : Reg8) (v : Byte) (h : P s) : P (s.putReg r v) :=
  hP.regs s _ h

theorem KeptByHandlers.jump {s : State} (a : Word) (h : P s) : P (jump a s) := hP.regs s _ h

theorem KeptByHandlers.accumulate {s : State} (op : Byte → Byte → Byte → Byte × Byte) (v : Byte)
    (h : P s) : P (accumulate op v s) := hP.put8 _ _ (hP.put8 _ _ h)

theorem busRead_keeps (sp : Space) (a : Word) {s : State} (h : P s) :
    (busRead sp a s).Keeps P := by
  unfold busRead
  split
  · split
    · exact h
    · rename_i m _
      have hk := hP.ask m.dev (readRequest sp (m.offset a)) s h
      simp only
      generalize askDevice m.dev (readRequest sp (m.offset a)) s = y at hk
      obtain ⟨x, u⟩ := y
      unfold finishRead
      split
      all_goals first | exact hk | exact hP.fatal _ _ hk | trivial
  · exact hP.fatal _ _ h

theorem busWrite_keeps (sp : Space) (a : Word) (v : Byte) {s : State} (h : P s) :
    (busWrite sp a v s).Keeps P := by
  unfold busWrite
  split
  · split
    · exact h
    · rename_i m _
      have hk := hP.ask m.dev (writeRequest sp (m.offset a) v) s h
      simp only
      generalize askDevice m.dev (writeRequest sp (m.offset a) v) s = y at hk
      obtain ⟨x, u⟩ := y
      unfold finishWrite
      split
      all_goals first | exact hk | exact hP.fatal _ _ hk | trivial
  · exact hP.fatal _ _ h

omit hP in
theorem keeps_next {s : State} (h : P s) : Result.Keeps P (.next s) := by
  intro t ht
  cases ht
  exact h

omit hP in
theorem keeps_fault (f : Fault) : Result.Keeps P (.fault f) := fun _ ht => nomatch ht

omit hP in
theorem keeps_refused (r : Refusal) : Result.Keeps P (.refused r) := fun _ ht => nomatch ht

theorem dataRead_keeps {sp : Space} {a : Word} {s : State} {k : Byte → State → Result} (h : P s)
    (hk : ∀ b u, P u → (k b u).Keeps P) : (dataRead sp a s k).Keeps P := by
  have hb := busRead_keeps hP sp a h
  unfold dataRead
  split <;> rename_i heq <;> rw [heq] at hb
  · exact hk _ _ hb
  · exact hk _ _ hb
  · exact keeps_next (hP.regs _ _ hb)
  · exact keeps_fault _

theorem dataWrite_keeps {sp : Space} {a : Word} {v : Byte} {s : State} {k : State → Result}
    (h : P s) (hk : ∀ u, P u → (k u).Keeps P) : (dataWrite sp a v s k).Keeps P := by
  have hb := busWrite_keeps hP sp a v h
  unfold dataWrite
  split <;> rename_i heq <;> rw [heq] at hb
  · exact hk _ hb
  · exact hk _ hb
  · exact keeps_next (hP.regs _ _ hb)
  · exact keeps_fault _

theorem finish_keeps {s : State} (c : Nat) (hc : c ≤ 19) (h : P s) :
    (Machine.finish c s).Keeps P :=
  keeps_next (hP.finish (c - 1) s (by omega) h)

theorem memRead2_keeps {a : Word} {s : State} {k : Word → State → Result} (h : P s)
    (hk : ∀ v u, P u → (k v u).Keeps P) : (memRead2 a s k).Keeps P :=
  dataRead_keeps hP h fun _ _ h1 => dataRead_keeps hP h1 fun _ _ h2 => hk _ _ h2

theorem memWrite2_keeps {a v : Word} {s : State} {k : State → Result} (h : P s)
    (hk : ∀ u, P u → (k u).Keeps P) : (memWrite2 a v s k).Keeps P :=
  dataWrite_keeps hP h fun _ h1 => dataWrite_keeps hP h1 fun _ h2 => hk _ h2

theorem pushWord_keeps {v : Word} {s : State} {k : State → Result} (h : P s)
    (hk : ∀ u, P u → (k u).Keeps P) : (pushWord v s k).Keeps P :=
  dataWrite_keeps hP (hP.put16 _ _ h) fun _ h1 =>
    dataWrite_keeps hP (hP.put16 _ _ h1) fun _ h2 => hk _ h2

theorem popWord_keeps {s : State} {k : Word → State → Result} (h : P s)
    (hk : ∀ v u, P u → (k v u).Keeps P) : (popWord s k).Keeps P :=
  dataRead_keeps hP h fun _ _ h1 =>
    dataRead_keeps hP (hP.put16 _ _ h1) fun _ _ h2 => hk _ _ (hP.put16 _ _ h2)

theorem callTo_keeps {a : Word} {c : Nat} {s : State} (hc : c ≤ 19) (h : P s) :
    (callTo a c s).Keeps P :=
  pushWord_keeps hP h fun _ h1 => finish_keeps hP c hc (hP.jump _ h1)

theorem returnFrom_keeps {c : Nat} {s : State} (hc : c ≤ 19) (h : P s) :
    (returnFrom c s).Keeps P :=
  popWord_keeps hP h fun _ _ h1 => finish_keeps hP c hc (hP.jump _ h1)

/-- Whatever next state an instruction leads to satisfies what its handler keeps. -/
theorem exec_keeps (i : Instr) {s : State} (h : P s) : Result.Keeps P (exec i s) := by
  cases i with
  | jrCc cc e =>
    simp only [exec, execJrCc]
    split
    · exact finish_keeps hP _ (by decide) (hP.jump _ h)
    · exact finish_keeps hP _ (by decide) h
  | djnz e =>
    simp only [exec, execDjnz]
    split
    · exact finish_keeps hP _ (by decide) (hP.put8 _ _ h)
    · exact finish_keeps hP _ (by decide) (hP.jump _ (hP.put8 _ _ h))
  | jpCcNn cc nn =>
    simp only [exec, execJpCcNn]
    refine finish_keeps hP _ (by decide) ?_
    split
    · exact hP.jump _ h
    · exact h
  | callCcNn cc nn =>
    simp only [exec, execCallCcNn]
    split
    · exact callTo_keeps hP (by decide) h
    · exact finish_keeps hP _ (by decide) h
  | retCc cc =>
    simp only [exec, execRetCc]
    split
    · exact returnFrom_keeps hP (by decide) h
    · exact finish_keeps hP _ (by decide) h
  | callNn nn => simp only [exec, execCallNn]; exact callTo_keeps hP (by decide) h
  | rstP t => simp only [exec, execRstP]; exact callTo_keeps hP (by decide) h
  | ret => simp only [exec, execRet]; exact returnFrom_keeps hP (by decide) h
  | pushQq qq =>
    simp only [exec, execPushQq]
    exact pushWord_keeps hP h fun _ h1 => finish_keeps hP _ (by decide) h1
  | popQq qq =>
    simp only [exec, execPopQq]
    exact popWord_keeps hP h fun _ _ h1 => finish_keeps hP _ (by decide) (hP.put16 _ _ h1)
  | ldHlIndNn nn =>
    simp only [exec, execLdHlIndNn]
    exact memRead2_keeps hP h fun _ _ h1 => finish_keeps hP _ (by decide) (hP.put16 _ _ h1)
  | ldIndNnHl nn =>
    simp only [exec, execLdIndNnHl]
    exact memWrite2_keeps hP h fun _ h1 => finish_keeps hP _ (by decide) h1
  | incIndHl =>
    simp only [exec, execIncIndHl, memRead, memWrite]
    exact dataRead_keeps hP h fun _ _ h1 =>
      dataWrite_keeps hP (hP.put8 _ _ h1) fun _ h2 => finish_keeps hP _ (by decide) h2
  | decIndHl =>
    simp only [exec, execDecIndHl, memRead, memWrite]
    exact dataRead_keeps hP h fun _ _ h1 =>
      dataWrite_keeps hP (hP.put8 _ _ h1) fun _ h2 => finish_keeps hP _ (by decide) h2
  | inRC r =>
    simp only [exec, execInRC, ioRead]
    exact dataRead_keeps hP h fun _ _ h1 =>
      finish_keeps hP _ (by decide) (hP.put8 _ _ (hP.putReg _ _ h1))
  | exAfAf =>
    simp only [exec, execExAfAf]
    exact finish_keeps hP _ (by decide) (hP.put16 _ _ (hP.put16 _ _ h))
  | exDeHl =>
    simp only [exec, execExDeHl]
    exact finish_keeps hP _ (by decide) (hP.put16 _ _ (hP.put16 _ _ h))
  | exx =>
    simp only [exec, execExx]
    exact finish_keeps hP _ (by decide) (hP.put16 _ _ (hP.put16 _ _ (hP.put16 _ _
      (hP.put16 _ _ (hP.put16 _ _ (hP.put16 _ _ h))))))
  | incR r =>
    simp only [exec, execIncR]
    exact finish_keeps hP _ (by decide) (hP.put8 _ _ (hP.putReg _ _ h))
  | decR r =>
    simp only [exec, execDecR]
    exact finish_keeps hP _ (by decide) (hP.put8 _ _ (hP.putReg _ _ h))
  | addHlSs ss =>
    simp only [exec, execAddHlSs]
    exact finish_keeps hP _ (by decide) (hP.put8 _ _ (hP.put16 _ _ h))
  | niRoot op => exact keeps_next (hP.fatal _ _ h)
  | niDd op => exact keeps_next (hP.fatal _ _ h)
  | niFd op => exact keeps_next (hP.fatal _ _ h)
  | niEd op => exact keeps_next (hP.fatal _ _ h)
  | nop => simp only [exec, execNop]; exact finish_keeps hP _ (by decide) h
  | ldDdNn dd nn => simp only [exec, execLdDdNn]; exact finish_keeps hP _ (by decide) (hP.put16 _ _ h)
  | ldSpHl => simp only [exec, execLdSpHl]; exact finish_keeps hP _ (by decide) (hP.put16 _ _ h)
  | incSs ss => simp only [exec, execIncSs]; exact finish_keeps hP _ (by decide) (hP.put16 _ _ h)
  | decSs ss => simp only [exec, execDecSs]; exact finish_keeps hP _ (by decide) (hP.put16 _ _ h)
  | ldIxNn nn => simp only [exec, execLdIxNn]; exact finish_keeps hP _ (by decide) (hP.put16 _ _ h)
  | ldIyNn nn => simp only [exec, execLdIyNn]; exact finish_keeps hP _ (by decide) (hP.put16 _ _ h)
  | ldRN r n => simp only [exec, execLdRN]; exact finish_keeps hP _ (by decide) (hP.putReg _ _ h)
  | ldRR rd rs => simp only [exec, execLdRR]; exact finish_keeps hP _ (by decide) (hP.putReg _ _ h)
  | jpNn nn => simp only [exec, execJpNn]; exact finish_keeps hP _ (by decide) (hP.jump _ h)
  | jpHl => simp only [exec, execJpHl]; exact finish_keeps hP _ (by decide) (hP.jump _ h)
  | jr e => simp only [exec, execJr]; exact finish_keeps hP _ (by decide) (hP.jump _ h)
  | ldRIndHl r =>
    simp only [exec, execLdRIndHl, memRead]
    exact dataRead_keeps hP h fun _ _ h1 => finish_keeps hP _ (by decide) (hP.putReg _ _ h1)
  | ldAIndBc =>
    simp only [exec, execLdAIndBc, memRead]
    exact dataRead_keeps hP h fun _ _ h1 => finish_keeps hP _ (by decide) (hP.put8 _ _ h1)
  | ldAIndDe =>
    simp only [exec, execLdAIndDe, memRead]
    exact dataRead_keeps hP h fun _ _ h1 => finish_keeps hP _ (by decide) (hP.put8 _ _ h1)
  | ldAIndNn nn =>
    simp only [exec, execLdAIndNn, memRead]
    exact dataRead_keeps hP h fun _ _ h1 => finish_keeps hP _ (by decide) (hP.put8 _ _ h1)
  | ldRIndIx r d =>
    simp only [exec, execLdRIndIx, memRead]
    exact dataRead_keeps hP h fun _ _ h1 => finish_keeps hP _ (by decide) (hP.putReg _ _ h1)
  | ldRIndIy r d =>
    simp only [exec, execLdRIndIy, memRead]
    exact dataRead_keeps hP h fun _ _ h1 => finish_keeps hP _ (by decide) (hP.putReg _ _ h1)
  | inAN n =>
    simp only [exec, execInAN, ioRead]
    exact dataRead_keeps hP h fun _ _ h1 => finish_keeps hP _ (by decide) (hP.put8 _ _ h1)
  | ldIndHlR r =>
    simp only [exec, execLdIndHlR, memWrite]
    exact dataWrite_keeps hP h fun _ h1 => finish_keeps hP _ (by decide) h1
  | ldIndHlN n =>
    simp only [exec, execLdIndHlN, memWrite]
    exact dataWrite_keeps hP h fun _ h1 => finish_keeps hP _ (by decide) h1
  | ldIndBcA =>
    simp only [exec, execLdIndBcA, memWrite]
    exact dataWrite_keeps hP h fun _ h1 => finish_keeps hP _ (by decide) h1
  | ldIndDeA =>
    simp only [exec, execLdIndDeA, memWrite]
    exact dataWrite_keeps hP h fun _ h1 => finish_keeps hP _ (by decide) h1
  | ldIndNnA nn =>
    simp only [exec, execLdIndNnA, memWrite]
    exact dataWrite_keeps hP h fun _ h1 => finish_keeps hP _ (by decide) h1
  | ldIndIxR d r =>
    simp only [exec, execLdIndIxR, memWrite]
    exact dataWrite_keeps hP h fun _ h1 => finish_keeps hP _ (by decide) h1
  | ldIndIyR d r =>
    simp only [exec, execLdIndIyR, memWrite]
    exact dataWrite_keeps hP h fun _ h1 => finish_keeps hP _ (by decide) h1
  | outNA n =>
    simp only [exec, execOutNA, ioWrite]
    exact dataWrite_keeps hP h fun _ h1 => finish_keeps hP _ (by decide) h1
  | outCR r =>
    simp only [exec, execOutCR, ioWrite]
    exact dataWrite_keeps hP h fun _ h1 => finish_keeps hP _ (by decide) h1
  | addAR r => exact finish_keeps hP 4 (by decide) (hP.accumulate _ _ h)
  | addAN n => exact finish_keeps hP 7 (by decide) (hP.accumulate _ _ h)
  | addAIndHl =>
    simp only [exec, execAddAIndHl, sourceIndHl, memRead]
    exact dataRead_keeps hP h fun _ _ h1 => finish_keeps hP _ (by decide) (hP.accumulate _ _ h1)
  | adcAR r => exact finish_keeps hP 4 (by decide) (hP.accumulate _ _ h)
  | adcAN n => exact finish_keeps hP 7 (by decide) (hP.accumulate _ _ h)
  | adcAIndHl =>
    simp only [exec, execAdcAIndHl, sourceIndHl, memRead]
    exact dataRead_keeps hP h fun _ _ h1 => finish_keeps hP _ (by decide) (hP.accumulate _ _ h1)
  | subR r => exact finish_keeps hP 4 (by decide) (hP.accumulate _ _ h)
  | subN n => exact finish_keeps hP 7 (by decide) (hP.accumulate _ _ h)
  | subIndHl =>
    simp only [exec, execSubIndHl, sourceIndHl, memRead]
    exact dataRead_keeps hP h fun _ _ h1 => finish_keeps hP _ (by decide) (hP.accumulate _ _ h1)
  | sbcAR r => exact finish_keeps hP 4 (by decide) (hP.accumulate _ _ h)
  | sbcAN n => exact finish_keeps hP 7 (by decide) (hP.accumulate _ _ h)
  | sbcAIndHl =>
    simp only [exec, execSbcAIndHl, sourceIndHl, memRead]
    exact dataRead_keeps hP h fun _ _ h1 => finish_keeps hP _ (by decide) (hP.accumulate _ _ h1)
  | andR r => exact finish_keeps hP 4 (by decide) (hP.accumulate _ _ h)
  | andN n => exact finish_keeps hP 7 (by decide) (hP.accumulate _ _ h)
  | andIndHl =>
    simp only [exec, execAndIndHl, sourceIndHl, memRead]
    exact dataRead_keeps hP h fun _ _ h1 => finish_keeps hP _ (by decide) (hP.accumulate _ _ h1)
  | xorR r => exact finish_keeps hP 4 (by decide) (hP.accumulate _ _ h)
  | xorN n => exact finish_keeps hP 7 (by decide) (hP.accumulate _ _ h)
  | xorIndHl =>
    simp only [exec, execXorIndHl, sourceIndHl, memRead]
    exact dataRead_keeps hP h fun _ _ h1 => finish_keeps hP _ (by decide) (hP.accumulate _ _ h1)
  | orR r => exact finish_keeps hP 4 (by decide) (hP.accumulate _ _ h)
  | orN n => exact finish_keeps hP 7 (by decide) (hP.accumulate _ _ h)
  | orIndHl =>
    simp only [exec, execOrIndHl, sourceIndHl, memRead]
    exact dataRead_keeps hP h fun _ _ h1 => finish_keeps hP _ (by decide) (hP.accumulate _ _ h1)
  | cpR r => exact finish_keeps hP 4 (by decide) (hP.accumulate _ _ h)
  | cpN n => exact finish_keeps hP 7 (by decide) (hP.accumulate _ _ h)
  | cpIndHl =>
    simp only [exec, execCpIndHl, sourceIndHl, memRead]
    exact dataRead_keeps hP h fun _ _ h1 => finish_keeps hP _ (by decide) (hP.accumulate _ _ h1)

end

end Sys2Proof.Machine
end

