-- ==== Sys2Proof/Laws/Step.lean ====
section
/-! SUPPORT. What one step can do, said once: a property that survives each of the small changes below
survives every step. An invariant is proved by giving these changes one by one. -/

namespace Sys2Proof.Machine

/-- Every change a step is made of keeps `P`. -/
structure KeptBySteps (P : State → Prop) : Prop extends KeptByHandlers P where
  sched : ∀ s l, P s → P { s with sched := l }
  inputs : ∀ s x rest, s.inputs = x :: rest → P s → P { s with inputs := rest }
  takeMessage : ∀ s m q, s.cpu.queue = m :: q → P s → P (s.withQueue q)
  owedTick : ∀ s, P s → P { s with cpu := { s.cpu with cyc := s.cpu.cyc - 1 } }
  beginFetch : ∀ s, P s → P (beginFetch s)
  executing : ∀ s, P s → P { s with cpu := { s.cpu with phase := .executing } }
  stopCpu : ∀ s, P s → P { s with cpu := { s.cpu with phase := .stopped } }
  stopped : ∀ s, s.status ≠ .booting → P s → P { s with status := .stopped }
  answerHost : ∀ s r, P s → P (s.answerHost r)
  registered : ∀ s h r, s.status = .booting → P s → P { s with
    bus := s.bus.add h r
    devices := s.devices.modify h fun d => { d with registered := true } }
  attach : ∀ s sub n, s.status = .booting → P s → P { s with clock := { s.clock with
    subsystems := s.clock.subsystems ++ [(sub, n)] } }
  start : ∀ s, s.status = .booting → P s → P { s with status := .running }
  sendStop : ∀ s, P s → P { s with clock := { s.clock with control := s.clock.control ++ [.stop] } }
  terminate : ∀ s p rest, s.inputs = .terminate p :: rest → P s →
    P (terminatePeer p { s with inputs := rest })
  count : ∀ s, P s → P { s with clock := { s.clock with
    ticks := s.clock.ticks + 1
    phase := .fanOut s.clock.subsystems } }
  clockPhase : ∀ s p, p ≠ .dead → P s → P (s.withClockPhase p)
  takeStop : ∀ s m l, s.clock.control = m :: l → P s → P { s with clock := { s.clock with
    control := l
    phase := .stopOut s.clock.subsystems } }
  enqueue : ∀ s sub m, s.hasRoom sub → P s → P (s.enqueue sub m)
  deviceTick : ∀ s h d rest, s.devices[h]? = some d → d.inbox = .tick :: rest → P s →
    P { s with devices := s.devices.set h (Device.tick { d with inbox := rest }) }
  deviceStop : ∀ s h d rest, s.devices[h]? = some d → d.inbox = .stop :: rest → P s →
    P { s with devices := s.devices.set h { d with inbox := rest, exited := true } }

section
variable {P : State → Prop} (hP : KeptBySteps P)
include hP

/-! ### CPU -/

omit hP in
theorem fetchByte_keeps (hP : KeptByHandlers P) {a : Word} {s : State} {k : Byte → State → Result}
    (h : P s) (hk : ∀ b u, P u → Result.Keeps P (k b u)) : Result.Keeps P (fetchByte a s k) := by
  have hb := busRead_keeps hP .mem a h
  unfold fetchByte
  split <;> rename_i heq <;> rw [heq] at hb
  · exact hk _ _ hb
  · exact keeps_next (hP.fatal _ _ hb)
  · exact keeps_next hb
  · exact keeps_fault _

theorem runInstruction_keeps {s : State} (h : P s) : Result.Keeps P (runInstruction dtReference s) := by
  have hH := hP.toKeptByHandlers
  have hgo : ∀ i n u, P u → Result.Keeps P (exec i (enterHandler i (s.r16 .pc) n u)) := by
    intro i n u hu
    refine exec_keeps hH i ?_
    unfold enterHandler
    split
    · exact hu
    · exact hP.executing _ (hH.put16 _ _ hu)
  have hops : ∀ n l u, P u → Result.Keeps P (fetchOperands (s.r16 .pc) n l u fun i n s' =>
      exec i (enterHandler i (s.r16 .pc) n s')) := by
    intro n l u hu
    cases l with
    | op0 i => exact hgo _ _ _ hu
    | notImplemented i => exact hgo _ _ _ hu
    | op1 f => exact fetchByte_keeps hH hu fun _ _ h1 => hgo _ _ _ h1
    | op2 f =>
      exact fetchByte_keeps hH hu fun _ _ h1 => fetchByte_keeps hH h1 fun _ _ h2 => hgo _ _ _ h2
  rw [runInstruction_reference]
  unfold fetchInstr
  refine fetchByte_keeps hH (hP.beginFetch _ h) fun b u hu => ?_
  cases dtRef b with
  | leaf l => exact hops _ _ _ hu
  | subTable t => exact fetchByte_keeps hH hu fun _ _ h1 => hops _ _ _ h1

theorem settle_keeps {s : State} (hb : s.status ≠ .booting) (h : P s) : P (settle s) := by
  unfold settle
  split
  · exact hP.stopped _ hb h
  · exact h

theorem cpuStep_keeps {s : State} (hb : s.status ≠ .booting) (h : P s) :
    Result.Keeps P (cpuStep dtReference s) := by
  unfold cpuStep
  split
  · rename_i q heq
    have hq := hP.takeMessage _ _ _ heq h
    unfold cpuTick
    split
    · exact keeps_next (hP.owedTick _ hq)
    · exact runInstruction_keeps hP hq
  · rename_i q heq
    exact keeps_next (settle_keeps hP hb (hP.stopCpu _ (hP.takeMessage _ _ _ heq h)))
  · exact keeps_next (hP.fatal _ _ h)

/-! ### Clock and devices -/

theorem sendTo_keeps {s : State} (sub : SubId) (m : ClockMsg) (hs : s.canSend sub) (h : P s) :
    P (sendTo sub m s) := by
  unfold sendTo
  unfold State.canSend at hs
  split
  · exact hP.fatal _ _ h
  · rename_i hc
    exact hP.enqueue _ _ _ (by simpa [hc] using hs) h

theorem clockStep_keeps {s : State} (hb : s.status ≠ .booting) (hr : s.clockReady) (h : P s) :
    Result.Keeps P (clockStep s) := by
  unfold State.clockReady at hr
  unfold clockStep
  split <;> rename_i heq <;> rw [heq] at hr
  · exact keeps_next (hP.count _ h)
  · exact keeps_next (hP.clockPhase _ _ (by simp) h)
  · rename_i sub _ _
    split
    · exact keeps_refused _
    · rename_i hd
      split
      · rename_i hdue
        have hs : s.canSend sub := by simpa [hd, hdue] using hr
        exact keeps_next (sendTo_keeps hP _ _ hs
          (hP.clockPhase _ _ (by simp) h))
      · exact keeps_next (hP.clockPhase _ _ (by simp) h)
  · split
    · exact keeps_next (hP.clockPhase _ _ (by simp) h)
    · rename_i hc
      exact keeps_next (hP.takeStop _ _ _ hc h)
  · exact keeps_next (settle_keeps hP hb (hP.clockPhase _ _ (by simp) h))
  · exact keeps_next (sendTo_keeps hP _ _ hr (hP.clockPhase _ _ (by simp) h))
  · exact keeps_next (hP.clockPhase _ _ (by simp) h)
  · exact keeps_next (hP.clockPhase _ _ (by simp) h)
  · exact keeps_next h
  · exact keeps_next h

theorem deviceStep_keeps {s : State} (hb : s.status ≠ .booting) (n : Nat) (h : P s) :
    Result.Keeps P (deviceStep n s) := by
  unfold deviceStep
  split
  · exact keeps_next h
  · rename_i d hd
    split
    · exact keeps_next (hP.fatal _ _ h)
    · rename_i rest hi
      exact keeps_next (hP.deviceTick _ _ _ _ hd hi h)
    · rename_i rest hi
      exact keeps_next (settle_keeps hP (by exact hb) (hP.deviceStop _ _ _ _ hd hi h))

/-! ### The outside -/

theorem answerAccess_keeps {α : Type} {x : Access α} {f : α → HostReply} (hx : x.Keeps P) :
    Result.Keeps P (answerAccess x f) := by
  unfold answerAccess
  split
  · exact keeps_next (hP.answerHost _ _ hx)
  · exact keeps_next (hP.answerHost _ _ hx)
  · exact keeps_next (hP.answerHost _ _ hx)
  · exact keeps_fault _

omit hP in
theorem whileBooting_keeps {s : State} {r : Result} (h : s.status = .booting → Result.Keeps P r) :
    Result.Keeps P (whileBooting s r) := by
  unfold whileBooting
  split
  · exact h ‹_›
  · exact keeps_refused _

omit hP in
/-- Asking a device changes nothing of the machine but that device. -/
theorem askDevice_snd (n : Nat) (q : Request) (s : State) :
    (askDevice n q s).2 = { s with devices := (askDevice n q s).2.devices } := by
  unfold askDevice
  split <;> rfl

theorem busRegister_keeps {s : State} (n : Nat) (hb : s.status = .booting) (h : P s) :
    (busRegister n s).Keeps P := by
  have hk := hP.ask n .getRanges s h
  have hs := askDevice_snd n .getRanges s
  unfold busRegister
  generalize askDevice n .getRanges s = y at hk hs
  obtain ⟨x, u⟩ := y
  have hu : u.status = .booting := (congrArg State.status hs).trans hb
  split
  · split <;> rename_i heq <;> cases heq
    · exact hP.registered _ _ _ hu hk
    · exact hP.fatal _ _ hk
    · exact hP.fatal _ _ hk
    · trivial
  · exact hP.fatal _ _ h

theorem hostStep_keeps {s : State} (h : P s) : Result.Keeps P (hostStep s) := by
  unfold hostStep
  split
  · exact keeps_next h
  · rename_i x rest heq
    have hi := hP.inputs _ _ _ heq h
    cases x with
    | register n =>
      refine whileBooting_keeps fun hb => ?_
      split
      · exact keeps_refused _
      · exact answerAccess_keeps hP (busRegister_keeps hP n hb hi)
    | read sp a => exact whileBooting_keeps fun _ =>
        answerAccess_keeps hP (busRead_keeps hP.toKeptByHandlers sp a hi)
    | write sp a v => exact whileBooting_keeps fun _ =>
        answerAccess_keeps hP (busWrite_keeps hP.toKeptByHandlers sp a v hi)
    | attach sub n =>
      refine whileBooting_keeps fun hb => ?_
      split
      · exact keeps_refused _
      · exact keeps_next (hP.attach _ _ _ hb hi)
    | start =>
      refine whileBooting_keeps fun hb => ?_
      split
      · exact keeps_next (hP.start _ hb hi)
      · exact keeps_refused _
    | stop n => exact keeps_next (hP.sendStop _ hi)
    | terminate p => exact keeps_next (hP.terminate _ _ _ heq h)

/-! ### The whole step -/

theorem act_keeps {s : State} (x : Agent) (hr : s.ready x) (h : P s) :
    Result.Keeps P (act dtReference x s) := by
  cases x with
  | host => exact hostStep_keeps hP h
  | cpu =>
    simp only [State.ready, Bool.and_eq_true, decide_eq_true_eq] at hr
    exact cpuStep_keeps hP (by simp [hr.1]) h
  | device n =>
    simp only [State.ready, Bool.and_eq_true, decide_eq_true_eq] at hr
    exact deviceStep_keeps hP (by simp [hr.1]) n h
  | clock =>
    simp only [State.ready, Bool.and_eq_true, decide_eq_true_eq] at hr
    exact clockStep_keeps hP (by simp [hr.1]) hr.2 h

omit hP in
/-- Readiness does not depend on the schedule. -/
theorem ready_withSched (s : State) (l : List Agent) (x : Agent) :
    { s with sched := l : State }.ready x = s.ready x := by
  cases x <;> rfl

theorem standStill_keeps {s : State} (h : P s) : Result.Keeps P (standStill s) := by
  unfold standStill
  split
  · split
    · exact keeps_next (hP.fatal _ _ h)
    · split
      · exact keeps_next h
      · exact keeps_fault _
  · exact keeps_next h

theorem moveOn_keeps {s : State} (h : P s) : Result.Keeps P (moveOn dtReference s) := by
  unfold moveOn
  split
  · rename_i x rest _
    split
    · rename_i hr
      exact act_keeps hP x (by rw [ready_withSched]; exact hr) (hP.sched _ _ h)
    · exact keeps_next (hP.sched _ _ h)
  · split
    · rename_i x hx
      exact act_keeps hP x (by simpa using List.find?_some hx) h
    · exact standStill_keeps hP h

/-- Every next state of a step satisfies what its changes keep. -/
theorem step_keeps {s : State} (h : P s) : Result.Keeps P (step s) := by
  unfold step stepOf
  split
  · exact keeps_next h
  · rename_i hst
    unfold windDown
    split
    · rename_i hp
      exact clockStep_keeps hP (by simp [hst]) (by simp [State.clockReady, hp]) h
    · rename_i hp
      exact clockStep_keeps hP (by simp [hst]) (by simp [State.clockReady, hp]) h
    · exact keeps_next h
  · exact moveOn_keeps hP h
  · exact moveOn_keeps hP h

end

end Sys2Proof.Machine
end

