-- ==== Sys2Proof/Laws/Devices.lean ====
section
/-! SUPPORT. A request and its device: what asking one device leaves of the list of devices, and what of a
device survives every step. -/

namespace Sys2Proof.Machine

/-- Asking changes nothing, or puts the device that served back in its place. -/
theorem askDevice_cases (h : Nat) (q : Request) (s : State) :
    (askDevice h q s).2 = s ∨ ∃ d, s.devices[h]? = some d ∧
      (askDevice h q s).2 = { s with devices := s.devices.set h (d.serve q).2 } := by
  unfold askDevice
  split
  · exact .inl rfl
  · rename_i d hd
    exact .inr ⟨d, hd, rfl⟩

/-- Putting a device back changes no property it has in common with the old one. -/
theorem devices_map_set {α : Type} (f : Device → α) (l : List Device) (h : Nat) (d d' : Device)
    (hd : l[h]? = some d) (hf : f d' = f d) : (l.set h d').map f = l.map f := by
  apply List.ext_getElem?
  intro i
  by_cases hi : h = i
  · subst hi
    have hlt : h < l.length := by
      by_contra hc
      simp [List.getElem?_eq_none (Nat.le_of_not_lt hc)] at hd
    have hg : l[h] = d := by simpa [hlt] using hd
    simp [hlt, hg, hf]
  · simp [hi]

theorem devices_map_modify {α : Type} (f : Device → α) (g : Device → Device)
    (hf : ∀ d, f (g d) = f d) (l : List Device) (h : Nat) : (l.modify h g).map f = l.map f := by
  apply List.ext_getElem?
  intro i
  simp only [List.getElem?_map, List.getElem?_modify]
  cases l[i]? <;> simp
  split <;> simp [hf]

theorem devices_all_set {p : Device → Bool} (l : List Device) (h : Nat) (d' : Device)
    (hl : l.all p) (hf : p d') : (l.set h d').all p := by
  rw [List.all_eq_true] at hl ⊢
  intro x hx
  rcases List.mem_or_eq_of_mem_set hx with h | h
  · exact hl x h
  · rw [h]; exact hf

/-- What of a device neither a request nor a message changes, no step changes. -/
theorem kept_of_devices {α : Type} (f : Device → α) (hs : ∀ d q, f (Device.serve d q).2 = f d)
    (hreg : ∀ d b, f { d with registered := b } = f d)
    (hal : ∀ d b, f { d with alive := b } = f d)
    (hin : ∀ d m, f { d with inbox := m } = f d)
    (hex : ∀ d b, f { d with exited := b } = f d)
    (htick : ∀ d, f (Device.tick d) = f d) (l : List α) :
    KeptBySteps fun t => t.devices.map f = l where
  regs := fun _ _ h => h
  ask := by
    intro h q s hl
    rcases askDevice_cases h q s with e | ⟨d, hd, e⟩
    · rw [e]; exact hl
    · rw [e]; exact (devices_map_set f _ _ _ _ hd (hs d q)).trans hl
  fatal := fun _ _ h => h
  finish := fun _ _ _ h => h
  sched := fun _ _ h => h
  inputs := fun _ _ _ _ h => h
  takeMessage := fun _ _ _ _ h => h
  owedTick := fun _ h => h
  beginFetch := fun _ h => h
  executing := fun _ h => h
  stopCpu := fun _ h => h
  stopped := fun _ _ h => h
  answerHost := fun _ _ h => h
  registered := fun s h r _ hl => (devices_map_modify f _ (fun d => hreg d _) _ _).trans hl
  attach := fun _ _ _ _ h => h
  start := fun _ _ h => h
  sendStop := fun _ h => h
  terminate := by
    intro s p rest _ hl
    cases p with
    | device h => exact (devices_map_modify f _ (fun d => hal d _) _ _).trans hl
    | _ => exact hl
  count := fun _ h => h
  clockPhase := fun _ _ _ h => h
  takeStop := fun _ _ _ _ h => h
  enqueue := by
    intro s sub m _ hl
    cases sub with
    | device h => exact (devices_map_modify f _ (fun d => hin d _) _ _).trans hl
    | cpu => exact hl
  deviceTick := fun s h d rest hd _ hl =>
    (devices_map_set f _ _ _ _ hd ((htick _).trans (hin d rest))).trans hl
  deviceStop := fun s h d rest hd _ hl =>
    (devices_map_set f _ _ _ _ hd ((hex { d with inbox := rest } _).trans (hin d rest))).trans hl

/-- A request keeps a device's storage in canonical form. -/
theorem Device.storageWf_serve (d : Device) (q : Request) (h : d.storageWf) :
    (d.serve q).2.storageWf := by
  unfold Device.serve
  split
  · obtain ⟨_, kind, _, _, _, _⟩ := d
    cases kind with
    | rom len cells => exact h
    | display u => rfl
    | scripted s => rfl
    | ram len cells =>
      cases q <;> try exact h
      rename_i o v
      simp only [serveRam, Device.storageWf] at h ⊢
      simp only [Bool.and_eq_true] at h
      by_cases ho : o.toNat < len
      · simp only [ho, if_true]
        rw [Memory.wf_write _ _ _ h.1, Memory.within_write _ _ _ _ ho h.2]; rfl
      · simp [ho, h]
  · exact h

/-- A scripted device gives its next answer (R64). -/
theorem askDevice_scripted {s : State} {h : Nat} {d : Device} {x : Answer} {script : List Answer}
    {q : Request} (hd : s.devices[h]? = some d) (ha : d.alive) (hk : d.kind = .scripted (x :: script)) :
    askDevice h q s =
      (x, { s with devices := s.devices.set h { d with kind := .scripted script } }) := by
  unfold askDevice; rw [hd]; simp [Device.serve, ha, hk, serveScript]

/-- A device that has terminated gives none (R264). -/
theorem askDevice_dead {s : State} {h : Nat} {d : Device} {q : Request}
    (hd : s.devices[h]? = some d) (ha : d.alive = false) : askDevice h q s = (.closed, s) := by
  unfold askDevice
  rw [hd]
  simp only [Device.serve, ha, Bool.false_eq_true, if_false]
  rw [setDevices_self s hd]

end Sys2Proof.Machine
end

