-- ==== Sys2Proof/Laws/Flags.lean ====
section
/-! SUPPORT. Reading a flag back out of the byte the flag computations assemble (R18, R211), and what each
8-bit operation makes of its operands, in numbers (R212 to R222). -/

namespace Sys2Proof.Machine

section
variable (S Z Y H X PV N C : Bool)

@[simp] theorem flagS_flagByte : flagS (flagByte S Z Y H X PV N C) = S := by
  simp only [flagS, flagByte, BitVec.getLsbD_append]; simp
@[simp] theorem flagZ_flagByte : flagZ (flagByte S Z Y H X PV N C) = Z := by
  simp only [flagZ, flagByte, BitVec.getLsbD_append]; simp
@[simp] theorem flagY_flagByte : flagY (flagByte S Z Y H X PV N C) = Y := by
  simp only [flagY, flagByte, BitVec.getLsbD_append]; simp
@[simp] theorem flagH_flagByte : flagH (flagByte S Z Y H X PV N C) = H := by
  simp only [flagH, flagByte, BitVec.getLsbD_append]; simp
@[simp] theorem flagX_flagByte : flagX (flagByte S Z Y H X PV N C) = X := by
  simp only [flagX, flagByte, BitVec.getLsbD_append]; simp
@[simp] theorem flagPV_flagByte : flagPV (flagByte S Z Y H X PV N C) = PV := by
  simp only [flagPV, flagByte, BitVec.getLsbD_append]; simp
@[simp] theorem flagN_flagByte : flagN (flagByte S Z Y H X PV N C) = N := by
  simp only [flagN, flagByte, BitVec.getLsbD_append]; simp
@[simp] theorem flagC_flagByte : flagC (flagByte S Z Y H X PV N C) = C := by
  simp only [flagC, flagByte, BitVec.getLsbD_append]; simp

end

/-- The sign bit of a byte. -/
theorem getLsbD_seven (v : Byte) : v.getLsbD 7 = decide (128 ≤ v.toNat) := by
  have h := BitVec.msb_eq_decide v
  rwa [BitVec.msb_eq_getLsbD_last] at h

/-- A byte as a signed number. -/
theorem byte_toInt (v : Byte) : v.toInt = if 128 ≤ v.toNat then (v.toNat : Int) - 256 else v.toNat := by
  rw [BitVec.toInt_eq_toNat_cond]
  have := v.isLt
  split <;> split <;> omega

/-! ### The 8-bit operations -/

theorem copiesResult_flagByte (res : Byte) (h pv n c : Bool) :
    CopiesResult (flagByte (res.getLsbD 7) (res == 0#8) (res.getLsbD 5) h (res.getLsbD 3) pv n c)
      res := by
  have hz : (res == 0#8) = decide (res = 0#8) := by by_cases e : res = 0#8 <;> simp [e]
  simp [CopiesResult, hz]

/-- The sum and its flags (R212, R213). -/
theorem add8_numbers (a v : Byte) (c : Bool) :
    let r := add8 a v c
    r.1 = BitVec.ofNat 8 (a.toNat + v.toNat + c.toNat) ∧ CopiesResult r.2 r.1 ∧
    flagH r.2 = decide (15 < a.toNat % 16 + v.toNat % 16 + c.toNat) ∧
    flagPV r.2 = decide (a.toInt + v.toInt + c.toNat < -128 ∨ 127 < a.toInt + v.toInt + c.toNat) ∧
    flagN r.2 = false ∧ flagC r.2 = decide (255 < a.toNat + v.toNat + c.toNat) := by
  refine ⟨rfl, copiesResult_flagByte _ _ _ _ _, ?_, ?_, ?_, ?_⟩
  · simp only [add8, nibble, flagH_flagByte]; exact decide_eq_decide.mpr Iff.rfl
  · simp only [add8, flagPV_flagByte, getLsbD_seven, byte_toInt, BitVec.toNat_ofNat]
    have := a.isLt; have := v.isLt
    generalize a.toNat = a at *; generalize v.toNat = v at *
    have hc : c.toNat ≤ 1 := by cases c <;> simp
    generalize c.toNat = c at *
    rw [Bool.eq_iff_iff]
    by_cases h1 : 128 ≤ a <;> by_cases h2 : 128 ≤ v <;> simp [h1, h2] <;> omega
  · simp [add8]
  · simp [add8]; omega

/-- The difference and its flags (R214, R215). -/
theorem sub8_numbers (a v : Byte) (c : Bool) :
    let r := sub8 a v c
    r.1 = BitVec.ofInt 8 (a.toNat - v.toNat - c.toNat) ∧ CopiesResult r.2 r.1 ∧
    flagH r.2 = decide (a.toNat % 16 < v.toNat % 16 + c.toNat) ∧
    flagPV r.2 = decide (a.toInt - v.toInt - c.toNat < -128 ∨ 127 < a.toInt - v.toInt - c.toNat) ∧
    flagN r.2 = true ∧ flagC r.2 = decide (a.toNat < v.toNat + c.toNat) := by
  refine ⟨rfl, copiesResult_flagByte _ _ _ _ _, ?_, ?_, ?_, ?_⟩
  · simp only [sub8, nibble, flagH_flagByte]; exact decide_eq_decide.mpr Iff.rfl
  · simp only [sub8, flagPV_flagByte, getLsbD_seven, byte_toInt, BitVec.toNat_ofInt]
    have := a.isLt; have := v.isLt
    generalize a.toNat = a at *; generalize v.toNat = v at *
    have hc : c.toNat ≤ 1 := by cases c <;> simp
    generalize c.toNat = c at *
    rw [Bool.eq_iff_iff]
    by_cases h1 : 128 ≤ a <;> by_cases h2 : 128 ≤ v <;> simp [h1, h2] <;> omega
  · simp [sub8]
  · simp [sub8]

/-- Parity is an even number of one bits (R211). -/
theorem parity_eq (v : Byte) : parity v = evenOnes v := by
  unfold parity evenOnes
  simp only [List.range, List.range.loop, List.countP_cons, List.countP_nil]
  cases v.getLsbD 0 <;> cases v.getLsbD 1 <;> cases v.getLsbD 2 <;> cases v.getLsbD 3 <;>
    cases v.getLsbD 4 <;> cases v.getLsbD 5 <;> cases v.getLsbD 6 <;> cases v.getLsbD 7 <;> rfl

/-- The increment and its flags (R220, R221). -/
theorem inc8_numbers (old f : Byte) :
    (inc8 old f).1 = BitVec.ofNat 8 (old.toNat + 1) ∧ incrementFlags old f (inc8 old f).2 := by
  have e : old + 1#8 = BitVec.ofNat 8 (old.toNat + 1) := by apply BitVec.eq_of_toNat_eq; simp
  refine ⟨e, ?_⟩
  unfold incrementFlags
  rw [← e]
  refine ⟨copiesResult_flagByte _ _ _ _ _, ?_⟩
  simp only [inc8, flagH_flagByte, flagPV_flagByte, flagN_flagByte, flagC_flagByte, nibble, and_true]
  refine ⟨?_, ?_⟩
  · rw [Bool.eq_iff_iff]; simp
  · rw [Bool.eq_iff_iff]; simp [← BitVec.toNat_inj]

/-- The decrement and its flags (R222, R223). -/
theorem dec8_numbers (old f : Byte) :
    (dec8 old f).1 = BitVec.ofNat 8 (old.toNat + 255) ∧ decrementFlags old f (dec8 old f).2 := by
  have e : old - 1#8 = BitVec.ofNat 8 (old.toNat + 255) := by
    apply BitVec.eq_of_toNat_eq; simp [BitVec.toNat_sub]; omega
  refine ⟨e, ?_⟩
  unfold decrementFlags
  rw [← e]
  refine ⟨copiesResult_flagByte _ _ _ _ _, ?_⟩
  simp only [dec8, flagH_flagByte, flagPV_flagByte, flagN_flagByte, flagC_flagByte, nibble, and_true]
  refine ⟨?_, ?_⟩
  · rw [Bool.eq_iff_iff]; simp
  · rw [Bool.eq_iff_iff]; simp [← BitVec.toNat_inj]

/-- A signed displacement, in numbers (R200, R235). -/
theorem add_sext16 (w : Word) (d : Byte) : w + sext16 d = BitVec.ofInt 16 (w.toNat + d.toInt) := by
  apply BitVec.eq_of_toInt_eq
  rw [BitVec.toInt_ofInt, BitVec.toInt_add, sext16, BitVec.toInt_signExtend_of_le (by decide),
    BitVec.toInt_eq_toNat_bmod w]
  simp

end Sys2Proof.Machine
end

