-- ==== Sys2Proof/Laws/Reference.lean ====
section
/-! SUPPORT. The reference machine (R57): where each address is routed, what every read finds, and what
a store leaves. -/

namespace Sys2Proof.Machine

/-! ### Routing -/

theorem offset_bank {a : Word} (h : ¬a.toNat < 0x4000) :
    (a - 0x4000#16).toNat = a.toNat - 0x4000 := by
  have h4 : (0x4000#16).toNat = 0x4000 := rfl
  rw [BitVec.toNat_sub_of_le (by rw [BitVec.le_def, h4]; omega), h4]

theorem offset_ram {a : Word} (h : ¬a.toNat < 0x8000) :
    (a - 0x8000#16).toNat = a.toNat - 0x8000 := by
  have h8 : (0x8000#16).toNat = 0x8000 := rfl
  rw [BitVec.toNat_sub_of_le (by rw [BitVec.le_def, h8]; omega), h8]

/-- A memory read of the reference map is routed by the two high address bits. -/
theorem lookup_memRead (port a : Word) :
    lookup ((Bus.reference port).table .mem .read) a =
      if a.toNat < 0x4000 then some ⟨⟨0x0000#16, 0x4000⟩, 0⟩
      else if a.toNat < 0x8000 then some ⟨⟨0x4000#16, 0x8000⟩, 1⟩
      else some ⟨⟨0x8000#16, 0x10000⟩, 2⟩ := by
  have ha := a.isLt
  simp only [lookup, Bus.table, Bus.reference, List.reverse_cons, List.reverse_nil,
    List.nil_append, List.cons_append, List.find?_cons, Range.contains]
  have h0 : (0x0000#16).toNat = 0 := rfl
  have h4 : (0x4000#16).toNat = 0x4000 := rfl
  have h8 : (0x8000#16).toNat = 0x8000 := rfl
  rw [h0, h4, h8]
  by_cases h1 : a.toNat < 0x4000
  · have e1 : (decide (0x8000 ≤ a.toNat) && decide (a.toNat < 0x10000)) = false := by simp; omega
    have e2 : (decide (0x4000 ≤ a.toNat) && decide (a.toNat < 0x8000)) = false := by simp; omega
    have e3 : (decide (0 ≤ a.toNat) && decide (a.toNat < 0x4000)) = true := by simp; omega
    rw [e1, e2, e3, if_pos h1]
  · by_cases h2 : a.toNat < 0x8000
    · have e1 : (decide (0x8000 ≤ a.toNat) && decide (a.toNat < 0x10000)) = false := by simp; omega
      have e2 : (decide (0x4000 ≤ a.toNat) && decide (a.toNat < 0x8000)) = true := by simp; omega
      rw [e1, e2, if_neg h1, if_pos h2]
    · have e1 : (decide (0x8000 ≤ a.toNat) && decide (a.toNat < 0x10000)) = true := by simp; omega
      rw [e1, if_neg h1, if_neg h2]

/-- A memory write is routed the same way, and not at all below 0x4000. -/
theorem lookup_memWrite (port a : Word) :
    lookup ((Bus.reference port).table .mem .write) a =
      if a.toNat < 0x4000 then none
      else if a.toNat < 0x8000 then some ⟨⟨0x4000#16, 0x8000⟩, 1⟩
      else some ⟨⟨0x8000#16, 0x10000⟩, 2⟩ := by
  have ha := a.isLt
  simp only [lookup, Bus.table, Bus.reference, List.reverse_cons, List.reverse_nil,
    List.nil_append, List.cons_append, List.find?_cons, Range.contains]
  have h4 : (0x4000#16).toNat = 0x4000 := rfl
  have h8 : (0x8000#16).toNat = 0x8000 := rfl
  rw [h4, h8]
  by_cases h1 : a.toNat < 0x4000
  · have e1 : (decide (0x8000 ≤ a.toNat) && decide (a.toNat < 0x10000)) = false := by simp; omega
    have e2 : (decide (0x4000 ≤ a.toNat) && decide (a.toNat < 0x8000)) = false := by simp; omega
    rw [e1, e2, if_pos h1]
    rfl
  · by_cases h2 : a.toNat < 0x8000
    · have e1 : (decide (0x8000 ≤ a.toNat) && decide (a.toNat < 0x10000)) = false := by simp; omega
      have e2 : (decide (0x4000 ≤ a.toNat) && decide (a.toNat < 0x8000)) = true := by simp; omega
      rw [e1, e2, if_neg h1, if_pos h2]
    · have e1 : (decide (0x8000 ≤ a.toNat) && decide (a.toNat < 0x10000)) = true := by simp; omega
      rw [e1, if_neg h1, if_neg h2]

/-- Exactly one port is mapped, for both directions. -/
theorem lookup_io (port a : Word) (dir : Dir) :
    lookup ((Bus.reference port).table .io dir) a =
      if a = port then some ⟨⟨port, port.toNat + 1⟩, 3⟩ else none := by
  have h : (decide (port.toNat ≤ a.toNat) && decide (a.toNat < port.toNat + 1)) = decide (a = port) := by
    by_cases e : a = port
    · subst e; simp
    · have : a.toNat ≠ port.toNat := fun h => e (BitVec.eq_of_toNat_eq h)
      simp [e]
      omega
  cases dir <;>
    simp only [lookup, Bus.table, Bus.reference, List.reverse_cons, List.reverse_nil,
      List.nil_append, List.find?_cons, List.find?_nil, Range.contains, h] <;>
    by_cases e : a = port <;> simp [e]

/-! ### The four devices -/

/-- The devices of a reference machine. -/
theorem State.isReference_devices {s : State} {port : Word} (h : s.isReference port) :
    s.bus = Bus.reference port ∧ ∃ rom bank ram display, s.devices = [rom, bank, ram, display] ∧
      rom.isRom 0x4000 ∧ bank.isRam 0x4000 ∧ ram.isRam 0x8000 ∧ display.isDisplay := by
  simp only [State.isReference, Bool.and_eq_true, decide_eq_true_eq] at h
  obtain ⟨hb, hd⟩ := h
  split at hd
  · rename_i d0 d1 d2 d3 heq
    simp only [Bool.and_eq_true] at hd
    exact ⟨hb, d0, d1, d2, d3, heq, hd.1.1.1, hd.1.1.2, hd.1.2, hd.2⟩
  · simp at hd

theorem Device.isRom_kind {d : Device} {n : Nat} (h : d.isRom n) :
    d.alive = true ∧ ∃ cells, d.kind = .rom n cells := by
  simp only [Device.isRom, Bool.and_eq_true] at h
  obtain ⟨ha, hk⟩ := h
  refine ⟨ha, ?_⟩
  split at hk
  · rename_i len cells heq
    exact ⟨cells, by rw [heq, decide_eq_true_eq.mp hk]⟩
  · simp at hk

theorem Device.isRam_kind {d : Device} {n : Nat} (h : d.isRam n) :
    d.alive = true ∧ ∃ cells, d.kind = .ram n cells := by
  simp only [Device.isRam, Bool.and_eq_true] at h
  obtain ⟨ha, hk⟩ := h
  refine ⟨ha, ?_⟩
  split at hk
  · rename_i len cells heq
    exact ⟨cells, by rw [heq, decide_eq_true_eq.mp hk]⟩
  · simp at hk

theorem Device.isDisplay_kind {d : Device} (h : d.isDisplay) :
    d.alive = true ∧ ∃ u, d.kind = .display u := by
  simp only [Device.isDisplay, Bool.and_eq_true] at h
  obtain ⟨ha, hk⟩ := h
  refine ⟨ha, ?_⟩
  split at hk
  · rename_i u heq
    exact ⟨u, heq⟩
  · simp at hk

/-- A reference machine with its devices spelled out. -/
structure State.Reference (s : State) (port : Word) (rom bank ram display : Device)
    (c0 c1 c2 : Memory) (u : Display) : Prop where
  bus : s.bus = Bus.reference port
  devices : s.devices = [rom, bank, ram, display]
  romAlive : rom.alive = true
  bankAlive : bank.alive = true
  ramAlive : ram.alive = true
  displayAlive : display.alive = true
  romKind : rom.kind = .rom 0x4000 c0
  bankKind : bank.kind = .ram 0x4000 c1
  ramKind : ram.kind = .ram 0x8000 c2
  displayKind : display.kind = .display u

theorem State.reference_of_isReference {s : State} {port : Word} (h : s.isReference port) :
    ∃ rom bank ram display c0 c1 c2 u, s.Reference port rom bank ram display c0 c1 c2 u := by
  obtain ⟨hb, rom, bank, ram, display, hd, h0, h1, h2, h3⟩ := State.isReference_devices h
  obtain ⟨a0, c0, k0⟩ := Device.isRom_kind h0
  obtain ⟨a1, c1, k1⟩ := Device.isRam_kind h1
  obtain ⟨a2, c2, k2⟩ := Device.isRam_kind h2
  obtain ⟨a3, u, k3⟩ := Device.isDisplay_kind h3
  exact ⟨rom, bank, ram, display, c0, c1, c2, u, hb, hd, a0, a1, a2, a3, k0, k1, k2, k3⟩

theorem State.Reference.isReference {s : State} {port : Word} {rom bank ram display : Device}
    {c0 c1 c2 : Memory} {u : Display} (h : s.Reference port rom bank ram display c0 c1 c2 u) :
    s.isReference port := by
  simp [State.isReference, h.bus, h.devices, Device.isRom, Device.isRam, Device.isDisplay,
    h.romAlive, h.bankAlive, h.ramAlive, h.displayAlive, h.romKind, h.bankKind, h.ramKind,
    h.displayKind]

section
variable {s : State} {port : Word} {rom bank ram display : Device} {c0 c1 c2 : Memory} {u : Display}
  (h : s.Reference port rom bank ram display c0 c1 c2 u)
include h

/-- What every memory address holds. -/
theorem State.Reference.peek_mem (a : Word) :
    s.peek .mem a = some (if a.toNat < 0x4000 then c0.read a.toNat
      else if a.toNat < 0x8000 then c1.read (a.toNat - 0x4000)
      else c2.read (a.toNat - 0x8000)) := by
  have ha := a.isLt
  unfold State.peek
  rw [h.bus, lookup_memRead, h.devices]
  by_cases h1 : a.toNat < 0x4000
  · have ho : (a - 0x0000#16).toNat = a.toNat := by simp
    simp only [h1, if_true, List.getElem?_cons_zero, Device.peek, h.romAlive, h.romKind,
      MapEntry.offset, ho]
  · by_cases h2 : a.toNat < 0x8000
    · have hlt : a.toNat - 0x4000 < 0x4000 := by omega
      simp only [h1, h2, if_true, if_false, List.getElem?_cons_succ, List.getElem?_cons_zero,
        Device.peek, h.bankAlive, h.bankKind, MapEntry.offset, offset_bank h1, hlt]
    · have hlt : a.toNat - 0x8000 < 0x8000 := by omega
      simp only [h1, h2, if_true, if_false, List.getElem?_cons_succ, List.getElem?_cons_zero,
        Device.peek, h.ramAlive, h.ramKind, MapEntry.offset, offset_ram h2, hlt]

/-- What every port holds. -/
theorem State.Reference.peek_io (a : Word) :
    s.peek .io a = if a = port then some (u.border.zeroExtend 8) else none := by
  unfold State.peek
  rw [h.bus, lookup_io, h.devices]
  by_cases e : a = port
  · subst e
    simp only [if_true, List.getElem?_cons_succ, List.getElem?_cons_zero, Device.peek,
      h.displayAlive, h.displayKind, MapEntry.offset, BitVec.sub_self]
  · simp [e]

/-- What a store leaves in the devices. -/
theorem State.Reference.afterStore_mem (a : Word) (v : Byte) :
    s.afterStore .mem a v = if a.toNat < 0x4000 then s
      else if a.toNat < 0x8000 then { s with devices :=
        [rom, { bank with kind := .ram 0x4000 (c1.write (a.toNat - 0x4000) v) }, ram, display] }
      else { s with devices :=
        [rom, bank, { ram with kind := .ram 0x8000 (c2.write (a.toNat - 0x8000) v) }, display] } := by
  have ha := a.isLt
  unfold State.afterStore
  rw [h.bus, lookup_memWrite, ← h.bus, h.devices]
  by_cases h1 : a.toNat < 0x4000
  · simp only [h1, if_true]
  · by_cases h2 : a.toNat < 0x8000
    · have hlt : a.toNat - 0x4000 < 0x4000 := by omega
      simp only [h1, h2, if_true, if_false, List.modify_succ_cons, List.modify_zero_cons,
        Device.store, h.bankKind, MapEntry.offset, offset_bank h1, hlt]
    · have hlt : a.toNat - 0x8000 < 0x8000 := by omega
      simp only [h1, h2, if_true, if_false, List.modify_succ_cons, List.modify_zero_cons,
        Device.store, h.ramKind, MapEntry.offset, offset_ram h2, hlt]

/-- What a write to a port leaves. -/
theorem State.Reference.afterStore_io (a : Word) (v : Byte) :
    s.afterStore .io a v = if a = port then { s with devices :=
        [rom, bank, ram, { display with kind := .display (u.setBorder v) }] } else s := by
  unfold State.afterStore
  rw [h.bus, lookup_io, ← h.bus, h.devices]
  by_cases e : a = port
  · subst e
    simp only [if_true, List.modify_succ_cons, List.modify_zero_cons, Device.store,
      h.displayKind, MapEntry.offset, BitVec.sub_self]
  · simp only [e, if_false]

theorem State.Reference.wf (hw : s.storageWf) :
    c0.wf ∧ c1.wf ∧ c2.wf := by
  simp only [State.storageWf, h.devices, List.all_cons, List.all_nil, Bool.and_true,
    Bool.and_eq_true, Device.storageWf, h.romKind, h.bankKind, h.ramKind] at hw
  exact ⟨hw.1.1, hw.2.1.1, hw.2.2.1.1⟩

/-- A store in the reference map changes the stored byte alone (R57). -/
theorem State.Reference.peek_afterStore (hw : s.storageWf) (a : Word) (v : Byte) (b : Word) :
    (s.afterStore .mem a v).peek .mem b =
        (if b = a ∧ writable a then some v else s.peek .mem b) ∧
      (s.afterStore .mem a v).peek .io b = s.peek .io b ∧
      (s.afterStore .mem a v).isReference port := by
  have ha := a.isLt
  have hbl := b.isLt
  obtain ⟨-, w1, w2⟩ := h.wf hw
  rw [h.afterStore_mem]
  have hab : b = a ↔ b.toNat = a.toNat := ⟨fun e => by rw [e], BitVec.eq_of_toNat_eq⟩
  split
  · rename_i h1
    have hn : ¬writable a := by simp [writable]; omega
    exact ⟨by simp [hn], rfl, h.isReference⟩
  · rename_i h1
    have hy : writable a := by simp [writable]; omega
    split
    · rename_i h2
      have h' : State.Reference { s with devices :=
          [rom, { bank with kind := .ram 0x4000 (c1.write (a.toNat - 0x4000) v) }, ram, display] }
          port rom { bank with kind := .ram 0x4000 (c1.write (a.toNat - 0x4000) v) } ram display
          c0 (c1.write (a.toNat - 0x4000) v) c2 u :=
        ⟨h.bus, rfl, h.romAlive, h.bankAlive, h.ramAlive, h.displayAlive, h.romKind, rfl,
          h.ramKind, h.displayKind⟩
      refine ⟨?_, by rw [h'.peek_io, h.peek_io], h'.isReference⟩
      rw [h'.peek_mem, h.peek_mem, Memory.read_write 0 _ _ _ _ w1]
      simp only [hy, and_true, hab]
      by_cases e : b.toNat = a.toNat
      · simp [e, h1, h2]
      · have : b.toNat < 0x4000 ∨ 0x8000 ≤ b.toNat ∨ b.toNat - 0x4000 ≠ a.toNat - 0x4000 := by omega
        simp only [e, if_false]
        split
        · rfl
        · split
          · rw [if_neg (by omega)]
          · rfl
    · rename_i h2
      have h' : State.Reference { s with devices :=
          [rom, bank, { ram with kind := .ram 0x8000 (c2.write (a.toNat - 0x8000) v) }, display] }
          port rom bank { ram with kind := .ram 0x8000 (c2.write (a.toNat - 0x8000) v) } display
          c0 c1 (c2.write (a.toNat - 0x8000) v) u :=
        ⟨h.bus, rfl, h.romAlive, h.bankAlive, h.ramAlive, h.displayAlive, h.romKind, h.bankKind,
          rfl, h.displayKind⟩
      refine ⟨?_, by rw [h'.peek_io, h.peek_io], h'.isReference⟩
      rw [h'.peek_mem, h.peek_mem, Memory.read_write 0 _ _ _ _ w2]
      simp only [hy, and_true, hab]
      by_cases e : b.toNat = a.toNat
      · simp [e, h1, h2]
      · simp only [e, if_false]
        split
        · rfl
        · split
          · rfl
          · rw [if_neg (by omega)]

/-- A port write in the reference map changes the border alone (R55, R57). -/
theorem State.Reference.peek_afterOutput (a : Word) (v : Byte) (b : Word) :
    (s.afterStore .io a v).peek .mem b = s.peek .mem b ∧
      (s.afterStore .io a v).peek .io b =
        if b = port ∧ a = port then some ((v.extractLsb' 0 3).zeroExtend 8) else s.peek .io b := by
  rw [h.afterStore_io]
  by_cases e : a = port
  · have h' : State.Reference { s with devices :=
        [rom, bank, ram, { display with kind := .display (u.setBorder v) }] }
        port rom bank ram { display with kind := .display (u.setBorder v) } c0 c1 c2 (u.setBorder v) :=
      ⟨h.bus, rfl, h.romAlive, h.bankAlive, h.ramAlive, h.displayAlive, h.romKind, h.bankKind,
        h.ramKind, rfl⟩
    have hb : (u.setBorder v).border = v.extractLsb' 0 3 := by
      unfold Display.setBorder
      simp only
      split
      · rename_i e; exact e.symm
      · rfl
    simp only [e, if_true]
    rw [h'.peek_mem, h.peek_mem, h'.peek_io, h.peek_io, hb]
    refine ⟨rfl, ?_⟩
    by_cases eb : b = port <;> simp [eb]
  · simp [e]

/-- A changed border colour goes to the video layer, and nothing else does (R55, R253). -/
theorem State.Reference.videoOut_afterOutput (a : Word) (v : Byte) :
    (s.afterStore .io a v).videoOut = s.videoOut ++
      if a = port ∧ s.peek .io port ≠ some ((v.extractLsb' 0 3).zeroExtend 8) then
        [.border (Config.palette (v.extractLsb' 0 3))]
      else [] := by
  have hz : ∀ x y : BitVec 3, some (x.zeroExtend 8) = some (y.zeroExtend 8) ↔ y = x := by decide
  rw [h.afterStore_io, h.peek_io]
  by_cases e : a = port
  · simp only [e, if_true, true_and, ne_eq, hz, State.videoOut, h.devices, List.flatMap_cons,
      List.flatMap_nil, h.romKind, h.bankKind, h.ramKind, h.displayKind, Display.setBorder,
      List.nil_append, List.append_nil]
    by_cases ec : v.extractLsb' 0 3 = u.border
    · rw [if_pos ec, if_neg (not_not_intro ec), List.append_nil]
    · rw [if_neg ec, if_pos ec]
  · rw [if_neg e, if_neg fun x => e x.1, List.append_nil]

end

/-! ### Several stores -/

theorem State.storageWf_afterStore {s : State} (h : s.storageWf) (sp : Space) (a : Word) (v : Byte) :
    (s.afterStore sp a v).storageWf := by
  unfold State.afterStore
  split
  · exact h
  · refine all_modify_of _ (fun d hd => ?_) _ _ h
    obtain ⟨decl, kind, alive, reg, inbox, exited⟩ := d
    cases kind with
    | ram len cells =>
      simp only [Device.storageWf, Bool.and_eq_true] at hd
      cases sp
      · simp only [Device.store]
        split
        · rename_i ho
          simp only [Device.storageWf, Bool.and_eq_true]
          exact ⟨Memory.wf_write _ _ _ hd.1, Memory.within_write _ _ _ _ ho hd.2⟩
        · simp [Device.storageWf, hd]
      · simp [Device.store, Device.storageWf, hd]
    | rom len cells => cases sp <;> exact hd
    | display u =>
      cases sp
      · rfl
      · simp only [Device.store]; split <;> rfl
    | scripted l => cases sp <;> rfl

/-- After stores in a row each address holds the last byte stored to it, or what it held. -/
theorem State.peek_afterStores {s : State} {port : Word} (h : s.isReference port) (hw : s.storageWf)
    (ps : List (Word × Byte)) :
    let t := ps.foldl (fun u p => u.afterStore .mem p.1 p.2) s
    (∀ b, t.peek .mem b = memoryAfter s ps.reverse b) ∧ (∀ b, t.peek .io b = s.peek .io b) ∧
      t.isReference port ∧ t.storageWf := by
  induction ps using List.reverseRecOn with
  | nil => exact ⟨fun _ => rfl, fun _ => rfl, h, hw⟩
  | append_singleton init p ih =>
    obtain ⟨h1, h2, h3, h4⟩ := ih
    simp only [List.foldl_append, List.foldl_cons, List.foldl_nil, List.reverse_append,
      List.reverse_cons, List.reverse_nil, List.nil_append, List.cons_append, memoryAfter]
    obtain ⟨rom, bank, ram, display, c0, c1, c2, u, hr⟩ := State.reference_of_isReference h3
    refine ⟨fun b => ?_, fun b => ?_, ?_, State.storageWf_afterStore h4 _ _ _⟩
    · rw [(hr.peek_afterStore h4 p.1 p.2 b).1, h1]
    · rw [(hr.peek_afterStore h4 p.1 p.2 b).2.1, h2]
    · exact (hr.peek_afterStore h4 p.1 p.2 0).2.2

end Sys2Proof.Machine
end

