-- ==== Sys2Proof/Laws/Related.lean ====
section
/-! SUPPORT. Two machines side by side, said once: a relation that agrees on what a handler can see, and
survives each change a handler is made of, holds between the outcomes of every instruction. -/

namespace Sys2Proof.Machine

/-- The relation shows a handler the same registers, tables and replies, and survives what a handler
does. -/
structure SameToHandlers (R : State → State → Prop) : Prop where
  sameRegs : ∀ s t, R s t → s.cpu.regs = t.cpu.regs
  sameSnapshot : ∀ s t, R s t → s.cpu.snapshot = t.cpu.snapshot
  sameBus : ∀ s t, R s t → s.bus = t.bus
  sameOpenBus : ∀ s t, R s t → s.conf.openBus = t.conf.openBus
  regs : ∀ s t r, R s t → R (s.withRegs r) (t.withRegs r)
  answer : ∀ s t h q, R s t → (askDevice h q s).1 = (askDevice h q t).1
  ask : ∀ s t h q, R s t → R (askDevice h q s).2 (askDevice h q t).2
  fatal : ∀ s t f, R s t → R (raiseFatal f s) (raiseFatal f t)
  finish : ∀ s t c, R s t → R { s with cpu := { s.cpu with cyc := c, phase := .idle } }
    { t with cpu := { t.cpu with cyc := c, phase := .idle } }

/-- Two outcomes agree: the same stop, or next states that are related. -/
def Result.Related (R : State → State → Prop) : Result → Result → Prop
  | .next s, .next t => R s t
  | .fault f, .fault g => f = g
  | .refused f, .refused g => f = g
  | _, _ => False

/-- Two accesses agree: the same kind of end, the same value, related states. -/
def Access.Related {α : Type} (R : State → State → Prop) : Access α → Access α → Prop
  | .ok v s, .ok w t => v = w ∧ R s t
  | .addressFault s, .addressFault t => R s t
  | .fatal s, .fatal t => R s t
  | .hang h, .hang k => h = k
  | _, _ => False

section
variable {R : State → State → Prop} (hR : SameToHandlers R)
include hR

theorem busRead_related (sp : Space) (a : Word) {s t : State} (h : R s t) :
    (busRead sp a s).Related R (busRead sp a t) := by
  unfold busRead
  rw [hR.sameBus _ _ h]
  split
  · split
    · exact h
    · rename_i m _
      have ha := hR.answer _ _ m.dev (readRequest sp (m.offset a)) h
      have hk := hR.ask _ _ m.dev (readRequest sp (m.offset a)) h
      simp only
      generalize askDevice m.dev (readRequest sp (m.offset a)) s = y at ha hk
      generalize askDevice m.dev (readRequest sp (m.offset a)) t = z at ha hk
      obtain ⟨x, u⟩ := y
      obtain ⟨x', v⟩ := z
      cases ha
      cases sp <;> cases x
      case mem.reply r => cases r <;> first | exact hk | exact ⟨rfl, hk⟩ | exact hR.fatal _ _ _ hk
      case io.reply r => cases r <;> first | exact hk | exact ⟨rfl, hk⟩ | exact hR.fatal _ _ _ hk
      all_goals first | exact hR.fatal _ _ _ hk | exact rfl
  · exact hR.fatal _ _ _ h

theorem busWrite_related (sp : Space) (a : Word) (b : Byte) {s t : State} (h : R s t) :
    (busWrite sp a b s).Related R (busWrite sp a b t) := by
  unfold busWrite
  rw [hR.sameBus _ _ h]
  split
  · split
    · exact h
    · rename_i m _
      have ha := hR.answer _ _ m.dev (writeRequest sp (m.offset a) b) h
      have hk := hR.ask _ _ m.dev (writeRequest sp (m.offset a) b) h
      simp only
      generalize askDevice m.dev (writeRequest sp (m.offset a) b) s = y at ha hk
      generalize askDevice m.dev (writeRequest sp (m.offset a) b) t = z at ha hk
      obtain ⟨x, u⟩ := y
      obtain ⟨x', v⟩ := z
      cases ha
      cases sp <;> cases x
      case mem.reply r => cases r <;> first | exact hk | exact ⟨rfl, hk⟩ | exact hR.fatal _ _ _ hk
      case io.reply r => cases r <;> first | exact hk | exact ⟨rfl, hk⟩ | exact hR.fatal _ _ _ hk
      all_goals first | exact hR.fatal _ _ _ hk | exact rfl
  · exact hR.fatal _ _ _ h

theorem SameToHandlers.restore {s t : State} (h : R s t) :
    R (restoreSnapshot s) (restoreSnapshot t) := by
  unfold restoreSnapshot
  rw [hR.sameSnapshot _ _ h]
  exact hR.regs _ _ _ h

/-- A behaviour cannot tell them apart. -/
theorem Behaviour.run_related (b : Behaviour) {s t : State} (h : R s t) :
    Result.Related R (b.run s) (b.run t) := by
  induction b generalizing s t with
  | ends regs c => exact hR.finish _ _ _ (hR.regs _ _ _ h)
  | reads sp a next ih =>
    have hb := busRead_related hR sp a h
    unfold Behaviour.run
    generalize busRead sp a s = y at hb
    generalize busRead sp a t = z at hb
    cases y <;> cases z <;> try exact hb.elim
    · obtain ⟨rfl, hb⟩ := hb
      exact ih _ hb
    · simp only
      rw [hR.sameOpenBus _ _ hb]
      exact ih _ hb
    · exact hR.restore hb
    · exact congrArg Fault.deviceSilent hb
  | writes sp a v next ih =>
    have hb := busWrite_related hR sp a v h
    unfold Behaviour.run
    generalize busWrite sp a v s = y at hb
    generalize busWrite sp a v t = z at hb
    cases y <;> cases z <;> try exact hb.elim
    · exact ih _ hb.2
    · exact ih _ hb
    · exact hR.restore hb
    · exact congrArg Fault.deviceSilent hb

theorem notImplemented_related (path : List Byte) {s t : State} (h : R s t) :
    Result.Related R (notImplementedPath path s) (notImplementedPath path t) := by
  unfold notImplementedPath State.r16
  rw [hR.sameRegs _ _ h]
  exact hR.fatal _ _ _ h

/-- Two machines that a handler cannot tell apart go on that way. -/
theorem exec_related (i : Instr) {s t : State} (h : R s t) :
    Result.Related R (exec i s) (exec i t) := by
  cases hi : i.isNotImplemented with
  | false =>
    obtain ⟨p, hp⟩ := exec_behaves i hi
    rw [hp, hp, hR.sameRegs _ _ h]
    exact (p _).run_related hR h
  | true =>
    cases i with
    | niRoot op => exact notImplemented_related hR _ h
    | niDd op => exact notImplemented_related hR _ h
    | niFd op => exact notImplemented_related hR _ h
    | niEd op => exact notImplemented_related hR _ h
    | _ => cases hi

end

end Sys2Proof.Machine
end

