-- ==== Sys2Proof/Laws/Stack.lean ====
section
/-! SUPPORT. The stack operations said once: the transactions they issue on any machine, and what they do
where devices answer (R193, R194, R238, R240). -/

namespace Sys2Proof.Machine

theorem sub_one_sub_one (w : Word) : w - 1#16 - 1#16 = w - 2#16 := by bv_omega
theorem add_one_add_one (w : Word) : w + 1#16 + 1#16 = w + 2#16 := by bv_omega

/-- A store changes devices alone. -/
theorem State.afterStore_eq (s : State) (sp : Space) (a : Word) (v : Byte) :
    s.afterStore sp a v = { s with devices := (s.afterStore sp a v).devices } := by
  unfold State.afterStore; split <;> rfl

/-- A store does not depend on the registers. -/
theorem State.afterStore_withRegs (s : State) (sp : Space) (a : Word) (v : Byte) (r : RegFile) :
    (s.withRegs r).afterStore sp a v = (s.afterStore sp a v).withRegs r := by
  unfold State.afterStore; simp only [State.withRegs_bus]; split <;> rfl

theorem follows_pushWord {v : Word} {s : State} {k : State → Result} {got : List Byte}
    {rest : Program} (hk : ∀ u : State, Follows rest got u (k u)) :
    Follows (writesAt .mem [(s.r16 .sp - 1#16, highByte v), (s.r16 .sp - 2#16, lowByte v)] ++ rest)
      got s (pushWord v s k) := by
  unfold pushWord pushByte
  simp only
  refine follows_withRegs (s.put16 .sp (s.r16 .sp - 1#16)).cpu.regs
    (follows_write rfl fun u hu => ?_)
  refine follows_withRegs (u.put16 .sp (u.r16 .sp - 1#16)).cpu.regs
    (follows_write ?_ fun u' hu' => hk u')
  show Transaction.write .mem (s.r16 .sp - 2#16) (lowByte v) =
    Transaction.write .mem (u.r16 .sp - 1#16) _
  have : u.r16 .sp = s.r16 .sp - 1#16 := by rw [hu]; rfl
  rw [← sub_one_sub_one, this]

theorem follows_popWord {s : State} {k : Word → State → Result} {got : List Byte} {rest : Program}
    (hk : ∀ v got (u : State), Follows rest got u (k v u)) :
    Follows (readsAt .mem [s.r16 .sp, s.r16 .sp + 1#16] ++ rest) got s (popWord s k) := by
  unfold popWord popByte
  refine follows_read rfl fun b u hu => ?_
  refine follows_withRegs (u.put16 .sp (u.r16 .sp + 1#16)).cpu.regs
    (follows_read ?_ fun b' u' hu' => ?_)
  · show Transaction.read .mem (s.r16 .sp + 1#16) = Transaction.read .mem (u.r16 .sp + 1#16)
    rw [hu]; rfl
  · exact follows_withRegs (u'.put16 .sp (u'.r16 .sp + 1#16)).cpu.regs (hk _ _ _)

/-- A push where devices answer. -/
theorem pushWord_settled {s : State} (hs : s.settled) (v : Word) (k : State → Result) :
    pushWord v s k = k (((s.afterStore .mem (s.r16 .sp - 1#16) (highByte v)).afterStore .mem
      (s.r16 .sp - 2#16) (lowByte v)).put16 .sp (s.r16 .sp - 2#16)) := by
  unfold pushWord
  have h1 : (s.put16 .sp (s.r16 .sp - 1#16)).settled := hs
  rw [pushByte_settled hs, pushByte_settled (State.settled_afterStore h1 _ _ _)]
  congr 1
  have e0 : ∀ (s : State) (a b : Word), (s.put16 .sp a).put16 .sp b = s.put16 .sp b :=
    fun _ _ _ => rfl
  have e1 : ∀ (s : State) w a v,
      (s.put16 .sp w).afterStore .mem a v = (s.afterStore .mem a v).put16 .sp w := by
    intro s w a v
    unfold State.put16; rw [State.afterStore_withRegs]; simp
  simp only [e1, State.r16_put16_self, e0, sub_one_sub_one]

/-- A pop where devices answer. -/
theorem popWord_settled {s : State} (hs : s.settled) (k : Word → State → Result) :
    popWord s k = k (compose (s.readValue .mem (s.r16 .sp + 1#16)) (s.readValue .mem (s.r16 .sp)))
      (s.put16 .sp (s.r16 .sp + 2#16)) := by
  unfold popWord
  have h1 : (s.put16 .sp (s.r16 .sp + 1#16)).settled := hs
  rw [popByte_settled hs, popByte_settled h1]
  have e0 : ∀ (s : State) (a b : Word), (s.put16 .sp a).put16 .sp b = s.put16 .sp b :=
    fun _ _ _ => rfl
  simp only [State.r16_put16_self, e0, add_one_add_one, State.readValue_put16]

/-- The transactions of a call. -/
theorem follows_callTo (s : State) (target : Word) (c : Nat) :
    Follows (writesAt .mem (returnAddressStores s)) [] s (callTo target c s) :=
  follows_pushWord (rest := []) fun _ => follows_finish _ rfl rfl

/-- A call where devices answer. -/
theorem callTo_settled {s : State} (hs : s.settled) (target : Word) (c : Nat) (hc : 1 ≤ c) :
    ∃ t, callTo target c s = .next t ∧ Completed c s t ∧ t.devices =
        ((returnAddressStores s).foldl (fun u p => u.afterStore .mem p.1 p.2) s).devices ∧
      t.cpu.regs = (jump target (s.put16 .sp (s.r16 .sp - 2#16))).cpu.regs := by
  have e : (returnAddressStores s).foldl (fun u p => u.afterStore .mem p.1 p.2) s =
      (s.afterStore .mem (s.r16 .sp - 1#16) (highByte (s.r16 .pc))).afterStore .mem
        (s.r16 .sp - 2#16) (lowByte (s.r16 .pc)) := rfl
  rw [e]
  generalize hg : (s.afterStore .mem (s.r16 .sp - 1#16) (highByte (s.r16 .pc))).afterStore .mem
    (s.r16 .sp - 2#16) (lowByte (s.r16 .pc)) = g
  have hg' : g = { s with devices := g.devices } := by
    rw [← hg, State.afterStore_eq (s.afterStore ..), State.afterStore_eq s]
  obtain ⟨t, ht, hC, hd, hr⟩ := completed_finish (s := s)
    (u := jump target (g.put16 .sp (s.r16 .sp - 2#16))) c hc (by rw [hg']; rfl)
  refine ⟨t, ?_, hC, hd, ?_⟩
  · rw [← ht, ← hg]; exact pushWord_settled hs _ _
  · rw [hr, hg']; rfl

/-- The transactions of a return. -/
theorem follows_returnFrom (s : State) (c : Nat) :
    Follows (readsAt .mem [s.r16 .sp, s.r16 .sp + 1#16]) [] s (returnFrom c s) :=
  show Follows _ _ _ (popWord s fun target s => finish c (jump target s)) from
    follows_popWord (rest := []) fun _ _ _ => follows_finish _ rfl rfl

/-- A return where devices answer. -/
theorem returnFrom_settled {s : State} (hs : s.settled) (c : Nat) (hc : 1 ≤ c) :
    ∃ t, returnFrom c s = .next t ∧ Completed c s t ∧ t.devices = s.devices ∧
      t.cpu.regs = (jump (compose (s.readValue .mem (s.r16 .sp + 1#16))
        (s.readValue .mem (s.r16 .sp))) (s.put16 .sp (s.r16 .sp + 2#16))).cpu.regs := by
  obtain ⟨t, ht, hC, hd, hr⟩ := completed_finish (s := s)
    (u := jump (compose (s.readValue .mem (s.r16 .sp + 1#16)) (s.readValue .mem (s.r16 .sp)))
      (s.put16 .sp (s.r16 .sp + 2#16))) c hc rfl
  exact ⟨t, (popWord_settled hs _).trans ht, hC, hd, hr⟩

end Sys2Proof.Machine
end

