-- ==== Sys2Proof/Laws/Runs.lean ====
section
/-! SUPPORT. From a meaning's shape to what it does from start to end: one lemma per shape (registers only,
reads, stores, output). A caller gives the shape, the registers it leaves and its result. -/

namespace Sys2Proof.Machine

/-- The result is a statement about registers alone. -/
def OfRegs (g : State → State) (result : State → State → Prop) : Prop :=
  ∀ s t : State, t.cpu.regs = (g s).cpu.regs → result s t

theorem ofRegs {g : State → State} {result : State → State → Prop}
    (h : ∀ s, result s (g s)) (hr : ∀ s t u, t.cpu.regs = u.cpu.regs → result s u → result s t) :
    OfRegs g result := fun s t e => hr s t (g s) e (h s)

theorem r8_of_regs {t u : State} (h : t.cpu.regs = u.cpu.regs) : t.r8 = u.r8 := by
  funext q; simp only [State.r8, h]

theorem r16_of_regs {t u : State} (h : t.cpu.regs = u.cpu.regs) : t.r16 = u.r16 := by
  funext q; simp only [State.r16, h]

/-- Registers only. -/
theorem runsOnRegisters {i : Instr} {code : List Byte} {cost : State → Nat} {l8 : List Ent8}
    {l16 : List Ent16} {result : State → State → Prop} (g : State → State) (hc : encode i = code)
    (he : ∀ s, exec i s = finish (cost s) (g s)) (hpos : ∀ s, 1 ≤ cost s)
    (hg : ∀ s, g s = s.withRegs (g s).cpu.regs) (hk : ∀ s, RegsKept l8 l16 s (g s))
    (hres : OfRegs g result) : RunsOnRegisters i code cost l8 l16 result := by
  refine ⟨hc, fun s => ?_⟩
  obtain ⟨t, ht, hC, hd, hr⟩ := completed_finish (s := s) (u := g s) (cost s) (hpos s)
    (by rw [hg s]; rfl)
  refine ⟨t, by rw [he, ht], hC, by rw [hd, hg s]; rfl, (hk s).of_regs hr, hres s t hr⟩

/-- One read, then registers only. -/
theorem runsReadingOne {i : Instr} {code : List Byte} {cost : State → Nat} {sp : Space}
    {addr : State → Word} {l8 : List Ent8} {l16 : List Ent16} {result : State → State → Prop}
    (g : Byte → State → State) (hc : encode i = code)
    (he : ∀ s, exec i s = dataRead sp (addr s) s fun v u => finish (cost s) (g v u))
    (hpos : ∀ s, 1 ≤ cost s) (hg : ∀ v s, g v s = s.withRegs (g v s).cpu.regs)
    (hk : ∀ v s, RegsKept l8 l16 s (g v s))
    (hres : OfRegs (fun s => g (s.readValue sp (addr s)) s) result) :
    RunsReading i code cost sp (fun s => [addr s]) l8 l16 result := by
  refine ⟨hc, (issues_iff _ _).2 fun s => ?_, fun s hs => ?_⟩
  · rw [he]
    refine follows_read rfl fun b u _ => follows_finish _ ?_ ?_ <;> rw [hg b u] <;> rfl
  · have hs : s.settled := by
      rcases hs with hs | hs
      · exact hs
      · simp at hs
    obtain ⟨t, ht, hC, hd, hr⟩ := completed_finish (s := s) (u := g (s.readValue sp (addr s)) s)
      (cost s) (hpos s) (by rw [hg _ s]; rfl)
    exact ⟨t, by rw [he, dataRead_settled hs, ht], hC, by rw [hd, hg _ s]; rfl,
      (hk _ s).of_regs hr, hres s t hr⟩

/-- No transaction at all, among instructions whose other forms read. -/
theorem runsReadingNone {i : Instr} {code : List Byte} {cost : State → Nat} {sp : Space}
    {l8 : List Ent8} {l16 : List Ent16} {result : State → State → Prop} (g : State → State)
    (hc : encode i = code) (he : ∀ s, exec i s = finish (cost s) (g s)) (hpos : ∀ s, 1 ≤ cost s)
    (hg : ∀ s, g s = s.withRegs (g s).cpu.regs) (hk : ∀ s, RegsKept l8 l16 s (g s))
    (hres : OfRegs g result) : RunsReading i code cost sp (fun _ => []) l8 l16 result := by
  refine ⟨hc, (issues_iff _ _).2 fun s => ?_, fun s _ => ?_⟩
  · rw [he]; exact follows_finish _ (by rw [hg s]; rfl) (by rw [hg s]; rfl)
  · obtain ⟨t, ht, hC, hd, hr⟩ := completed_finish (s := s) (u := g s) (cost s) (hpos s)
      (by rw [hg s]; rfl)
    exact ⟨t, by rw [he, ht], hC, by rw [hd, hg s]; rfl, (hk s).of_regs hr, hres s t hr⟩

/-- The reference part of a storing instruction. -/
theorem reference_stores {s t : State} {ps : List (Word × Byte)} (hb : t.bus = s.bus)
    (hd : t.devices = (ps.foldl (fun u p => u.afterStore .mem p.1 p.2) s).devices) :
    ∀ port, s.isReference port → s.storageWf →
      (∀ b, t.peek .mem b = memoryAfter s ps.reverse b) ∧ ∀ b, t.peek .io b = s.peek .io b := by
  intro port h hw
  obtain ⟨h1, h2, h3, -⟩ := State.peek_afterStores h hw ps
  have hbus : t.bus = (ps.foldl (fun u p => u.afterStore .mem p.1 p.2) s).bus := by
    rw [hb, (State.isReference_devices h).1, (State.isReference_devices h3).1]
  have hp := State.peek_congr hbus hd
  rw [hp]
  exact ⟨h1, h2⟩

/-- One byte stored, and nothing else. -/
theorem storesOneByte_of {i : Instr} {code : List Byte} {cost : Nat} {addr : State → Word}
    {val : State → Byte} (hc : encode i = code) (hp : 1 ≤ cost)
    (he : ∀ s, exec i s = dataWrite .mem (addr s) (val s) s fun u => finish cost u) :
    storesOneByte i code cost addr val := by
  refine ⟨hc, (issues_iff _ _).2 fun s => ?_, fun s hs => ?_⟩
  · rw [he]
    exact follows_write rfl fun u hu => follows_finish _ rfl rfl
  · have hs : s.settled := by simpa [writesAt] using hs
    obtain ⟨t, ht, hC, hd, hr⟩ := completed_finish (s := s)
      (u := s.afterStore .mem (addr s) (val s)) cost hp (by rw [State.afterStore_eq s])
    refine ⟨t, by rw [he, dataWrite_settled hs, ht], hC, hd, reference_stores hC.bus hd, ?_, trivial⟩
    exact (RegsKept.refl _ _ s).of_regs (by rw [hr]; simp)

/-- One byte read, changed, and stored at the same address: `INC (HL)` and `DEC (HL)`. -/
theorem runsReadModifyWrite {i : Instr} {code : List Byte} (op : Byte → Byte → Byte × Byte)
    (n : Byte → Byte) (hn : ∀ o f, (op o f).1 = n o) (flags : Byte → Byte → Byte → Prop)
    (hf : ∀ o f, flags o f (op o f).2) (hc : encode i = code)
    (he : ∀ s, exec i s = dataRead .mem (s.r16 .hl) s fun old s =>
      dataWrite .mem (s.r16 .hl) (op old (s.r8 .f)).1 (s.put8 .f (op old (s.r8 .f)).2)
        fun s => finish 11 s) :
    RunsStoring i code (fun _ => 11)
      (fun s => [fun _ => .read .mem (s.r16 .hl),
        fun got => .write .mem (s.r16 .hl) (n (got.headD 0))])
      (fun s => [(s.r16 .hl, n (s.readValue .mem (s.r16 .hl)))]) [.f] []
      fun s t => flags (s.readValue .mem (s.r16 .hl)) (s.r8 .f) (t.r8 .f) := by
  refine ⟨hc, (issues_iff _ _).2 fun s => ?_, fun s hs => ?_⟩
  · rw [he]
    refine follows_read rfl fun b u hu => ?_
    refine follows_withRegs (u.put8 .f (op b (u.r8 .f)).2).cpu.regs
      (follows_write ?_ fun u' _ => follows_finish _ rfl rfl)
    rw [hn]
    show Transaction.write .mem (s.r16 .hl) (n b) = _
    rw [hu]; rfl
  · have hs : s.settled := by simpa using hs
    let f' := (op (s.readValue .mem (s.r16 .hl)) (s.r8 .f)).2
    have h1 : (s.put8 .f f').settled := hs
    obtain ⟨t, ht, hC, hd, hr⟩ := completed_finish (s := s) (u :=
      (s.afterStore .mem (s.r16 .hl) (n (s.readValue .mem (s.r16 .hl)))).put8 .f f') 11
      (by decide) (by rw [State.afterStore_eq s]; rfl)
    refine ⟨t, ?_, hC, hd, reference_stores hC.bus hd, ?_, ?_⟩
    · rw [he, dataRead_settled hs, dataWrite_settled h1, hn, ← ht]
      congr 1
      unfold State.put8
      rw [State.afterStore_withRegs]; simp [f']
    · refine RegsKept.of_regs (t := s.put8 .f f') ((RegsKept.refl _ _ s).put8 _ _ (by simp)) ?_
      rw [hr, State.afterStore_eq s]; rfl
    · show flags _ _ (t.r8 .f)
      rw [r8_of_regs hr, State.r8_put8_self]
      exact hf _ _

/-- One port written, and nothing else. -/
theorem runsOutput_of {i : Instr} {code : List Byte} {cost : Nat} {addr : State → Word}
    {val : State → Byte} (hc : encode i = code) (hp : 1 ≤ cost)
    (he : ∀ s, exec i s = dataWrite .io (addr s) (val s) s fun u => finish cost u) :
    RunsOutput i code cost addr val := by
  have low3 : ∀ v : Byte, (v.extractLsb' 0 3).zeroExtend 8 = v &&& 0x07#8 := by decide
  refine ⟨hc, (issues_iff _ _).2 fun s => ?_, fun s hs => ?_⟩
  · rw [he]
    exact follows_write rfl fun u hu => follows_finish _ rfl rfl
  · obtain ⟨t, ht, hC, hd, hr⟩ := completed_finish (s := s)
      (u := s.afterStore .io (addr s) (val s)) cost hp (by rw [State.afterStore_eq s])
    refine ⟨t, by rw [he, dataWrite_settled hs, ht], hC, hd, ?_,
      (RegsKept.refl _ _ s).of_regs (by rw [hr]; simp)⟩
    intro port hp
    obtain ⟨rom, bank, ram, display, c0, c1, c2, u, h⟩ := State.reference_of_isReference hp
    rw [State.peek_congr (s := s.afterStore .io (addr s) (val s)) (t := t)
      (by rw [hC.bus]; simp) hd]
    have hv : t.videoOut = (s.afterStore .io (addr s) (val s)).videoOut := by
      unfold State.videoOut
      rw [hd]
    rw [h.videoOut_afterOutput] at hv
    rw [low3] at hv
    refine ⟨fun b => (h.peek_afterOutput _ _ b).1, fun b => ?_, fun hn => ?_, fun he hb => ?_⟩
    · rw [(h.peek_afterOutput _ _ b).2, low3]
    · rw [hv, if_neg fun x => hn x.1, List.append_nil]
    · rw [hv, if_pos ⟨he, hb⟩]

/-- An accumulator operation in its three operand forms. -/
theorem runsAccumulate (x : AluSource) (op : Byte → Byte → Byte → Byte × Byte) (i : Instr)
    (ooo : BitVec 3) (result : State → Byte → Byte → Byte → Prop) (hc : encode i = x.code ooo)
    (he : ∀ s, exec i s = match x with
      | .reg r => finish 4 (accumulate op (s.reg r) s)
      | .indHl => dataRead .mem (s.r16 .hl) s fun v u => finish 7 (accumulate op v u)
      | .immediate n => finish 7 (accumulate op n s))
    (hres : ∀ s v, result s v (op (s.r8 .a) v (s.r8 .f)).1 (op (s.r8 .a) v (s.r8 .f)).2) :
    RunsReading i (x.code ooo) (fun _ => x.cost) .mem x.reads [.a, .f] []
      fun s t => result s (x.value s) (t.r8 .a) (t.r8 .f) := by
  have hk : ∀ v s, RegsKept [.a, .f] [] s (accumulate op v s) := fun v s =>
    ((RegsKept.refl _ _ s).put8 _ _ (by simp)).put8 _ _ (by simp)
  cases x with
  | reg r =>
    refine runsReadingNone (fun s => accumulate op (s.reg r) s) hc he (fun _ => Nat.succ_pos _)
      (fun s => rfl) (fun s => hk _ _) ?_
    exact ofRegs (fun s => hres s _) (fun s t u h r => by rw [r8_of_regs h]; exact r)
  | immediate n =>
    refine runsReadingNone (fun s => accumulate op n s) hc he (fun _ => Nat.succ_pos _)
      (fun s => rfl) (fun s => hk _ _) ?_
    exact ofRegs (fun s => hres s _) (fun s t u h r => by rw [r8_of_regs h]; exact r)
  | indHl =>
    refine runsReadingOne (fun v s => accumulate op v s) hc he (fun _ => by decide)
      (fun v s => rfl) (fun v s => hk _ _) ?_
    exact ofRegs (fun s => hres s _) (fun s t u h r => by rw [r8_of_regs h]; exact r)

end Sys2Proof.Machine
end

