-- ==== Sys2Proof/Tests/Slice0.lean ====
section
/-! SUPPORT. Tests: ill-formed terms, decoding of words written out from the spec's encodings, one step
per example of spec/95_test_vectors.md, what boot, the Clock and the outside do, and a witness
for the hypotheses of every obligation that has any. Expected values come from the spec. -/

namespace Sys2Proof.Tests

open Sys2Proof.Machine

/-! ### Ill-formed terms -/

/-- Each check refuses a byte that is a terminal, and accepts one that is marked (R97 to R100). -/
theorem test_wellFormed_niRoot :
    (Instr.niRoot 0x00#8).wellFormed = false ∧ (Instr.niRoot 0x76#8).wellFormed := by decide
theorem test_wellFormed_niDd :
    (Instr.niDd 0x21#8).wellFormed = false ∧ (Instr.niDd 0x76#8).wellFormed := by decide
theorem test_wellFormed_niFd :
    (Instr.niFd 0x77#8).wellFormed = false ∧ (Instr.niFd 0x00#8).wellFormed := by decide
theorem test_wellFormed_niEd :
    (Instr.niEd 0x79#8).wellFormed = false ∧ (Instr.niEd 0x70#8).wellFormed := by decide

/-! ### Decoding: every constructor, by a word from its row of rule R96 -/

/-- The bytes are exactly this instruction. -/
def decodesTo (bytes : List Byte) (i : Instr) : Bool :=
  match decode bytes with
  | .ok (j, []) => decide (j = i)
  | _ => false

theorem test_decode_control :
    decodesTo [0b00000000#8] .nop ∧ decodesTo [0b00010000#8, 5#8] (.djnz 5#8) ∧
      decodesTo [0b00011000#8, 0x80#8] (.jr 0x80#8) ∧
      decodesTo [0b00101000#8, 7#8] (.jrCc .z 7#8) ∧
      decodesTo [0b11000011#8, 0x34#8, 0x12#8] (.jpNn 0x1234#16) ∧
      decodesTo [0b11110010#8, 0x34#8, 0x12#8] (.jpCcNn .p 0x1234#16) ∧
      decodesTo [0b11101001#8] .jpHl ∧
      decodesTo [0b11001101#8, 0x34#8, 0x12#8] (.callNn 0x1234#16) ∧
      decodesTo [0b11101100#8, 0x34#8, 0x12#8] (.callCcNn .pe 0x1234#16) ∧
      decodesTo [0b11001001#8] .ret ∧ decodesTo [0b11111000#8] (.retCc .m) ∧
      decodesTo [0b11110111#8] (.rstP 6#3) := by decide

theorem test_decode_loads_of_bytes :
    decodesTo [0b01000001#8] (.ldRR .b .c) ∧
      decodesTo [0b00010110#8, 9#8] (.ldRN .d 9#8) ∧
      decodesTo [0b01011110#8] (.ldRIndHl .e) ∧
      decodesTo [0b01110100#8] (.ldIndHlR .h) ∧
      decodesTo [0b00110110#8, 9#8] (.ldIndHlN 9#8) ∧
      decodesTo [0b00000010#8] .ldIndBcA ∧ decodesTo [0b00001010#8] .ldAIndBc ∧
      decodesTo [0b00010010#8] .ldIndDeA ∧ decodesTo [0b00011010#8] .ldAIndDe ∧
      decodesTo [0b00110010#8, 0x34#8, 0x12#8] (.ldIndNnA 0x1234#16) ∧
      decodesTo [0b00111010#8, 0x34#8, 0x12#8] (.ldAIndNn 0x1234#16) ∧
      decodesTo [0xDD#8, 0b01101110#8, 9#8] (.ldRIndIx .l 9#8) ∧
      decodesTo [0xDD#8, 0b01110111#8, 9#8] (.ldIndIxR 9#8 .a) ∧
      decodesTo [0xFD#8, 0b01001110#8, 9#8] (.ldRIndIy .c 9#8) ∧
      decodesTo [0xFD#8, 0b01110010#8, 9#8] (.ldIndIyR 9#8 .d) := by decide

theorem test_decode_loads_of_words :
    decodesTo [0b00110001#8, 0x34#8, 0x12#8] (.ldDdNn .sp 0x1234#16) ∧
      decodesTo [0b00100010#8, 0x34#8, 0x12#8] (.ldIndNnHl 0x1234#16) ∧
      decodesTo [0b00101010#8, 0x34#8, 0x12#8] (.ldHlIndNn 0x1234#16) ∧
      decodesTo [0b11111001#8] .ldSpHl ∧
      decodesTo [0xDD#8, 0b00100001#8, 0x34#8, 0x12#8] (.ldIxNn 0x1234#16) ∧
      decodesTo [0xFD#8, 0b00100001#8, 0x34#8, 0x12#8] (.ldIyNn 0x1234#16) ∧
      decodesTo [0b11110101#8] (.pushQq .af) ∧ decodesTo [0b11100001#8] (.popQq .hl) ∧
      decodesTo [0b00001000#8] .exAfAf ∧ decodesTo [0b11011001#8] .exx ∧
      decodesTo [0b11101011#8] .exDeHl := by decide

theorem test_decode_arithmetic :
    decodesTo [0b10000001#8] (.addAR .c) ∧ decodesTo [0b10000110#8] .addAIndHl ∧
      decodesTo [0b11000110#8, 9#8] (.addAN 9#8) ∧
      decodesTo [0b10001010#8] (.adcAR .d) ∧ decodesTo [0b10001110#8] .adcAIndHl ∧
      decodesTo [0b11001110#8, 9#8] (.adcAN 9#8) ∧
      decodesTo [0b10010011#8] (.subR .e) ∧ decodesTo [0b10010110#8] .subIndHl ∧
      decodesTo [0b11010110#8, 9#8] (.subN 9#8) ∧
      decodesTo [0b10011100#8] (.sbcAR .h) ∧ decodesTo [0b10011110#8] .sbcAIndHl ∧
      decodesTo [0b11011110#8, 9#8] (.sbcAN 9#8) ∧
      decodesTo [0b00111001#8] (.addHlSs .sp) ∧ decodesTo [0b00010011#8] (.incSs .de) ∧
      decodesTo [0b00101011#8] (.decSs .hl) ∧ decodesTo [0b00001100#8] (.incR .c) ∧
      decodesTo [0b00110100#8] .incIndHl ∧ decodesTo [0b00100101#8] (.decR .h) ∧
      decodesTo [0b00110101#8] .decIndHl := by decide

theorem test_decode_logic :
    decodesTo [0b10100101#8] (.andR .l) ∧ decodesTo [0b10100110#8] .andIndHl ∧
      decodesTo [0b11100110#8, 9#8] (.andN 9#8) ∧
      decodesTo [0b10101111#8] (.xorR .a) ∧ decodesTo [0b10101110#8] .xorIndHl ∧
      decodesTo [0b11101110#8, 9#8] (.xorN 9#8) ∧
      decodesTo [0b10110000#8] (.orR .b) ∧ decodesTo [0b10110110#8] .orIndHl ∧
      decodesTo [0b11110110#8, 9#8] (.orN 9#8) ∧
      decodesTo [0b10111001#8] (.cpR .c) ∧ decodesTo [0b10111110#8] .cpIndHl ∧
      decodesTo [0b11111110#8, 9#8] (.cpN 9#8) := by decide

theorem test_decode_ports_and_marked :
    decodesTo [0b11010011#8, 9#8] (.outNA 9#8) ∧
      decodesTo [0b11011011#8, 9#8] (.inAN 9#8) ∧
      decodesTo [0xED#8, 0b01111000#8] (.inRC .a) ∧
      decodesTo [0xED#8, 0b01000001#8] (.outCR .b) ∧
      decodesTo [0xCB#8] (.niRoot 0xCB#8) ∧
      decodesTo [0xDD#8, 0xDD#8] (.niDd 0xDD#8) ∧
      decodesTo [0xFD#8, 0x76#8] (.niFd 0x76#8) ∧
      decodesTo [0xED#8, 0x70#8] (.niEd 0x70#8) := by decide

/-- Bytes that end inside an instruction are refused, by name (the errors of `decode`). -/
theorem test_decode_truncated : (decode []).toOption = none ∧ (decode [0x3E#8]).toOption = none ∧
    (decode [0xDD#8]).toOption = none ∧ (decode [0xCD#8, 0x00#8]).toOption = none := by decide

/-! ### One step: examples -/

/-- An example of spec/95: where the instruction lies, its bytes, the border, registers and memory
before (every other register zero), and those that differ after. `PC` is past the instruction
unless given. -/
structure Vector where
  at' : Word := 0x0100#16
  code : List Byte
  border : BitVec 3 := 0#3
  bytes : List (Ent8 × Byte) := []
  words : List (Ent16 × Word) := []
  memory : List (Word × Byte) := []
  bytes' : List (Ent8 × Byte) := []
  words' : List (Ent16 × Word) := []
  memory' : List (Word × Byte) := []
  border' : BitVec 3 := border
  cost : Nat

/-- The registers with these written. -/
def writeAll (s : State) (bytes : List (Ent8 × Byte)) (words : List (Ent16 × Word)) : State :=
  words.foldl (fun u p => u.put16 p.1 p.2) (bytes.foldl (fun u p => u.put8 p.1 p.2) s)

/-- The reference machine after boot with a border. -/
def withBorder (c : BitVec 3) : State :=
  let s := State.reset.booted
  { s with devices := s.devices.modify 3 fun d =>
      { d with kind := .display { Display.reset with border := c } } }

/-- The state before: the CPU about to take a Tick. -/
def Vector.start (x : Vector) : State :=
  let s := writeAll (withBorder x.border) x.bytes ((.pc, x.at') :: x.words)
  ((x.memory.foldl (fun u p => u.poke p.1 p.2) s).pokeAll x.at' x.code).aboutToFetch

/-- One step leaves all registers, the listed memory, the border and the owed Ticks as expected. -/
def holdsOn (x : Vector) : Bool :=
  match step x.start with
  | .next t =>
    let expected := writeAll x.start x.bytes'
      ((.pc, x.at' + BitVec.ofNat 16 x.code.length) :: x.words')
    decide (t.status = .running) && decide (t.cpu.phase = .idle) &&
      decide (t.cpu.regs = expected.cpu.regs) && decide (t.cpu.cyc + 1 = x.cost) &&
      (x.memory'.all fun p => decide (t.peek .mem p.1 = some p.2)) &&
      decide (t.peek .io Config.borderPort = some (x.border'.zeroExtend 8))
  | _ => false

/-! NOP and the loads of a register: vectors LD1, LD3, LD12, LD13, LD17, LD26; by hand from the
rules NOP, LD_IY_nn. -/

theorem test_NOP : holdsOn
    { code := [0x00#8], bytes := [(.a, 0x01#8), (.f, 0xFF#8)], cost := 4 } := by decide
theorem test_LD_A_B : holdsOn
    { code := [0x78#8], bytes := [(.b, 0x12#8)], bytes' := [(.a, 0x12#8)], cost := 4 } := by decide
theorem test_LD_A_n : holdsOn
    { code := [0x3E#8, 0x02#8], bytes' := [(.a, 0x02#8)], cost := 7 } := by decide
theorem test_LD_HL_nn : holdsOn
    { code := [0x21#8, 0x00#8, 0x80#8], bytes' := [(.h, 0x80#8), (.l, 0x00#8)], cost := 10 } := by
      decide
theorem test_LD_SP_nn : holdsOn
    { code := [0x31#8, 0x00#8, 0x00#8], words := [(.sp, 0x0005#16)], words' := [(.sp, 0x0000#16)],
      cost := 10 } := by decide
theorem test_LD_SP_HL : holdsOn
    { code := [0xF9#8], words := [(.hl, 0x9000#16)], words' := [(.sp, 0x9000#16)], cost := 6 } := by
      decide
theorem test_LD_IX_nn : holdsOn
    { code := [0xDD#8, 0x21#8, 0x34#8, 0x12#8], words' := [(.ix, 0x1234#16)], cost := 14 } := by
      decide
theorem test_LD_IY_nn : holdsOn
    { code := [0xFD#8, 0x21#8, 0x34#8, 0x12#8], words := [(.ix, 0x0005#16)],
      words' := [(.iy, 0x1234#16)], cost := 14 } := by decide

/-! Loads from memory, the top of memory and an open read among them: vectors LD4, LD5, LD8, LD10,
LD15, LD29, LD30; by hand from the rules LD_A_indDE, LD_L_indIY. -/

theorem test_LD_A_indHL : holdsOn
    { code := [0x7E#8], words := [(.hl, 0x8000#16)], memory := [(0x8000#16, 0xFF#8)],
      bytes' := [(.a, 0xFF#8)], cost := 7 } := by decide
theorem test_LD_H_indHL : holdsOn
    { code := [0x66#8], words := [(.hl, 0x8000#16)], memory := [(0x8000#16, 0x90#8)],
      bytes' := [(.h, 0x90#8), (.l, 0x00#8)], cost := 7 } := by decide
theorem test_LD_A_indBC : holdsOn
    { code := [0x0A#8], words := [(.bc, 0x0000#16)], memory := [(0x0000#16, 0x0A#8)],
      bytes' := [(.a, 0x0A#8)], cost := 7 } := by decide
theorem test_LD_A_indDE : holdsOn
    { code := [0x1A#8], words := [(.de, 0x8000#16)], memory := [(0x8000#16, 0xA5#8)],
      bytes' := [(.a, 0xA5#8)], cost := 7 } := by decide
theorem test_LD_A_indnn : holdsOn
    { code := [0x3A#8, 0x00#8, 0x90#8], memory := [(0x9000#16, 0x0F#8)], bytes' := [(.a, 0x0F#8)],
      cost := 13 } := by decide
theorem test_LD_HL_indnn_at_top : holdsOn
    { at' := 0x0000#16, code := [0x2A#8, 0xFF#8, 0xFF#8], memory := [(0xFFFF#16, 0x34#8)],
      bytes' := [(.l, 0x34#8), (.h, 0x2A#8)], cost := 16 } := by decide
theorem test_LD_B_indIX_wraps : holdsOn
    { code := [0xDD#8, 0x46#8, 0xFF#8], words := [(.ix, 0x0000#16)],
      memory := [(0xFFFF#16, 0x5A#8)], bytes' := [(.b, 0x5A#8)], cost := 19 } := by decide
theorem test_LD_H_indIX : holdsOn
    { code := [0xDD#8, 0x66#8, 0x00#8], words := [(.ix, 0x8000#16), (.hl, 0x0000#16)],
      memory := [(0x8000#16, 0x77#8)], bytes' := [(.h, 0x77#8), (.l, 0x00#8)],
      words' := [(.ix, 0x8000#16)], cost := 19 } := by decide
theorem test_LD_L_indIY : holdsOn
    { code := [0xFD#8, 0x6E#8, 0x7F#8], words := [(.iy, 0x8000#16), (.hl, 0x1111#16)],
      memory := [(0x807F#16, 0x44#8)], bytes' := [(.l, 0x44#8)], cost := 19 } := by decide

/-! Stores, to ROM and over the end of memory among them: vectors LD6, LD7, LD9, LD11, LD16, LD28;
by hand from the rules LD_indBC_A, LD_indIX_A. -/

theorem test_LD_indHL_A_on_ROM : holdsOn
    { code := [0x77#8], bytes := [(.a, 0xFF#8)], words := [(.hl, 0x1000#16)],
      memory := [(0x1000#16, 0x7F#8)], memory' := [(0x1000#16, 0x7F#8)], cost := 7 } := by decide
theorem test_LD_indHL_n : holdsOn
    { code := [0x36#8, 0xFF#8], words := [(.hl, 0x8000#16)], memory' := [(0x8000#16, 0xFF#8)],
      cost := 10 } := by decide
theorem test_LD_indBC_A : holdsOn
    { code := [0x02#8], bytes := [(.a, 0x5A#8)], words := [(.bc, 0x9000#16)],
      memory' := [(0x9000#16, 0x5A#8)], cost := 7 } := by decide
theorem test_LD_indDE_A : holdsOn
    { code := [0x12#8], bytes := [(.a, 0x80#8)], words := [(.de, 0xFFFF#16)],
      memory' := [(0xFFFF#16, 0x80#8)], cost := 7 } := by decide
theorem test_LD_indnn_A : holdsOn
    { code := [0x32#8, 0x00#8, 0x90#8], bytes := [(.a, 0x0F#8)], memory' := [(0x9000#16, 0x0F#8)],
      cost := 13 } := by decide
theorem test_LD_indnn_HL_half_dropped : holdsOn
    { code := [0x22#8, 0xFF#8, 0x3F#8], words := [(.hl, 0x1234#16)],
      memory' := [(0x3FFF#16, 0x00#8), (0x4000#16, 0x12#8)], cost := 16 } := by decide
theorem test_LD_indIX_A : holdsOn
    { code := [0xDD#8, 0x77#8, 0xFE#8], bytes := [(.a, 0x33#8)], words := [(.ix, 0x9001#16)],
      memory' := [(0x8FFF#16, 0x33#8)], cost := 19 } := by decide
theorem test_LD_indIY_B : holdsOn
    { code := [0xFD#8, 0x70#8, 0xF0#8], bytes := [(.b, 0x07#8)], words := [(.iy, 0x9010#16)],
      memory' := [(0x9000#16, 0x07#8)], cost := 19 } := by decide

/-! The stack, wrapping included: vectors LD19, LD21, LD22. -/

theorem test_PUSH_BC_wraps : holdsOn
    { code := [0xC5#8], words := [(.bc, 0x1234#16), (.sp, 0x0000#16)], words' := [(.sp, 0xFFFE#16)],
      memory' := [(0xFFFF#16, 0x12#8), (0xFFFE#16, 0x34#8)], cost := 11 } := by decide
theorem test_POP_DE_wraps : holdsOn
    { at' := 0x0000#16, code := [0xD1#8], words := [(.sp, 0xFFFF#16)],
      memory := [(0xFFFF#16, 0xAB#8)], bytes' := [(.e, 0xAB#8), (.d, 0xD1#8)],
      words' := [(.sp, 0x0001#16)], cost := 10 } := by decide
theorem test_POP_AF : holdsOn
    { code := [0xF1#8], words := [(.sp, 0x9000#16)],
      memory := [(0x9000#16, 0xD7#8), (0x9001#16, 0x01#8)], bytes' := [(.a, 0x01#8), (.f, 0xD7#8)],
      words' := [(.sp, 0x9002#16)], cost := 10 } := by decide

/-! The exchanges: vectors LD23, LD24, LD25. -/

theorem test_EX_AF_AF : holdsOn
    { code := [0x08#8], words := [(.af, 0x0045#16), (.af', 0x1200#16)],
      words' := [(.af, 0x1200#16), (.af', 0x0045#16)], cost := 4 } := by decide
theorem test_EXX : holdsOn
    { code := [0xD9#8],
      words := [(.bc, 0x0001#16), (.bc', 0x0203#16), (.de, 0x0002#16), (.de', 0x0304#16), (.hl, 0x0003#16), (.hl', 0x0405#16), (.af, 0x0009#16), (.af', 0x0008#16)],
      words' := [(.bc', 0x0001#16), (.bc, 0x0203#16), (.de', 0x0002#16), (.de, 0x0304#16), (.hl', 0x0003#16), (.hl, 0x0405#16), (.af, 0x0009#16), (.af', 0x0008#16)],
      cost := 4 } := by decide
theorem test_EX_DE_HL : holdsOn
    { code := [0xEB#8], words := [(.de, 0x1111#16), (.hl, 0x2222#16)],
      words' := [(.de, 0x2222#16), (.hl, 0x1111#16)], cost := 4 } := by decide

/-! Additions: vectors A5, A19, A3, A4, A6, A7; by hand from the rules ADC_A_B, ADC_A_indHL. -/

theorem test_ADD_A_A : holdsOn
    { code := [0x87#8], bytes := [(.a, 0x40#8)], bytes' := [(.a, 0x80#8), (.f, 0x84#8)], cost := 4
      } := by decide
theorem test_ADD_A_indHL : holdsOn
    { at' := 0x0000#16, code := [0x86#8], bytes := [(.a, 0x01#8)], words := [(.hl, 0x0000#16)],
      bytes' := [(.a, 0x87#8), (.f, 0x80#8)], cost := 7 } := by decide
theorem test_ADD_A_n_overflow : holdsOn
    { code := [0xC6#8, 0x01#8], bytes := [(.a, 0x7F#8)], bytes' := [(.a, 0x80#8), (.f, 0x94#8)],
      cost := 7 } := by decide
theorem test_ADD_A_n_carry : holdsOn
    { code := [0xC6#8, 0x80#8], bytes := [(.a, 0x80#8)], bytes' := [(.a, 0x00#8), (.f, 0x45#8)],
      cost := 7 } := by decide
theorem test_ADC_A_B : holdsOn
    { code := [0x88#8], bytes := [(.a, 0x0F#8), (.b, 0x00#8), (.f, 0x01#8)],
      bytes' := [(.a, 0x10#8), (.f, 0x10#8)], cost := 4 } := by decide
theorem test_ADC_A_indHL : holdsOn
    { code := [0x8E#8], bytes := [(.a, 0x01#8), (.f, 0x01#8)], words := [(.hl, 0x8000#16)],
      memory := [(0x8000#16, 0x7E#8)], bytes' := [(.a, 0x80#8), (.f, 0x94#8)], cost := 7 } := by
      decide
theorem test_ADC_A_n_carry : holdsOn
    { code := [0xCE#8, 0x00#8], bytes := [(.a, 0xFF#8), (.f, 0x01#8)],
      bytes' := [(.a, 0x00#8), (.f, 0x51#8)], cost := 7 } := by decide
theorem test_ADC_A_n : holdsOn
    { code := [0xCE#8, 0x01#8], bytes := [(.a, 0x01#8), (.f, 0x01#8)],
      bytes' := [(.a, 0x03#8), (.f, 0x00#8)], cost := 7 } := by decide

/-! Subtractions: vectors A10, A8, A9, A11, A12; by hand from the rules SUB_indHL, SBC_A_B,
SBC_A_indHL. -/

theorem test_SUB_A : holdsOn
    { code := [0x97#8], bytes := [(.a, 0x5A#8)], bytes' := [(.a, 0x00#8), (.f, 0x42#8)], cost := 4
      } := by decide
theorem test_SUB_indHL : holdsOn
    { code := [0x96#8], bytes := [(.a, 0x10#8)], words := [(.hl, 0x8000#16)],
      memory := [(0x8000#16, 0x01#8)], bytes' := [(.a, 0x0F#8), (.f, 0x1A#8)], cost := 7 } := by
      decide
theorem test_SUB_n_borrow : holdsOn
    { code := [0xD6#8, 0x01#8], bytes := [(.a, 0x00#8)], bytes' := [(.a, 0xFF#8), (.f, 0xBB#8)],
      cost := 7 } := by decide
theorem test_SUB_n_overflow : holdsOn
    { code := [0xD6#8, 0x01#8], bytes := [(.a, 0x80#8)], bytes' := [(.a, 0x7F#8), (.f, 0x3E#8)],
      cost := 7 } := by decide
theorem test_SBC_A_B : holdsOn
    { code := [0x98#8], bytes := [(.a, 0x10#8), (.b, 0x0F#8), (.f, 0x01#8)],
      bytes' := [(.a, 0x00#8), (.f, 0x52#8)], cost := 4 } := by decide
theorem test_SBC_A_indHL : holdsOn
    { code := [0x9E#8], bytes := [(.a, 0x00#8), (.f, 0x00#8)], words := [(.hl, 0x8000#16)],
      memory := [(0x8000#16, 0x80#8)], bytes' := [(.a, 0x80#8), (.f, 0x87#8)], cost := 7 } := by
      decide
theorem test_SBC_A_n_zero : holdsOn
    { code := [0xDE#8, 0xFF#8], bytes := [(.a, 0x00#8), (.f, 0x01#8)],
      bytes' := [(.a, 0x00#8), (.f, 0x53#8)], cost := 7 } := by decide
theorem test_SBC_A_n_borrow : holdsOn
    { code := [0xDE#8, 0x00#8], bytes := [(.a, 0x00#8), (.f, 0x01#8)],
      bytes' := [(.a, 0xFF#8), (.f, 0xBB#8)], cost := 7 } := by decide

/-! Bitwise operations: vectors A13, A14, A15, A16; by hand from the rules AND_B, AND_indHL,
XOR_indHL, OR_B, OR_indHL. -/

theorem test_AND_B : holdsOn
    { code := [0xA0#8], bytes := [(.a, 0xFF#8), (.b, 0x28#8)],
      bytes' := [(.a, 0x28#8), (.f, 0x3C#8)], cost := 4 } := by decide
theorem test_AND_indHL : holdsOn
    { code := [0xA6#8], bytes := [(.a, 0x0F#8)], words := [(.hl, 0x8000#16)],
      memory := [(0x8000#16, 0xF0#8)], bytes' := [(.a, 0x00#8), (.f, 0x54#8)], cost := 7 } := by
      decide
theorem test_AND_n : holdsOn
    { code := [0xE6#8, 0x3C#8], bytes := [(.a, 0xF0#8)], bytes' := [(.a, 0x30#8), (.f, 0x34#8)],
      cost := 7 } := by decide
theorem test_XOR_A : holdsOn
    { code := [0xAF#8], bytes := [(.a, 0x5A#8), (.f, 0xFF#8)],
      bytes' := [(.a, 0x00#8), (.f, 0x44#8)], cost := 4 } := by decide
theorem test_XOR_indHL : holdsOn
    { code := [0xAE#8], bytes := [(.a, 0xFF#8)], words := [(.hl, 0x8000#16)],
      memory := [(0x8000#16, 0x0F#8)], bytes' := [(.a, 0xF0#8), (.f, 0xA4#8)], cost := 7 } := by
      decide
theorem test_XOR_n : holdsOn
    { code := [0xEE#8, 0x0F#8], bytes := [(.a, 0xFF#8)], bytes' := [(.a, 0xF0#8), (.f, 0xA4#8)],
      cost := 7 } := by decide
theorem test_OR_B : holdsOn
    { code := [0xB0#8], bytes := [(.a, 0x80#8), (.b, 0x01#8)],
      bytes' := [(.a, 0x81#8), (.f, 0x84#8)], cost := 4 } := by decide
theorem test_OR_indHL : holdsOn
    { code := [0xB6#8], bytes := [(.a, 0x00#8)], words := [(.hl, 0x8000#16)],
      memory := [(0x8000#16, 0x00#8)], bytes' := [(.a, 0x00#8), (.f, 0x44#8)], cost := 7 } := by
      decide
theorem test_OR_n : holdsOn
    { code := [0xF6#8, 0x02#8], bytes := [(.a, 0x01#8)], bytes' := [(.a, 0x03#8), (.f, 0x04#8)],
      cost := 7 } := by decide

/-! Compares: vectors A17, A18; by hand from the rules CP_B, CP_indHL. -/

theorem test_CP_B : holdsOn
    { code := [0xB8#8], bytes := [(.a, 0x01#8), (.b, 0x28#8)],
      bytes' := [(.a, 0x01#8), (.f, 0xBB#8)], cost := 4 } := by decide
theorem test_CP_indHL : holdsOn
    { code := [0xBE#8], bytes := [(.a, 0x02#8)], words := [(.hl, 0x8000#16)],
      memory := [(0x8000#16, 0x02#8)], bytes' := [(.a, 0x02#8), (.f, 0x42#8)], cost := 7 } := by
      decide
theorem test_CP_n_equal : holdsOn
    { code := [0xFE#8, 0x02#8], bytes := [(.a, 0x02#8)], bytes' := [(.a, 0x02#8), (.f, 0x42#8)],
      cost := 7 } := by decide
theorem test_CP_n_YX_of_operand : holdsOn
    { code := [0xFE#8, 0x28#8], bytes := [(.a, 0x01#8)], bytes' := [(.a, 0x01#8), (.f, 0xBB#8)],
      cost := 7 } := by decide

/-! Increments and decrements: vectors A20, A22, A24, A25, A26, A27, A28, A29, A30, A31. -/

theorem test_INC_B_half_carry : holdsOn
    { code := [0x04#8], bytes := [(.b, 0x0F#8), (.f, 0x01#8)],
      bytes' := [(.b, 0x10#8), (.f, 0x11#8)], cost := 4 } := by decide
theorem test_INC_A_overflow : holdsOn
    { code := [0x3C#8], bytes := [(.a, 0x7F#8), (.f, 0x00#8)],
      bytes' := [(.a, 0x80#8), (.f, 0x94#8)], cost := 4 } := by decide
theorem test_DEC_B_wraps : holdsOn
    { code := [0x05#8], bytes := [(.b, 0x00#8), (.f, 0x00#8)],
      bytes' := [(.b, 0xFF#8), (.f, 0xBA#8)], cost := 4 } := by decide
theorem test_DEC_A_overflow : holdsOn
    { code := [0x3D#8], bytes := [(.a, 0x80#8), (.f, 0x01#8)],
      bytes' := [(.a, 0x7F#8), (.f, 0x3F#8)], cost := 4 } := by decide
theorem test_INC_indHL : holdsOn
    { code := [0x34#8], bytes := [(.f, 0x00#8)], words := [(.hl, 0x8000#16)],
      memory := [(0x8000#16, 0xFF#8)], bytes' := [(.f, 0x50#8)], memory' := [(0x8000#16, 0x00#8)],
      cost := 11 } := by decide
theorem test_INC_indHL_dropped : holdsOn
    { code := [0x34#8], bytes := [(.f, 0x01#8)], words := [(.hl, 0x1000#16)],
      memory := [(0x1000#16, 0x7F#8)], bytes' := [(.f, 0x95#8)], memory' := [(0x1000#16, 0x7F#8)],
      cost := 11 } := by decide
theorem test_DEC_indHL : holdsOn
    { code := [0x35#8], bytes := [(.f, 0x00#8)], words := [(.hl, 0x8000#16)],
      memory := [(0x8000#16, 0x01#8)], bytes' := [(.f, 0x42#8)], memory' := [(0x8000#16, 0x00#8)],
      cost := 11 } := by decide
theorem test_INC_HL : holdsOn
    { code := [0x23#8], bytes := [(.f, 0xFF#8)], words := [(.hl, 0x80FF#16)],
      bytes' := [(.f, 0xFF#8)], words' := [(.hl, 0x8100#16)], cost := 6 } := by decide
theorem test_INC_SP_wraps : holdsOn
    { code := [0x33#8], words := [(.sp, 0xFFFF#16)], words' := [(.sp, 0x0000#16)], cost := 6 } := by
      decide
theorem test_DEC_BC_wraps : holdsOn
    { code := [0x0B#8], words := [(.bc, 0x0000#16)], words' := [(.bc, 0xFFFF#16)], cost := 6 } := by
      decide

/-! Additions to HL: vectors A32, A33. -/

theorem test_ADD_HL_BC_half_carry : holdsOn
    { code := [0x09#8], bytes := [(.f, 0x00#8)], words := [(.hl, 0x0FFF#16), (.bc, 0x0001#16)],
      bytes' := [(.f, 0x10#8)], words' := [(.hl, 0x1000#16)], cost := 11 } := by decide
theorem test_ADD_HL_BC_carry : holdsOn
    { code := [0x09#8], bytes := [(.f, 0x40#8)], words := [(.hl, 0xFFFF#16), (.bc, 0x0001#16)],
      bytes' := [(.f, 0x51#8)], words' := [(.hl, 0x0000#16)], cost := 11 } := by decide

/-! Jumps: vectors T1, T21, T22, T4, T6, T7, T8, T9, T11, T12. -/

theorem test_JP_nn : holdsOn
    { at' := 0x000A#16, code := [0xC3#8, 0x0A#8, 0x00#8], words' := [(.pc, 0x000A#16)], cost := 10
      } := by decide
theorem test_JP_P_not_taken : holdsOn
    { at' := 0x0000#16, code := [0xF2#8, 0x00#8, 0x80#8], bytes := [(.f, 0x80#8)],
      words' := [(.pc, 0x0003#16)], cost := 10 } := by decide
theorem test_JP_PE_taken : holdsOn
    { at' := 0x0000#16, code := [0xEA#8, 0x00#8, 0x80#8], bytes := [(.f, 0x04#8)],
      words' := [(.pc, 0x8000#16)], cost := 10 } := by decide
theorem test_JP_indHL : holdsOn
    { at' := 0x0000#16, code := [0xE9#8], words := [(.hl, 0x8000#16)], words' := [(.pc, 0x8000#16)],
      cost := 4 } := by decide
theorem test_JR_to_itself : holdsOn
    { code := [0x18#8, 0xFE#8], words' := [(.pc, 0x0100#16)], cost := 12 } := by decide
theorem test_JR_back : holdsOn
    { code := [0x18#8, 0x80#8], words' := [(.pc, 0x0082#16)], cost := 12 } := by decide
theorem test_JR_NZ_taken : holdsOn
    { at' := 0x0010#16, code := [0x20#8, 0xFC#8], bytes := [(.f, 0x00#8)],
      words' := [(.pc, 0x000E#16)], cost := 12 } := by decide
theorem test_JR_NZ_not_taken : holdsOn
    { at' := 0x0010#16, code := [0x20#8, 0xFC#8], bytes := [(.f, 0x40#8)],
      words' := [(.pc, 0x0012#16)], cost := 7 } := by decide
theorem test_DJNZ_falls_through : holdsOn
    { at' := 0x0005#16, code := [0x10#8, 0xFD#8], bytes := [(.b, 0x01#8)], bytes' := [(.b, 0x00#8)],
      words' := [(.pc, 0x0007#16)], cost := 8 } := by decide
theorem test_DJNZ_from_zero : holdsOn
    { at' := 0x0000#16, code := [0x10#8, 0xFE#8], bytes := [(.b, 0x00#8)], bytes' := [(.b, 0xFF#8)],
      words' := [(.pc, 0x0000#16)], cost := 13 } := by decide

/-! Calls and returns: vectors T13, T14, T15, T19, T16, T17, T18. -/

theorem test_CALL_nn : holdsOn
    { at' := 0x0007#16, code := [0xCD#8, 0x10#8, 0x00#8], words := [(.sp, 0x0000#16)],
      words' := [(.sp, 0xFFFE#16), (.pc, 0x0010#16)],
      memory' := [(0xFFFF#16, 0x00#8), (0xFFFE#16, 0x0A#8)], cost := 17 } := by decide
theorem test_CALL_C_taken : holdsOn
    { at' := 0x0000#16, code := [0xDC#8, 0x00#8, 0x80#8], bytes := [(.f, 0x01#8)],
      words := [(.sp, 0x9000#16)], words' := [(.sp, 0x8FFE#16), (.pc, 0x8000#16)],
      memory' := [(0x8FFF#16, 0x00#8), (0x8FFE#16, 0x03#8)], cost := 17 } := by decide
theorem test_CALL_C_not_taken : holdsOn
    { at' := 0x0000#16, code := [0xDC#8, 0x00#8, 0x80#8], bytes := [(.f, 0x00#8)],
      words := [(.sp, 0x9000#16)], words' := [(.sp, 0x9000#16), (.pc, 0x0003#16)], cost := 10
      } := by decide
theorem test_RST : holdsOn
    { at' := 0x8000#16, code := [0xFF#8], words := [(.sp, 0x9000#16)],
      words' := [(.sp, 0x8FFE#16), (.pc, 0x0038#16)],
      memory' := [(0x8FFF#16, 0x80#8), (0x8FFE#16, 0x01#8)], cost := 11 } := by decide
theorem test_RET : holdsOn
    { at' := 0x0014#16, code := [0xC9#8], words := [(.sp, 0xFFFE#16)],
      memory := [(0xFFFE#16, 0x0A#8), (0xFFFF#16, 0x00#8)],
      words' := [(.pc, 0x000A#16), (.sp, 0x0000#16)], cost := 10 } := by decide
theorem test_RET_NZ_not_taken : holdsOn
    { at' := 0x0000#16, code := [0xC0#8], bytes := [(.f, 0x40#8)], words := [(.sp, 0x9000#16)],
      words' := [(.pc, 0x0001#16), (.sp, 0x9000#16)], cost := 5 } := by decide
theorem test_RET_Z_taken : holdsOn
    { at' := 0x0000#16, code := [0xC8#8], bytes := [(.f, 0x40#8)], words := [(.sp, 0x9000#16)],
      memory := [(0x9000#16, 0x34#8), (0x9001#16, 0x12#8)],
      words' := [(.pc, 0x1234#16), (.sp, 0x9002#16)], cost := 11 } := by decide

/-! Input and output: vectors IO1, IO4, IO6, IO8. -/

theorem test_OUT_n_A : holdsOn
    { code := [0xD3#8, 0xFE#8], bytes := [(.a, 0x00#8)], border := 5#3, border' := 0#3, cost := 11
      } := by decide
theorem test_IN_A_open : holdsOn
    { code := [0xDB#8, 0xFE#8], bytes := [(.a, 0x7F#8)], border := 5#3, bytes' := [(.a, 0xFF#8)],
      cost := 11 } := by decide
theorem test_OUT_C_A_low_bits : holdsOn
    { code := [0xED#8, 0x79#8], bytes := [(.a, 0xFA#8)], words := [(.bc, 0x00FE#16)],
      border' := 2#3, cost := 12 } := by decide
theorem test_IN_B_C_open : holdsOn
    { code := [0xED#8, 0x40#8], bytes := [(.f, 0x01#8)], words := [(.bc, 0x1234#16)],
      bytes' := [(.b, 0xFF#8), (.c, 0x34#8), (.f, 0xAD#8)], cost := 12 } := by decide
/-! ### Fatal conditions, boot, the Clock, the outside -/

/-- The reference machine after boot, and the same about to take a Tick. -/
def base : State := withBorder 0
def waiting : State := base.aboutToFetch

/-- The state after a step, if there is one. -/
def after (r : Result) : Option State :=
  match r with
  | .next t => some t
  | _ => none

/-- The video layer is given `PALETTE[2]` (vector IO5). -/
theorem test_OUT_C_A_colour :
    let x : Vector :=
      { code := [0xED#8, 0x79#8], bytes := [(.a, 0x02#8)], words := [(.bc, 0x00FE#16)], cost := 12 }
    (after (step x.start)).map State.videoOut = some [.border (0xD7, 0x00, 0x00)] := by decide

/-- The status after a Tick with this code at 0x0100 in memory. -/
def statusAfter (code : List Byte) : Option Status :=
  (after (step (Vector.start { code := code, cost := 0 }))).map State.status

/-- Marked entries abort with the address of the first opcode byte and the path (R155, vector IO10). -/
theorem test_NOT_IMPLEMENTED :
    statusAfter [0xED#8, 0x70#8] =
        some (.aborted (.notImplemented 0x0100#16 [0xED#8, 0x70#8])) ∧
      statusAfter [0x76#8] = some (.aborted (.notImplemented 0x0100#16 [0x76#8])) := by decide
theorem test_NOT_IMPLEMENTED_index :
    statusAfter [0xDD#8, 0x76#8] =
        some (.aborted (.notImplemented 0x0100#16 [0xDD#8, 0x76#8])) ∧
      statusAfter [0xFD#8, 0xDD#8] =
        some (.aborted (.notImplemented 0x0100#16 [0xFD#8, 0xDD#8])) := by decide

/-- `LD A,n` at the last byte of a machine with the ROM alone: its operand is a `FetchFault` (R153). -/
def romAlone : State :=
  let s := (base.poke 0x3FFF#16 0x3E#8).put16 .pc 0x3FFF#16
  State.aboutToFetch { s with bus := { s.bus with memRead := s.bus.memRead.take 1 } }

theorem test_FetchFault :
    (after (step romAlone)).map State.status = some (.aborted (.fetchFault 0x4000#16)) ∧
      (after (step romAlone)).map (fun t => t.r16 .pc) = some 0x3FFF#16 := by decide

/-- The boot sequence leaves the tables of vector B1 and a running machine (R291). -/
theorem test_boot : (after (runFor step 7 State.reset)).map (fun t => (t.status, t.bus)) =
    some (.running, Bus.reference 0x00FE#16) := by decide

/-- A word of the table is the next instruction to run (log entry 7). -/
theorem test_withFetchWord : decodeTableWord 16 0x3E02 = some (.ldRN .a 0x02#8) ∧
    (after (step (State.reset.withFetchWord 16 0x3E02))).map (fun t => (t.r8 .a, t.cpu.cyc)) =
      some (0x02#8, 6) := by decide

/-- The Clock sends a Tick only in an iteration that the divisor divides (R131, R132). -/
theorem test_divisor :
    let s := { base with clock := { base.clock with ticks := 6, phase := .fanOut [(.cpu, 3)] } }
    let t := { base with clock := { base.clock with ticks := 7, phase := .fanOut [(.cpu, 3)] } }
    (after (clockStep s)).map (fun u => u.cpu.queue) = some [.tick] ∧
      (after (clockStep t)).map (fun u => u.cpu.queue) = some [] := by decide

/-- Refusals of the outside: a second registration, a divisor of 0, a call after start (R114, R130). -/
theorem test_refusals :
    hostStep { State.reset with devices := base.devices } = .refused .registeredTwice ∧
      hostStep { State.reset with inputs := [.attach .cpu 0] } = .refused .zeroDivisor ∧
      hostStep { base with inputs := [.attach .cpu 1] } = .refused .hostCallAfterBoot ∧
      hostStep { State.reset with conf := { State.reset.conf with tickQueueCap := 0 },
                                  inputs := [.start] } = .refused .illFormedConfiguration := by
  refine ⟨by rfl, by rfl, by rfl, by rfl⟩

/-- The machine at the start input, after one arbitrary device has answered GetRanges. -/
def declaring (r : RangesRet) : State :=
  { State.reset with devices := [.constructed ⟨[], [], [], []⟩ (.scripted [.reply (.rangesRet r)])],
                     inputs := [.register 0, .start] }

/-- Two overlapping ranges of one kind, an empty and a reversed one are refused, from an arbitrary device
too; overlapping ranges of two kinds are launched (R42, R43, R114, U11). -/
theorem test_declarations :
    let a : Range := ⟨0x4000#16, 0x8000⟩
    let refused (r : RangesRet) :=
      ∃ t, step (declaring r) = .next t ∧ step t = .refused .illFormedConfiguration
    refused ⟨[a, ⟨0x7FFF#16, 0x9000⟩], [], [], []⟩ ∧ refused ⟨[], [], [⟨5#16, 5⟩], []⟩ ∧
      refused ⟨[], [⟨5#16, 4⟩], [], []⟩ ∧
      ∃ t u, step (declaring ⟨[a], [a], [], []⟩) = .next t ∧ step t = .next u ∧
        u.status = .running :=
  ⟨⟨_, rfl, rfl⟩, ⟨_, rfl, rfl⟩, ⟨_, rfl, rfl⟩, _, _, rfl, rfl, rfl⟩

/-- A Stop that stands before the start waits in the control queue (log entry 29). -/
theorem test_stop_before_start :
    (after (runFor step 2 { State.reset with inputs := [.stop 5, .start] })).map
      (fun t => (t.status, t.clock.control)) = some (.running, [.stop]) := by decide

/-- A subsystem attached twice that has ended by its first Stop: the machine is not `Stopped`, and the
Clock's second Stop finds it gone (R138, R141, log entry 28). -/
theorem test_attached_twice :
    let s : State := { base with
      cpu := { base.cpu with queue := [.stop] }
      clock := { base.clock with subsystems := [(.cpu, 1), (.cpu, 1)], phase := .stopOut [(.cpu, 1)] } }
    (after (step s)).map (fun t => (t.status, t.cpu.phase)) = some (.running, .stopped) ∧
      (after (runFor step 2 s)).map State.status = some (.aborted (.channelClosed .cpu)) ∧
      (after (step { s with clock := { s.clock with phase := .stopOut [] } })).map State.status =
        some .stopped := ⟨rfl, rfl, rfl⟩

/-- The end of a Clock that has terminated, and of a CPU that has stopped, stays a regular one (R264, log
entry 15). -/
theorem test_terminate_the_ended :
    let s : State := { base with
      cpu := { base.cpu with phase := .stopped }
      clock := { base.clock with phase := .terminated } }
    terminatePeer .clock s = s ∧ terminatePeer .cpu s = s ∧
      (terminatePeer .clock base).clock.phase = .dead ∧
      (terminatePeer .cpu base).cpu.phase = .dead := ⟨rfl, rfl, rfl, rfl⟩

/-- An arbitrary device has terminated with its last answer (R141, log entry 9). -/
theorem test_last_answer :
    let s (script : List Answer) : State :=
      { base with devices := [.constructed ramDecl (.scripted script)] }
    (s []).closed (.device 0) ∧ (s [.silent]).closed (.device 0) = false := by decide

/-- No agent can move: a machine never started waits, the Clock on a full queue nobody drains is stuck,
and so is nothing else; a subsystem that is gone is `ChannelClosed` (R140 c, R264, U9). -/
theorem test_standStill :
    let idle : State := { State.reset with inputs := [] }
    let blocked : State := { base with
      cpu := { base.cpu with queue := [.tick], phase := .executing }
      clock := { base.clock with phase := .fanOut [(.cpu, 1)] } }
    let ended : State := { base with
      cpu := { base.cpu with phase := .stopped }
      clock := { base.clock with phase := .terminated }
      devices := base.devices.modify 3 fun d => { d with alive := false } }
    step idle = .next idle ∧ step blocked = .fault .stuck ∧
      (after (step ended)).map State.status =
        some (.aborted (.channelClosed (.device 3))) := ⟨rfl, rfl, rfl⟩

/-- Another dispatch trie: three levels deep, with a handler that loads its operand byte, and an entry
that is not implemented (R5, R85, R88). -/
def deepTable : Table := fun b =>
  if b = 0x01#8 then .subTable fun _ => .subTable fun c =>
    if c = 0x03#8 then .terminal 1 fun ops s => finish 5 (s.put8 .a (operand ops 0))
    else .notImplemented
  else .notImplemented

def deepTrie : DispatchTrie := ⟨deepTable, fun b => by
  unfold deepTable
  split
  · intro _ c
    show Entry.wellFormed (if c = 0x03#8 then _ else _)
    split
    · exact ⟨fun ops r => .ends (r.set8 .a (operand ops 0)) 4, fun _ _ _ => rfl⟩
    · trivial
  · trivial⟩

theorem test_another_trie :
    let s (code : List Byte) := Vector.start { code := code, cost := 0 }
    (after (stepOf deepTrie (s [0x01#8, 0x02#8, 0x03#8, 0x7F#8]))).map
        (fun t => (t.r8 .a, t.r16 .pc, t.cpu.cyc)) = some (0x7F#8, 0x0104#16, 4) ∧
      (after (stepOf deepTrie (s [0x01#8, 0x02#8, 0x04#8]))).map State.status =
        some (.aborted (.notImplemented 0x0100#16 [0x01#8, 0x02#8, 0x04#8])) := by decide

/-- A handler that looks at `cyc` is not admitted (R159, U13). -/
theorem test_ill_formed_handler :
    ¬HandlerWellFormed 0 fun _ s => if s.cpu.cyc = 0 then finish 4 s else finish 5 s := by
  rintro ⟨p, h⟩
  let s : State := { base with bus := { base.bus with alive := false } }
  let u : State := { s with cpu := { s.cpu with cyc := 7 } }
  have h0 := h [] s rfl
  have h1 := h [] u rfl
  change _ = (p [] s.cpu.regs).run u at h1
  generalize p [] s.cpu.regs = b at h0 h1
  have hs := congrArg (fun x => (after x).map State.status) h0
  cases b with
  | ends r c =>
    have e0 := congrArg (fun x => (after x).map fun t => t.cpu.cyc) h0
    have e1 := congrArg (fun x => (after x).map fun t => t.cpu.cyc) h1
    exact absurd (show some 3 = some 4 from e0.trans e1.symm) (by decide)
  | reads sp a k =>
    exact absurd (show some Status.running = some (.aborted (.channelClosed .bus)) from hs) nofun
  | writes sp a v k =>
    exact absurd (show some Status.running = some (.aborted (.channelClosed .bus)) from hs) nofun

/-- Memory at reset is in canonical form. -/
theorem test_reset_memory : State.reset.storageWf := by decide

/-! ### Witnesses: what the hypotheses of the obligations ask for can be met -/

theorem witness_DecodeOfEncodeIsIdentity :
    (Instr.niEd 0x70#8).wellFormed ∧ (Instr.ldIndIxR 0x80#8 .a).wellFormed := by decide

theorem witness_DecodedBytesAreTheEncoding :
    ∃ i rest, decode [0xED#8, 0x70#8, 0xFF#8] = .ok (i, rest) := ⟨_, _, rfl⟩

theorem witness_EveryOpcodePathEndsAtAnEntry :
    4 ≤ [0xDD#8, 0x21#8, 0xFF#8, 0xFF#8].length := by decide

/-- For every statement in terms of `RunsReading`, `RunsStoring` and `RunsOutput`: a machine that is
settled, the reference machine, and canonical; and one that is settled with holes and overlaps. -/
theorem witness_settled :
    base.settled ∧ base.isReference Config.borderPort ∧ base.storageWf ∧
      State.settled { base with bus := { base.bus with
        memRead := [⟨⟨0x0000#16, 0x10000⟩, 2⟩, ⟨⟨0x4000#16, 0x4001⟩, 1⟩], ioRead := [] } } := by
  decide

/-- For the clauses of `Issues`: transactions that complete, that meet a dead device, and that meet a
silent one. -/
def withDevice2 (alive : Bool) (kind : DeviceKind) : State :=
  { waiting with devices := waiting.devices.modify 2 fun d =>
      { d with alive := alive, kind := kind } }

theorem witness_Issues :
    let p := readsAt .mem [0x8000#16, 0x8001#16]
    perform p [] base = .ok [0x00#8, 0x00#8] base ∧
      (∃ t, perform p [] (withDevice2 false (.scripted [])) = .fatal t ∧
        t.status = .aborted (.channelClosed (.device 2))) ∧
      perform p [] (withDevice2 true (.scripted [.reply (.memReadOk 1#8), .silent])) = .hang 2 :=
  ⟨rfl, ⟨_, rfl, rfl⟩, rfl⟩

/-- `transactions s = []` on a machine with no Bus: a transfer that is not taken. -/
theorem witness_not_taken :
    (State.meets { base with bus := { base.bus with alive := false } } .z = false) := by decide

theorem witness_MarkedEntriesAbortTheMachine :
    let s := (waiting.pokeAll 0x0000#16 [0xED#8, 0x70#8])
    s.cpuTakesTick [] [] ∧ s.cpu.cyc = 0 ∧ s.settled ∧ s.holds (s.r16 .pc) [0xED#8, 0x70#8] ∧
      decode [0xED#8, 0x70#8] = .ok (.niEd 0x70#8, []) ∧ (Instr.niEd 0x70#8).isNotImplemented := by
  refine ⟨⟨rfl, rfl, rfl, .inl rfl⟩, rfl, by decide, by decide, rfl, rfl⟩

/-- With and without a schedule, the instruction over the end of memory. -/
theorem witness_StepRunsTheDecodedInstruction :
    let s := (waiting.put16 .pc 0xFFFF#16).pokeAll 0xFFFF#16 [0x3E#8, 0x02#8]
    s.cpuTakesTick [] [] ∧ State.cpuTakesTick { s with sched := [] } [] [] ∧ s.cpu.cyc = 0 ∧
      s.settled ∧ s.holds (s.r16 .pc) [0x3E#8, 0x02#8] ∧
      decode [0x3E#8, 0x02#8] = .ok (.ldRN .a 0x02#8, []) := by
  refine ⟨⟨rfl, rfl, rfl, .inl rfl⟩, ⟨rfl, rfl, rfl, .inr ⟨rfl, rfl⟩⟩, rfl, by decide, by decide,
    rfl⟩

/-- Two bytes read and a whole instruction; one byte read, and the next read faults. -/
theorem witness_FetchReadsOneByteAtATime :
    (let s := waiting.pokeAll 0x0000#16 [0x3E#8, 0x02#8];
      s.cpuTakesTick [] [] ∧ s.cpu.cyc = 0 ∧
        readsInOrder (s.r16 .pc) [0x3E#8, 0x02#8] (s.fetchStarts [] []) (s.fetchStarts [] []) ∧
        decode [0x3E#8, 0x02#8] = .ok (.ldRN .a 0x02#8, [])) ∧
      (romAlone.cpuTakesTick [] [] ∧ romAlone.cpu.cyc = 0 ∧
        readsInOrder (romAlone.r16 .pc) [0x3E#8] (romAlone.fetchStarts [] [])
          (romAlone.fetchStarts [] []) ∧
        (decode [0x3E#8]).toOption = none ∧
        busRead .mem 0x4000#16 (romAlone.fetchStarts [] []) =
          .addressFault (romAlone.fetchStarts [] [])) := by
  refine ⟨⟨⟨rfl, rfl, rfl, .inl rfl⟩, rfl, ⟨_, rfl, _, rfl, rfl⟩, rfl⟩,
    ⟨rfl, rfl, rfl, .inl rfl⟩, rfl, ⟨_, rfl, rfl⟩, rfl, rfl⟩

/-- A device that serves the opcode and then dies, or is silent, with `PC` in it. -/
def fetchFrom (script : List Answer) : State :=
  (withDevice2 true (.scripted script)).put16 .pc 0x8000#16

theorem witness_FetchReadsOneByteAtATime_ends :
    (let s := fetchFrom [.reply (.memReadOk 0x3E#8)];
      s.cpuTakesTick [] [] ∧ s.cpu.cyc = 0 ∧
        ∃ u v, readsInOrder (s.r16 .pc) [0x3E#8] (s.fetchStarts [] []) u ∧
          busRead .mem 0x8001#16 u = .fatal v) ∧
      let s := fetchFrom [.reply (.memReadOk 0x3E#8), .silent]
      s.cpuTakesTick [] [] ∧ s.cpu.cyc = 0 ∧
        ∃ u, readsInOrder (s.r16 .pc) [0x3E#8] (s.fetchStarts [] []) u ∧
          busRead .mem 0x8001#16 u = .hang 2 := by
  refine ⟨⟨⟨rfl, rfl, rfl, .inl rfl⟩, rfl, _, _, ⟨_, rfl, rfl⟩, rfl⟩,
    ⟨rfl, rfl, rfl, .inl rfl⟩, rfl, _, ⟨_, rfl, rfl⟩, rfl⟩

theorem witness_OwedTickOnlyCountsDown :
    let s := { waiting with cpu := { waiting.cpu with cyc := 18 } }
    s.cpuTakesTick [] [] ∧ s.cpu.cyc ≠ 0 := ⟨⟨rfl, rfl, rfl, .inl rfl⟩, by decide⟩

/-- A Stop to take, with and without a schedule; and a stopped CPU whose machine goes on. -/
theorem witness_StopEndsTheLoop :
    let s := { waiting with cpu := { waiting.cpu with queue := [.stop, .tick] } }
    (s.status = .running ∧ s.cpu.phase = .idle ∧ s.cpu.queue = .stop :: [.tick] ∧
        s.sched = .cpu :: []) ∧
      let u := { base with cpu := { base.cpu with phase := .stopped } }
      u.cpu.phase = .stopped ∧ ∃ t, step u = .next t :=
  ⟨⟨rfl, rfl, rfl, rfl⟩, rfl, _, rfl⟩

theorem witness_FinalStatusesAreFinal :
    (State.status { base with status := .aborted (.channelClosed .bus) } =
        .aborted (.channelClosed .bus)) ∧ State.status { base with status := .stopped } = .stopped :=
  ⟨rfl, rfl⟩

/-- The bound is reached: the longest instruction leaves 18 owed. -/
theorem witness_CyclesOwedStayBelowNineteen :
    let s := waiting.pokeAll 0x0000#16 [0xDD#8, 0x7E#8, 0x01#8]
    s.cpu.cyc ≤ 18 ∧ (after (step s)).map (fun t => t.cpu.cyc) = some 18 := by decide

theorem witness_TicksAreDividedByTheDivisor :
    base.clock.phase = .top ∧ base.clock.control = [] ∧ base.clock.ticks = 0 ∧
      (base.clock.subsystems.map Prod.fst).Nodup ∧ base.clock.subsystems.length = 2 ∧
      ∀ p ∈ base.clock.subsystems, 1 ≤ p.2 ∧ base.closed p.1 = false := by decide

theorem witness_StopIsSentToEverySubsystem :
    let s := { base with clock := { base.clock with phase := .poll, control := [.stop] } }
    s.clock.phase = .poll ∧ s.clock.control = .stop :: [] ∧
      (s.clock.subsystems.map Prod.fst).Nodup ∧
      ∀ p ∈ s.clock.subsystems, s.closed p.1 = false := by decide

theorem queues_of_empty (s : State) (hc : s.cpu.queue = [])
    (hd : ∀ d ∈ s.devices, d.inbox = []) : s.queuesBounded := by
  intro sub
  cases sub with
  | cpu => simp [State.queueOf, hc]
  | device h =>
    cases e : s.devices[h]? with
    | none => simp [State.queueOf, e]
    | some d => simp [State.queueOf, e, hd d (List.mem_of_getElem? e)]

theorem witness_QueuesStayBounded : base.queuesBounded ∧ ∃ t, step base = .next t :=
  ⟨queues_of_empty _ rfl (by decide), _, rfl⟩

/-- Two entries over one address, and an address under none. -/
theorem witness_LastRegisteredEntryWins :
    let table : List MapEntry := [⟨⟨0x0000#16, 0x10000⟩, 0⟩, ⟨⟨0x4000#16, 0x8000⟩, 1⟩]
    (lookup table 0x3FFF#16).map MapEntry.dev = some 0 ∧
      (lookup table 0x4000#16).map MapEntry.dev = some 1 ∧
      (lookup table 0x7FFF#16).map MapEntry.dev = some 1 ∧
      (lookup table 0x8000#16).map MapEntry.dev = some 0 ∧
      (lookup table 0xFFFF#16).map MapEntry.dev = some 0 ∧ base.bus.alive ∧
      (∀ k ∈ base.bus.table .io .read,
        ¬(k.range.start.toNat ≤ (0x00FF#16).toNat ∧ (0x00FF#16).toNat < k.range.stop)) ∧
      ∀ k ∈ base.bus.table .mem .write,
        ¬(k.range.start.toNat ≤ (0x3FFF#16).toNat ∧ (0x3FFF#16).toNat < k.range.stop) := by
  decide

/-- A device that answers (a reference device, an arbitrary one), one that is gone, one that answers
out of turn. -/
theorem witness_RegistrationAppendsDeclaredRanges :
    State.reset.bus.alive ∧
      (∃ d, State.reset.devices[3]? = some d ∧ d.alive ∧ d.isScripted = false) ∧
      (∃ d, (withDevice2 true (.scripted [.reply (.rangesRet ramDecl)])).devices[2]? = some d ∧
        d.alive ∧ d.kind = .scripted (.reply (.rangesRet ramDecl) :: [])) ∧
      (∃ d, (withDevice2 false (.scripted [])).devices[2]? = some d ∧ d.alive = false) ∧
      ∃ d, (withDevice2 true (.scripted [.reply .err])).devices[2]? = some d ∧ d.alive ∧
        d.kind = .scripted (.reply .err :: []) :=
  ⟨rfl, ⟨_, rfl, rfl, rfl⟩, ⟨_, rfl, rfl, rfl⟩, ⟨_, rfl, rfl⟩, ⟨_, rfl, rfl, rfl⟩⟩

/-- A scripted device behind a read and a write entry; the five kinds of answer. -/
theorem witness_DeviceAnswersAreMapped (x : Answer) :
    let s := withDevice2 true (.scripted [x])
    s.bus.alive ∧ (∃ d, s.devices[2]? = some d ∧ d.alive ∧ d.kind = .scripted (x :: [])) ∧
      lookup (s.bus.table .mem .read) 0x8000#16 = some ⟨⟨0x8000#16, 0x10000⟩, 2⟩ ∧
      lookup (s.bus.table .mem .write) 0xFFFF#16 = some ⟨⟨0x8000#16, 0x10000⟩, 2⟩ :=
  ⟨rfl, ⟨_, rfl, rfl, rfl⟩, rfl, rfl⟩

theorem witness_DeviceAnswersAreMapped_answers :
    readReply .mem 5#8 = .memReadOk 5#8 ∧ writeReply .io = .ioWriteOk ∧
      Reply.ioReadOk 5#8 ≠ .err ∧ (∀ b, Reply.ioReadOk 5#8 ≠ readReply .mem b) ∧
      Reply.memWriteOk ≠ writeReply .io := by
  refine ⟨rfl, rfl, by decide, fun b h => ?_, by decide⟩
  cases h

theorem witness_DeadPeersAreChannelClosed :
    (State.bus { base with bus := { base.bus with alive := false } }).alive = false ∧
      (let s := withDevice2 false (.scripted []);
        s.bus.alive ∧ (∃ d, s.devices[2]? = some d ∧ d.alive = false) ∧
          (∃ m, lookup (s.bus.table .mem .read) 0x8000#16 = some m ∧ m.dev = 2) ∧
          ∃ m, lookup (s.bus.table .mem .write) 0x8000#16 = some m ∧ m.dev = 2) ∧
      (withDevice2 false (.scripted [])).closed (.device 2) ∧
      let s := { base with clock := { base.clock with phase := .dead } }
      s.status = .running ∧ s.cpu.phase = .idle ∧ s.cpu.queue = [] ∧ s.clock.phase = .dead ∧
        s.sched = [] :=
  ⟨rfl, ⟨rfl, ⟨_, rfl, rfl⟩, ⟨_, rfl, rfl⟩, ⟨_, rfl, rfl⟩⟩, rfl, rfl, rfl, rfl, rfl, rfl⟩

/-- The last clause, with a CPU that has stopped and DISPLAY waiting, and with both gone. -/
theorem witness_DeadPeersAreChannelClosed_clock :
    let s : State := { base with cpu := { base.cpu with phase := .stopped },
                                 clock := { base.clock with phase := .dead } }
    let u : State := { s with devices := s.devices.map fun d => { d with exited := true } }
    (s.status = .running ∧ s.cpu.queue = [] ∧ (∀ d ∈ s.devices, d.inbox = []) ∧ s.inputs = [] ∧
        s.clock.phase = .dead ∧ s.sched = [] ∧ s.pick = some (.device 3)) ∧
      u.status = .running ∧ (∀ d ∈ u.devices, d.inbox = []) ∧ u.pick = none := by decide

/-- One device of each kind, and the offsets on both sides of its length. -/
theorem witness_ReferenceDevicesServeTheContract :
    (∃ d ∈ referenceDevices, d.alive ∧ d.kind = .rom 0x4000 []) ∧
      (∃ d ∈ referenceDevices, d.alive ∧ d.kind = .ram 0x4000 [] ∧ Memory.wf []) ∧
      (∃ d ∈ referenceDevices, d.alive ∧ d.kind = .display .reset) ∧
      (0x3FFF#16).toNat < 0x4000 ∧ 0x4000 ≤ (0x4000#16).toNat :=
  ⟨⟨.constructed romDecl (.rom 0x4000 []), by decide, rfl, rfl⟩,
    ⟨.constructed bankDecl (.ram 0x4000 []), by decide, rfl, rfl, by decide⟩,
    ⟨.constructed (displayDecl 0x00FE#16) (.display .reset), by decide, rfl, rfl⟩, by decide,
    by decide⟩

/-- The borders of the four devices (examples S1 to S3). -/
theorem test_reference_map :
    (∃ t, busWrite .mem 0x4000#16 9#8 base = .ok () t ∧ t.peek .mem 0x4000#16 = some 9#8) ∧
      (∃ t, busWrite .mem 0x7FFF#16 9#8 base = .ok () t ∧ t.peek .mem 0x7FFF#16 = some 9#8) ∧
      (∃ t, busWrite .mem 0x8000#16 9#8 base = .ok () t ∧ t.peek .mem 0x8000#16 = some 9#8) ∧
      (∃ t, busWrite .mem 0xFFFF#16 9#8 base = .ok () t ∧ t.peek .mem 0xFFFF#16 = some 9#8) ∧
      busWrite .mem 0x3FFF#16 9#8 base = .addressFault base ∧
      busWrite .io 0x02FE#16 2#8 base = .addressFault base ∧
      busRead .io 0x00FF#16 base = .addressFault base ∧
      busRead .io 0x00FE#16 base = .ok 0#8 base :=
  ⟨⟨_, rfl, by decide⟩, ⟨_, rfl, by decide⟩, ⟨_, rfl, by decide⟩, ⟨_, rfl, by decide⟩, rfl, rfl,
    rfl, rfl⟩

/-- The reference machine with its four devices. -/
theorem witness_ReferenceMapRoutesEveryAddress :
    ∃ rom bank ram display : Device, base.isReference 0x00FE#16 ∧
      base.devices = [rom, bank, ram, display] ∧ rom.kind = .rom 0x4000 [] ∧
      bank.kind = .ram 0x4000 [] ∧ ram.kind = .ram 0x8000 [] ∧
      display.kind = .display Display.reset :=
  ⟨_, _, _, _, rfl, rfl, rfl, rfl, rfl, rfl⟩

theorem witness_StoredByteReadsBack : base.isReference 0x00FE#16 ∧ base.storageWf ∧
    0x4000 ≤ (0x4000#16).toNat ∧ 0x4000 ≤ (0xFFFF#16).toNat := by decide

theorem witness_EveryLaunchStateBoots : 1 ≤ Config.cpuDiv ∧ 1 ≤ Config.videoDiv ∧
    1 ≤ (⟨Config.openBus, Config.tickQueueCap, Config.stopGrace⟩ : Conf).tickQueueCap := by decide

theorem witness_PairsAreViewsOfTheirHalves :
    Ent16.af.halves = [.a, .f] ∧ Ent16.hl'.halves = [.h', .l'] := by decide

/-- Every kind of instruction the clauses speak of runs. -/
theorem witness_OnlyNamedInstructionsReachARegister :
    base.settled ∧ (∃ t, exec (.ldRR .a .b) base = .next t) ∧
      Instr.writesFlags (.ldRR .a .b) = false ∧ Instr.exchangesBanks (.ldRR .a .b) = false ∧
      Instr.transfersControl (.ldRR .a .b) = false ∧ Instr.writesSp (.ldRR .a .b) = false :=
  ⟨by decide, ⟨_, rfl⟩, rfl, rfl, rfl, rfl⟩

theorem witness_EveryInstructionCompletesAtItsCost :
    Instr.isNotImplemented .nop = false ∧ base.settled ∧ (HandlerWellFormed 1 fun ops s =>
      exec (.ldRN .a (operand ops 0)) s) ∧ [0x02#8].length = 1 :=
  ⟨rfl, by decide, ⟨fun ops r => .ends (r.set8 .a (operand ops 0)) 6, fun _ _ _ => rfl⟩, rfl⟩

/-- A border write that changes the border, and a write to another port. -/
theorem witness_OutputsWriteTheirPort :
    let s := (base.put16 .bc 0x00FE#16).put8 .a 0x02#8
    s.settled ∧ s.isReference Config.borderPort ∧ compose (s.r8 .b) (s.r8 .c) = Config.borderPort ∧
      s.peek .io Config.borderPort ≠ some (s.r8 .a &&& 0x07#8) ∧
      compose (s.r8 .a) 0xFE#8 ≠ Config.borderPort := by decide

/-- The reference trie holds terminals, sub-tables and marked entries. -/
theorem test_dtReference : (∃ h, dtReference.val 0x3E#8 = .terminal 1 h) ∧
    (∃ t h, dtReference.val 0xDD#8 = .subTable t ∧ t 0x21#8 = .terminal 2 h) ∧
    dtReference.val 0x76#8 = .notImplemented := ⟨⟨_, rfl⟩, ⟨_, _, rfl, rfl⟩, rfl⟩

/-- Two machines that agree on the register file and the devices alone. -/
theorem witness_HandlersReadOnlyRegistersAndReplies :
    let s := { base with cpu := { base.cpu with phase := .executing } }
    let s' := { s with cpu := { s.cpu with cyc := 7, queue := [.tick] },
                       clock := { s.clock with ticks := 9 }, hostOut := [], inputs := [.stop 3] }
    s'.cpu.regs = s.cpu.regs ∧ s'.cpu.snapshot = s.cpu.snapshot ∧ s'.devices = s.devices ∧
      s'.bus = s.bus ∧ s'.conf.openBus = s.conf.openBus ∧ s.cpu.phase = .executing ∧
      s'.cpu.phase = .executing ∧ (∃ t, exec .incIndHl s = .next t) ∧
      HandlerWellFormed 0 fun _ s => exec .nop s :=
  ⟨rfl, rfl, rfl, rfl, rfl, rfl, rfl, ⟨_, rfl⟩, fun _ r => .ends r 3, fun _ _ _ => rfl⟩

theorem witness_ProgramsCannotReachControlState :
    (∃ t, exec (.callNn 0x1234#16) base = .next t) ∧
      ∃ t, exec .incIndHl ((withDevice2 true (.scripted [])).put16 .hl 0x8000#16) = .next t ∧
        t.status = .aborted (.channelClosed (.device 2)) := ⟨⟨_, rfl⟩, _, rfl, rfl⟩

/-- A store in the step. -/
theorem witness_StorageStaysCanonical :
    let s := (waiting.put16 .hl 0x8000#16).pokeAll 0x0000#16 [0x36#8, 0xFF#8]
    s.storageWf ∧ ∃ t, step s = .next t ∧ t.peek .mem 0x8000#16 = some 0xFF#8 :=
  ⟨by decide, _, rfl, by decide⟩

/-- A store to ROM in the step. -/
theorem witness_RomIsNeverChanged :
    let s := (waiting.put16 .hl 0x1000#16).pokeAll 0x0000#16 [0x36#8, 0xFF#8]
    ∃ t, step s = .next t ∧ t.r16 .pc = 0x0002#16 := ⟨_, rfl, by decide⟩

/-- DISPLAY takes a Tick. -/
def ticking : State :=
  { base with devices := base.devices.modify 3 (fun d => { d with inbox := [.tick] }),
              sched := [.device 3] }

theorem witness_RenderPositionNeverDecreases :
    (∃ t, step ticking = .next t) ∧ ticking.devices[3]?.bind Device.renderPos = some 0 :=
  ⟨⟨_, rfl⟩, rfl⟩

theorem witness_TablesAreStaticAfterBoot :
    waiting.status ≠ .booting ∧ ∃ t, step waiting = .next t := ⟨by decide, _, rfl⟩

theorem witness_OnlyTheCpuReachesDevicesAfterBoot :
    base.status = .running ∧ Agent.clock ≠ .cpu ∧ (∃ t, act dtReference .clock base = .next t) ∧
      ∃ t, act dtReference (.device 3) ticking = .next t := ⟨rfl, by decide, ⟨_, rfl⟩, _, rfl⟩

theorem witness_ReferenceMachineNeverFetchFaults :
    State.soundReference { waiting with inputs := [.stop 5] } Config.borderPort ∧
      ∃ t, step { waiting with inputs := [.stop 5] } = .next t := ⟨by decide, _, rfl⟩

/-- Two machines that differ only in what the video layer sees. -/
theorem witness_VideoNeverReachesTheRest :
    let s := { base with devices := base.devices.modify 3 fun d =>
      { d with kind := .display { border := 0, renderPos := 9, seen := 4, out := [.position 9] } } }
    s.sameButVideo base ∧ s ≠ base := ⟨rfl, by decide⟩

end Sys2Proof.Tests
end

/-! Machine-wide invariants (spec/10_state.md): what survives every step of a device, of `cyc`, of the
queues and of the tables. -/

namespace Sys2Proof.Machine

/-! ### Devices, one beside the other -/

/-- Everything that can happen to a device keeps `p`: serving a request, being registered, terminating,
and receiving or taking a message (R30, R46, R114, R264). -/
structure KeptByDevice (p : Device → Prop) : Prop where
  serve : ∀ d q, p d → p (d.serve q).2
  registered : ∀ d b, p d → p { d with registered := b }
  alive : ∀ d b, p d → p { d with alive := b }
  inbox : ∀ d m, p d → p { d with inbox := m }
  exited : ∀ d b, p d → p { d with exited := b }
  tick : ∀ d, p d → p d.tick

theorem forall₂_set {R : Device → Device → Prop} {l m : List Device} (h : List.Forall₂ R l m) {n : Nat}
    {d d' : Device} (hd : m[n]? = some d) (hR : ∀ c, R c d → R c d') :
    List.Forall₂ R l (m.set n d') := by
  induction h generalizing n with
  | nil => exact .nil
  | cons hc hl ih =>
    cases n with
    | zero => cases hd; exact .cons (hR _ hc) hl
    | succ n => exact .cons hc (ih hd)

theorem forall₂_modify {R : Device → Device → Prop} {l m : List Device} (h : List.Forall₂ R l m)
    (n : Nat) {f : Device → Device} (hR : ∀ c d, R c d → R c (f d)) :
    List.Forall₂ R l (m.modify n f) := by
  cases hd : m[n]? with
  | none => rwa [List.modify_eq_self (by simpa using hd)]
  | some d =>
    rw [modifyDevices_of_getElem? m n d f hd]
    exact forall₂_set h hd fun c => hR c d

theorem forall_of_forall₂_right {p : Device → Prop} {l m : List Device}
    (h : List.Forall₂ (fun _ d => p d) l m) : ∀ d ∈ m, p d := by
  induction h with
  | nil => exact List.forall_mem_nil p
  | cons hd _ ih => exact List.forall_mem_cons.2 ⟨hd, ih⟩

theorem forall₂_getElem? {R : Device → Device → Prop} {l m : List Device} (h : List.Forall₂ R l m)
    {n : Nat} {c : Device} (hc : l[n]? = some c) : ∃ d, m[n]? = some d ∧ R c d := by
  induction h generalizing n with
  | nil => cases hc
  | cons hd _ ih =>
    cases n with
    | zero => cases hc; exact ⟨_, rfl, hd⟩
    | succ n => exact ih hc

/-- A relation to the devices of an earlier machine that survives what happens to one device survives
every step. -/
theorem keptBySteps_forall₂ {R : Device → Device → Prop} (hR : ∀ c, KeptByDevice (R c))
    (l : List Device) : KeptBySteps fun t => List.Forall₂ R l t.devices where
  regs := fun _ _ h => h
  ask := by
    intro n q s h
    rcases askDevice_cases n q s with e | ⟨d, hd, e⟩
    · rwa [e]
    · rw [e]; exact forall₂_set h hd fun c => (hR c).serve d q
  fatal := fun _ _ h => h
  finish := fun _ _ _ h => h
  sched := fun _ _ h => h
  inputs := fun _ _ _ _ h => h
  takeMessage := fun _ _ _ _ h => h
  owedTick := fun _ h => h
  beginFetch := fun _ h => h
  executing := fun _ h => h
  stopCpu := fun _ h => h
  stopped := fun _ _ h => h
  answerHost := fun _ _ h => h
  registered := fun _ n _ _ h => forall₂_modify h n fun c d => (hR c).registered d true
  attach := fun _ _ _ _ h => h
  start := fun _ _ h => h
  sendStop := fun _ h => h
  terminate := by
    intro s p rest _ h
    cases p with
    | device n => exact forall₂_modify h n fun c d => (hR c).alive d false
    | bus | clock | cpu => exact h
  count := fun _ h => h
  clockPhase := fun _ _ _ h => h
  takeStop := fun _ _ _ _ h => h
  enqueue := by
    intro s sub m _ h
    cases sub with
    | device n => exact forall₂_modify h n fun c d => (hR c).inbox d _
    | cpu => exact h
  deviceTick := fun _ _ d rest hd _ h =>
    forall₂_set h hd fun c hc => (hR c).tick _ ((hR c).inbox d rest hc)
  deviceStop := fun _ _ d rest hd _ h =>
    forall₂_set h hd fun c hc => (hR c).exited { d with inbox := rest } true ((hR c).inbox d rest hc)

/-- Every device of the next machine stands to its predecessor as `R` says. -/
theorem step_devices {R : Device → Device → Prop} (hR : ∀ c, KeptByDevice (R c)) {s t : State}
    (hs : ∀ d ∈ s.devices, R d d) (ht : step s = .next t) : List.Forall₂ R s.devices t.devices :=
  step_keeps (keptBySteps_forall₂ hR s.devices) (List.forall₂_same.2 hs) t ht

/-! ### Storage (R28, R29) -/

theorem Device.storageWf_tick (d : Device) : d.tick.storageWf = d.storageWf := by
  obtain ⟨decl, kind, alive, registered, inbox, exited⟩ := d
  cases kind <;> rfl

theorem storageWf_keptByDevice : KeptByDevice fun d => d.storageWf where
  serve := Device.storageWf_serve
  registered := fun _ _ h => h
  alive := fun _ _ h => h
  inbox := fun _ _ h => h
  exited := fun _ _ h => h
  tick := fun d h => by rwa [Device.storageWf_tick]

/-- Settles O53: what happens to a device keeps its storage canonical, and no step makes devices. -/
theorem storageStaysCanonical : Obligations.StorageStaysCanonical := by
  intro s t hs ht
  unfold State.storageWf at hs ⊢
  rw [List.all_eq_true] at hs ⊢
  exact forall_of_forall₂_right (step_devices (fun _ => storageWf_keptByDevice) hs ht)

/-! ### ROM contents (R28, R51) -/

theorem Device.romImage_serve (d : Device) (q : Request) : (d.serve q).2.romImage = d.romImage := by
  obtain ⟨decl, kind, alive, registered, inbox, exited⟩ := d
  cases alive <;> cases kind <;> rfl

theorem Device.romImage_tick (d : Device) : d.tick.romImage = d.romImage := by
  obtain ⟨decl, kind, alive, registered, inbox, exited⟩ := d
  cases kind <;> rfl

/-- Settles O55: neither a request nor a message changes what a ROM holds. -/
theorem romIsNeverChanged : Obligations.RomIsNeverChanged := fun _ t ht =>
  step_keeps (kept_of_devices Device.romImage Device.romImage_serve (fun _ _ => rfl) (fun _ _ => rfl)
    (fun _ _ => rfl) (fun _ _ => rfl) Device.romImage_tick _) rfl t ht

/-! ### Render positions (R30) -/

theorem Display.renderPos_setBorder (u : Display) (v : Byte) :
    (u.setBorder v).renderPos = u.renderPos := by
  unfold Display.setBorder
  dsimp only
  split <;> rfl

theorem Display.renderPos_serve (u : Display) (decl : RangesRet) (q : Request) :
    (serveDisplay u decl q).2.renderPos = u.renderPos := by
  cases q with
  | ioPut o v =>
    unfold serveDisplay
    dsimp only
    split
    · exact Display.renderPos_setBorder u v
    · rfl
  | getRanges | memGet | memPut | ioGet => rfl

theorem Device.renderPos_serve (d : Device) (q : Request) : (d.serve q).2.renderPos = d.renderPos := by
  obtain ⟨decl, kind, alive, registered, inbox, exited⟩ := d
  cases alive with
  | false => rfl
  | true =>
    cases kind with
    | display u => exact congrArg some (Display.renderPos_serve u decl q)
    | rom | ram | scripted => rfl

/-- A Tick moves the position of a DISPLAY by the free advance, and no other device has one. -/
theorem Device.renderPos_tick {d : Device} {q : Nat} (h : d.renderPos = some q) :
    ∃ n, d.tick.renderPos = some (q + n) := by
  obtain ⟨decl, kind, alive, registered, inbox, exited⟩ := d
  cases kind with
  | display u => cases h; exact ⟨Config.renderAdvance u.seen, rfl⟩
  | rom | ram | scripted => cases h

/-- Where `c` is a DISPLAY, so is `d`, and its position is not lower. -/
def Device.RenderedPast (c d : Device) : Prop :=
  ∀ p, c.renderPos = some p → ∃ q, d.renderPos = some q ∧ p ≤ q

theorem renderedPast_keptByDevice (c : Device) : KeptByDevice c.RenderedPast where
  serve := fun d q h => by unfold Device.RenderedPast; rwa [Device.renderPos_serve]
  registered := fun _ _ h => h
  alive := fun _ _ h => h
  inbox := fun _ _ h => h
  exited := fun _ _ h => h
  tick := by
    intro d h p hp
    obtain ⟨q, hq, hle⟩ := h p hp
    obtain ⟨n, hn⟩ := Device.renderPos_tick hq
    exact ⟨q + n, hn, hle.trans (Nat.le_add_right q n)⟩

/-- Settles O56: only a Tick moves the position, by an advance that is a natural number. -/
theorem renderPositionNeverDecreases : Obligations.RenderPositionNeverDecreases := by
  intro s t n p ht hp
  obtain ⟨c, hc, hcp⟩ := Option.bind_eq_some_iff.1 hp
  obtain ⟨d, hd, hR⟩ := forall₂_getElem?
    (step_devices renderedPast_keptByDevice (fun _ _ p hp => ⟨p, hp, le_rfl⟩) ht) hc
  rw [hd]
  exact hR p hcp

/-! ### Ticks owed (R22) -/

theorem cyc_le_keptBySteps : KeptBySteps fun t => t.cpu.cyc ≤ 18 where
  regs := fun _ _ h => h
  ask := fun n q s h => by rwa [askDevice_snd]
  fatal := fun _ _ h => h
  finish := fun _ _ hc _ => hc
  sched := fun _ _ h => h
  inputs := fun _ _ _ _ h => h
  takeMessage := fun _ _ _ _ h => h
  owedTick := fun _ h => (Nat.sub_le _ 1).trans h
  beginFetch := fun _ h => h
  executing := fun _ h => h
  stopCpu := fun _ h => h
  stopped := fun _ _ h => h
  answerHost := fun _ _ h => h
  registered := fun _ _ _ _ h => h
  attach := fun _ _ _ _ h => h
  start := fun _ _ h => h
  sendStop := fun _ h => h
  terminate := fun _ p _ _ h => by cases p <;> exact h
  count := fun _ h => h
  clockPhase := fun _ _ _ h => h
  takeStop := fun _ _ _ _ h => h
  enqueue := fun _ sub _ _ h => by cases sub <;> exact h
  deviceTick := fun _ _ _ _ _ _ h => h
  deviceStop := fun _ _ _ _ _ _ h => h

/-- Settles O34: `cyc` is set at the end of an instruction alone, to at most 18, and counted down. -/
theorem cyclesOwedStayBelowNineteen : Obligations.CyclesOwedStayBelowNineteen := fun _ t hs ht =>
  step_keeps cyc_le_keptBySteps hs t ht

/-! ### Queues (R24, R140) -/

/-- The bound is one on the CPU's queue and one on each device's. -/
theorem State.queuesBounded_iff (s : State) : s.queuesBounded ↔
    s.cpu.queue.length ≤ s.conf.tickQueueCap ∧
      ∀ d ∈ s.devices, d.inbox.length ≤ s.conf.tickQueueCap := by
  constructor
  · refine fun h => ⟨h .cpu, fun d hd => ?_⟩
    obtain ⟨n, hn⟩ := List.mem_iff_getElem?.1 hd
    simpa [State.queueOf, hn] using h (.device n)
  · rintro ⟨hc, hd⟩ (_ | n)
    · exact hc
    · cases e : s.devices[n]? with
      | none => simp [State.queueOf, e]
      | some d => simpa [State.queueOf, e] using hd d (List.mem_of_getElem? e)

/-- A change that lengthens no queue keeps the bound. -/
theorem State.queuesBounded_of_le {s t : State} (hs : s.queuesBounded) (hc : t.conf = s.conf)
    (hq : ∀ sub, (t.queueOf sub).length ≤ (s.queueOf sub).length) : t.queuesBounded := fun sub =>
  (hq sub).trans (hc ▸ hs sub)

theorem State.queueOf_set_le {s : State} {n : Nat} {d d' : Device} (hd : s.devices[n]? = some d)
    (hi : d'.inbox.length ≤ d.inbox.length) (sub : SubId) :
    (State.queueOf { s with devices := s.devices.set n d' } sub).length ≤ (s.queueOf sub).length := by
  cases sub with
  | cpu => exact le_rfl
  | device k =>
    by_cases hk : n = k
    · subst hk
      obtain ⟨hlt, rfl⟩ := List.getElem?_eq_some_iff.1 hd
      simpa [State.queueOf, hlt] using hi
    · simp [State.queueOf, hk]

theorem State.queueOf_modify (s : State) (n : Nat) {f : Device → Device}
    (hf : ∀ d, (f d).inbox = d.inbox) (sub : SubId) :
    State.queueOf { s with devices := s.devices.modify n f } sub = s.queueOf sub := by
  cases sub with
  | cpu => rfl
  | device k =>
    simp only [State.queueOf, List.getElem?_modify]
    cases s.devices[k]? with
    | none => rfl
    | some d => by_cases hk : n = k <;> simp [hk, hf]

/-- A message lengthens the queue it is sent to by one, and no other. -/
theorem State.length_queueOf_enqueue_le (s : State) (x y : SubId) (m : ClockMsg) :
    ((s.enqueue x m).queueOf y).length ≤ (s.queueOf y).length + if x = y then 1 else 0 := by
  cases x with
  | cpu => cases y <;> simp [State.queueOf, State.enqueue]
  | device n =>
    cases y with
    | cpu => simp [State.queueOf, State.enqueue]
    | device k =>
      simp only [State.queueOf, State.enqueue, List.getElem?_modify]
      cases s.devices[k]? with
      | none => simp
      | some d => by_cases hk : n = k <;> simp [hk]

/-- A request reaches nothing of a device but what it holds (R32, R46). -/
theorem Device.frame_serve (d : Device) (q : Request) : (d.serve q).2.frame = d.frame := by
  obtain ⟨decl, kind, alive, registered, inbox, exited⟩ := d
  cases alive <;> cases kind <;> rfl

/-- Nor does a Tick. -/
theorem Device.frame_tick (d : Device) : d.tick.frame = d.frame := by
  obtain ⟨decl, kind, alive, registered, inbox, exited⟩ := d
  cases kind <;> rfl

theorem Device.inbox_tick (d : Device) : d.tick.inbox = d.inbox :=
  congrArg (fun x => x.2.2.2.1) (Device.frame_tick d)

theorem Device.inbox_serve (d : Device) (q : Request) : (d.serve q).2.inbox = d.inbox :=
  congrArg (fun x => x.2.2.2.1) (Device.frame_serve d q)

theorem queuesBounded_keptBySteps : KeptBySteps State.queuesBounded where
  regs := fun _ _ h => h
  ask := by
    intro n q s h
    rcases askDevice_cases n q s with e | ⟨d, hd, e⟩
    · rwa [e]
    · rw [e]
      exact State.queuesBounded_of_le h rfl (State.queueOf_set_le hd (by rw [Device.inbox_serve]))
  fatal := fun _ _ h => h
  finish := fun _ _ _ h => h
  sched := fun _ _ h => h
  inputs := fun _ _ _ _ h => h
  takeMessage := by
    intro s m q hq h
    refine State.queuesBounded_of_le h rfl fun sub => ?_
    cases sub with
    | cpu => simp [State.queueOf, hq]
    | device n => exact le_rfl
  owedTick := fun _ h => h
  beginFetch := fun _ h => h
  executing := fun _ h => h
  stopCpu := fun _ h => h
  stopped := fun _ _ h => h
  answerHost := fun _ _ h => h
  registered := fun s n _ _ h => State.queuesBounded_of_le h rfl fun sub =>
    (congrArg List.length (s.queueOf_modify n (f := fun d => { d with registered := true })
      (fun _ => rfl) sub)).le
  attach := fun _ _ _ _ h => h
  start := fun _ _ h => h
  sendStop := fun _ h => h
  terminate := by
    intro s p rest _ h
    cases p with
    | device n => exact State.queuesBounded_of_le h rfl fun sub =>
        (congrArg List.length (s.queueOf_modify n (f := fun d => { d with alive := false })
          (fun _ => rfl) sub)).le
    | bus | clock | cpu => exact h
  count := fun _ h => h
  clockPhase := fun _ _ _ h => h
  takeStop := fun _ _ _ _ h => h
  enqueue := by
    intro s sub m hroom h y
    have hle := s.length_queueOf_enqueue_le sub y m
    have hroom : (s.queueOf sub).length < s.conf.tickQueueCap := of_decide_eq_true hroom
    have hy := h y
    rw [State.enqueue_conf]
    by_cases e : sub = y
    · subst e; rw [if_pos rfl] at hle; omega
    · rw [if_neg e] at hle; omega
  deviceTick := fun s n d rest hd hi h => State.queuesBounded_of_le h rfl
    (State.queueOf_set_le hd (by rw [Device.inbox_tick, hi]; exact Nat.le_succ _))
  deviceStop := fun s n d rest hd hi h => State.queuesBounded_of_le h rfl
    (State.queueOf_set_le hd (by rw [hi]; exact Nat.le_succ _))

/-- Settles O37: the Clock sends only where there is room, and nothing else lengthens a queue. -/
theorem queuesStayBounded : Obligations.QueuesStayBounded := fun _ t hs ht =>
  step_keeps queuesBounded_keptBySteps hs t ht

/-! ### Tables and configuration after boot (R25, R32, R290) -/

/-- `t` is past its boot, with the tables, the subsystems and the configuration of `s`. -/
def State.BootedAs (s t : State) : Prop :=
  t.status ≠ .booting ∧ { t.bus with alive := s.bus.alive } = s.bus ∧
    t.clock.subsystems = s.clock.subsystems ∧ t.conf = s.conf

/-- The three changes that reach tables or subsystems, or start the machine, happen while it boots. -/
theorem bootedAs_keptBySteps (s : State) : KeptBySteps s.BootedAs where
  regs := fun _ _ h => h
  ask := fun n q t h => by rwa [askDevice_snd]
  fatal := fun _ _ h => ⟨Status.noConfusion, h.2⟩
  finish := fun _ _ _ h => h
  sched := fun _ _ h => h
  inputs := fun _ _ _ _ h => h
  takeMessage := fun _ _ _ _ h => h
  owedTick := fun _ h => h
  beginFetch := fun _ h => h
  executing := fun _ h => h
  stopCpu := fun _ h => h
  stopped := fun _ _ h => ⟨Status.noConfusion, h.2⟩
  answerHost := fun _ _ h => h
  registered := fun _ _ _ hb h => absurd hb h.1
  attach := fun _ _ _ hb h => absurd hb h.1
  start := fun _ hb h => absurd hb h.1
  sendStop := fun _ h => h
  terminate := fun _ p _ _ h => by cases p <;> exact h
  count := fun _ h => h
  clockPhase := fun _ _ _ h => h
  takeStop := fun _ _ _ _ h => h
  enqueue := fun _ sub _ _ h => by cases sub <;> exact h
  deviceTick := fun _ _ _ _ _ _ h => h
  deviceStop := fun _ _ _ _ _ _ h => h

theorem Device.decl_serve (d : Device) (q : Request) : (d.serve q).2.decl = d.decl :=
  congrArg Prod.fst (Device.frame_serve d q)

theorem Device.decl_tick (d : Device) : d.tick.decl = d.decl :=
  congrArg Prod.fst (Device.frame_tick d)

/-- Settles O57: what only the boot changes, no step of a machine past it changes. -/
theorem tablesAreStaticAfterBoot : Obligations.TablesAreStaticAfterBoot := by
  intro s t hs ht
  obtain ⟨h, hb, hsub, hc⟩ := step_keeps (bootedAs_keptBySteps s) ⟨hs, rfl, rfl, rfl⟩ t ht
  have hd := step_keeps (kept_of_devices Device.decl Device.decl_serve (fun _ _ => rfl)
    (fun _ _ => rfl) (fun _ _ => rfl) (fun _ _ => rfl) Device.decl_tick _) rfl t ht
  exact ⟨h, hb, hd, hsub, hc⟩

end Sys2Proof.Machine

/-! What the operations of spec/10_state.md leave: registers and their pairs, an instruction and the
control state, construction and boot, the final statuses. -/

namespace Sys2Proof.Machine

/-! ### Control state and instructions (R21, R33) -/

/-- Of the machine outside registers and device contents, `t` is as `s`, but for `cyc`, the phase and an
abort. -/
def State.ControlAs (s t : State) : Prop :=
  t.clock = s.clock ∧ t.bus = s.bus ∧ t.conf = s.conf ∧ t.inputs = s.inputs ∧
    t.hostOut = s.hostOut ∧ t.sched = s.sched ∧ t.cpu.queue = s.cpu.queue ∧
    t.cpu.snapshot = s.cpu.snapshot ∧
    t.devices.map Device.frame = s.devices.map Device.frame ∧
    (t.status = s.status ∨ ∃ f, t.status = .aborted f)

theorem controlAs_keptByHandlers (s : State) : KeptByHandlers s.ControlAs where
  regs := fun _ _ h => h
  ask := by
    rintro n q t ⟨hclock, hbus, hconf, hin, hout, hsched, hq, hsnap, hdev, hst⟩
    rcases askDevice_cases n q t with e | ⟨d, hd, e⟩ <;> rw [e]
    · exact ⟨hclock, hbus, hconf, hin, hout, hsched, hq, hsnap, hdev, hst⟩
    · exact ⟨hclock, hbus, hconf, hin, hout, hsched, hq, hsnap,
        (devices_map_set Device.frame _ n d _ hd (Device.frame_serve d q)).trans hdev, hst⟩
  fatal := by
    rintro f t ⟨hclock, hbus, hconf, hin, hout, hsched, hq, hsnap, hdev, -⟩
    exact ⟨hclock, hbus, hconf, hin, hout, hsched, hq, hsnap, hdev, .inr ⟨f, rfl⟩⟩
  finish := fun _ _ _ h => h

/-- Settles O52: a handler changes registers, asks devices, aborts, or ends the instruction. -/
theorem programsCannotReachControlState : Obligations.ProgramsCannotReachControlState :=
  fun i s t ht => exec_keeps (controlAs_keptByHandlers s) i
    ⟨rfl, rfl, rfl, rfl, rfl, rfl, rfl, rfl, rfl, .inl rfl⟩ t ht

/-! ### Final statuses (R31, R138, R266) -/

theorem settle_cases (s : State) : settle s = s ∨ settle s = { s with status := .stopped } := by
  unfold settle
  split
  · exact .inr rfl
  · exact .inl rfl

/-- Winding down moves the Clock's phase alone. -/
theorem windDown_of_stopped {s : State} (hs : s.status = .stopped) :
    ∃ p, windDown s = .next (s.withClockPhase p) := by
  unfold windDown
  split
  · rename_i hp
    have hset : settle (s.withClockPhase (.grace s.conf.stopGrace)) =
        s.withClockPhase (.grace s.conf.stopGrace) := by
      rcases settle_cases (s.withClockPhase (.grace s.conf.stopGrace)) with e | e
      · exact e
      · rw [e, ← hs]; rfl
    exact ⟨_, by unfold clockStep; rw [hp]; exact congrArg _ hset⟩
  · rename_i n hp
    unfold clockStep
    rw [hp]
    cases n with
    | zero => exact ⟨_, rfl⟩
    | succ n => exact ⟨_, rfl⟩
  · exact ⟨s.clock.phase, rfl⟩

/-- Settles O33: an aborted machine has no action left, a stopped one only the Clock's grace period. -/
theorem finalStatusesAreFinal : Obligations.FinalStatusesAreFinal := by
  refine ⟨fun s f hs => ?_, fun s hs => ?_⟩
  · unfold step stepOf; rw [hs]
  · obtain ⟨p, hp⟩ := windDown_of_stopped hs
    refine ⟨s.withClockPhase p, ?_, hs, rfl, rfl, rfl, rfl⟩
    unfold step stepOf
    rw [hs]
    exact hp

/-! ### Registers and pairs (R13, R14, R20) -/

/-- A pair is a view of its halves: reading composes them, writing writes both (R13). -/
theorem RegFile.pair_halves (r : RegFile) {q : Ent16} {hi lo : Ent8} (h : q.halves = [hi, lo]) :
    hi ≠ lo ∧ r.get16 q = compose (r.get8 hi) (r.get8 lo) ∧
      ∀ v, r.set16 q v = (r.set8 hi (highByte v)).set8 lo (lowByte v) := by
  cases q <;> cases h <;> exact ⟨by decide, rfl, fun _ => rfl⟩

theorem zext16_eq_append : ∀ b : Byte, zext16 b = 0x00#8 ++ b := by decide

/-- Settles O48: composition splits again, and every access goes through the halves. -/
theorem pairsAreViewsOfTheirHalves : Obligations.PairsAreViewsOfTheirHalves := by
  refine ⟨fun h l => ⟨?_, compose_toNat h l⟩, compose_bytes, fun s q hi lo v hq => ?_,
    fun r p q b v => ⟨rfl, ?_, zext16_eq_append _, ?_⟩⟩
  · rw [decompose, highByte_compose, lowByte_compose]
  · have hview : ∀ t : State, t.r16 q = compose (t.r8 hi) (t.r8 lo) := fun t =>
      (t.cpu.regs.pair_halves hq).2.1
    obtain ⟨hne, -, hset⟩ := s.cpu.regs.pair_halves hq
    have hput : s.put16 q v = (s.put8 hi (highByte v)).put8 lo (lowByte v) :=
      congrArg s.withRegs (hset v)
    refine ⟨hview s, ?_, ?_, State.r16_put16_self s q v, fun b => ?_⟩
    · rw [hput, State.r8_put8_of_ne _ _ _ _ hne, State.r8_put8_self]
    · rw [hput, State.r8_put8_self]
    · rw [hview, highByte_compose, lowByte_compose, State.r8_put8_self,
        State.r8_put8_of_ne _ _ _ _ hne.symm]
      exact ⟨rfl, rfl⟩
  · exact (RegFile.get16_set16_self r q _).trans (zext16_eq_append b)
  · exact (RegFile.get8_set8 r p p _).trans (if_pos rfl)

/-! ### Construction (R35, R290) -/

/-- Settles O47: each value is the one `State.reset` is written with. -/
theorem constructionLeavesTheStatedValues : Obligations.ConstructionLeavesTheStatedValues :=
  ⟨rfl, rfl, rfl, rfl, rfl, rfl, rfl, rfl, rfl, rfl, rfl, rfl, rfl⟩

/-- Settles O54: the storage lists no cell, nothing is owed and every queue is empty. -/
theorem invariantsHoldAfterConstruction : Obligations.InvariantsHoldAfterConstruction :=
  ⟨rfl, by decide, State.reset.queuesBounded_iff.2 (by decide)⟩

/-! ### Boot (R291) -/

/-- A live device that is not scripted answers `GetRanges` with its declaration and does not change. -/
theorem Device.serve_getRanges {d : Device} (ha : d.alive = true) (hk : d.isScripted = false) :
    d.serve .getRanges = (.reply (.rangesRet d.decl), d) := by
  obtain ⟨decl, kind, alive, registered, inbox, exited⟩ := d
  cases ha
  cases kind with
  | rom | ram | display => rfl
  | scripted => cases hk

/-- The machine after its next input, the registration of device `n`, has succeeded (R110, R111). -/
def State.registerNext (s : State) (n : Nat) (d : Device) (rest : List Input) : State :=
  { s with
    inputs := rest
    bus := s.bus.add n d.decl
    devices := s.devices.modify n fun d => { d with registered := true }
    hostOut := s.hostOut ++ [.addDeviceOk] }

theorem whileBooting_of_booting {s : State} (hb : s.status = .booting) (r : Result) :
    whileBooting s r = r := if_pos hb

theorem step_register {s : State} {n : Nat} {d : Device} {rest : List Input}
    (hb : s.status = .booting) (hs : s.sched = []) (hi : s.inputs = .register n :: rest)
    (hbus : s.bus.alive = true) (hd : s.devices[n]? = some d) (ha : d.alive = true)
    (hk : d.isScripted = false) (hr : d.registered = false) :
    step s = .next (s.registerNext n d rest) := by
  let u : State := { s with inputs := rest }
  have hask : askDevice n .getRanges u = (.reply (.rangesRet d.decl), u) := by
    unfold askDevice
    rw [show u.devices[n]? = some d from hd]
    simp only [Device.serve_getRanges ha hk]
    rw [setDevices_self u hd]
  have hreg : busRegister n u = .ok () { u with
      bus := u.bus.add n d.decl
      devices := u.devices.modify n fun d => { d with registered := true } } := by
    unfold busRegister
    rw [if_pos hbus, hask]
  have hnew : u.isRegistered n = false := by
    unfold State.isRegistered
    rw [show u.devices[n]? = some d from hd]
    exact hr
  calc step s = applyInput (.register n) u := step_host dtReference hb hs hi fun _ => Input.noConfusion
    _ = if u.isRegistered n then .refused .registeredTwice
        else answerAccess (busRegister n u) fun _ => .addDeviceOk := whileBooting_of_booting hb _
    _ = .next (s.registerNext n d rest) := by rw [hnew, hreg]; rfl

theorem step_attach {s : State} {sub : SubId} {k : Nat} {rest : List Input}
    (hb : s.status = .booting) (hs : s.sched = []) (hi : s.inputs = .attach sub k :: rest)
    (hk : 1 ≤ k) : step s = .next { s with
      inputs := rest
      clock := { s.clock with subsystems := s.clock.subsystems ++ [(sub, k)] } } :=
  (step_host dtReference hb hs hi fun _ => Input.noConfusion).trans
    ((whileBooting_of_booting hb _).trans (if_neg (Nat.one_le_iff_ne_zero.1 hk)))

theorem step_start {s : State} {rest : List Input} (hb : s.status = .booting) (hs : s.sched = [])
    (hi : s.inputs = .start :: rest) (hl : s.launchable = true) :
    step s = .next { s with inputs := rest, status := .running } :=
  (step_host dtReference hb hs hi fun _ => Input.noConfusion).trans
    ((whileBooting_of_booting hb _).trans (if_pos hl))

theorem runFor_succ {f : State → Result} {n : Nat} {s t : State} (h : f s = .next t) :
    runFor f (n + 1) s = runFor f n t := by
  rw [runFor, h]

/-- What each reference device has declared is well formed, wherever the border port lies (R42, R43). -/
theorem Bus.declared_reference_wellFormed (port : Word) (n : Nat) (hn : n < 4) :
    ((Bus.reference port).declared n).wellFormed = true := by
  interval_cases n
  · rfl
  · rfl
  · rfl
  · simpa [Bus.declared, Bus.reference, rangesOf, RangesRet.wellFormed, Range.wellFormed,
      Range.allDisjoint, Config.spaceEnd] using port.isLt

/-- With the tables of the reference machine, a Tick queue that takes a message and divisors of at least
1, nothing stands in the way of the start (R292). -/
theorem launchable_of_reference {s : State} {port : Word} (hbus : s.bus = Bus.reference port)
    (hdev : s.devices.length = 4) (hcap : 1 ≤ s.conf.tickQueueCap)
    (hsub : ∀ p ∈ s.clock.subsystems, 1 ≤ p.2) : s.launchable = true := by
  unfold State.launchable
  rw [hbus, hdev]
  simp only [Bool.and_eq_true, List.all_eq_true, List.mem_range, decide_eq_true_eq]
  exact ⟨⟨Bus.declared_reference_wellFormed port, hcap⟩, hsub⟩

/-- The machine a launch state has become after its boot (R291). -/
def launched (regs : RegFile) (rom bank ram : Memory) (border : BitVec 3) (port : Word)
    (cpuDiv videoDiv : Nat) (conf : Conf) : State :=
  let s := launch regs rom bank ram border port cpuDiv videoDiv conf
  { s with
    status := .running
    bus := Bus.reference port
    devices := registeredAll s.devices
    clock := { Clock.reset with subsystems := [(.cpu, cpuDiv), (.device 3, videoDiv)] }
    inputs := []
    hostOut := [.addDeviceOk, .addDeviceOk, .addDeviceOk, .addDeviceOk] }

/-- Four registrations, two attachments and the start (R291). -/
theorem launch_boots (regs : RegFile) (rom bank ram : Memory) (border : BitVec 3) (port : Word)
    {cpuDiv videoDiv : Nat} {conf : Conf} (hcpu : 1 ≤ cpuDiv) (hvideo : 1 ≤ videoDiv)
    (hcap : 1 ≤ conf.tickQueueCap) :
    runFor step 7 (launch regs rom bank ram border port cpuDiv videoDiv conf) =
      .next (launched regs rom bank ram border port cpuDiv videoDiv conf) := by
  rw [runFor_succ (step_register rfl rfl rfl rfl rfl rfl rfl rfl),
    runFor_succ (step_register rfl rfl rfl rfl rfl rfl rfl rfl),
    runFor_succ (step_register rfl rfl rfl rfl rfl rfl rfl rfl),
    runFor_succ (step_register rfl rfl rfl rfl rfl rfl rfl rfl),
    runFor_succ (step_attach rfl rfl rfl hcpu), runFor_succ (step_attach rfl rfl rfl hvideo),
    runFor_succ (step_start rfl rfl rfl ?_)]
  · rfl
  · refine launchable_of_reference (port := port) rfl rfl hcap fun p hp => ?_
    rcases List.mem_cons.1 hp with rfl | hp
    · exact hcpu
    · rw [List.mem_singleton.1 hp]; exact hvideo

/-- Settles O46: the boot ends in `launched`, which holds what was launched. -/
theorem everyLaunchStateBoots : Obligations.EveryLaunchStateBoots := by
  refine ⟨fun regs rom bank ram border port cpuDiv videoDiv conf hcpu hvideo hcap => ?_, rfl⟩
  refine ⟨launched regs rom bank ram border port cpuDiv videoDiv conf,
    launch_boots regs rom bank ram border port hcpu hvideo hcap, rfl, ?_, rfl, rfl, rfl, rfl, rfl,
    rfl, rfl⟩
  simp [State.isReference, launched, launch, registeredAll, Device.constructed, Device.isRom,
    Device.isRam, Device.isDisplay]

end Sys2Proof.Machine

/-! The video layer and the rest of the machine (R56, R78): what a machine does is settled by what is left of
it without the render positions and without what was handed to the video layer. -/

namespace Sys2Proof.Machine

/-! ### Devices without their video layer -/

/-- The border after a write is the low three bits, changed or not (R55). -/
theorem Display.border_setBorder (u : Display) (v : Byte) :
    (u.setBorder v).border = v.extractLsb' 0 3 := by
  unfold Display.setBorder
  dsimp only
  split
  · rename_i h; exact h.symm
  · rfl

/-- Of the unit's state a request depends on the border alone (R55). -/
theorem serveDisplay_of_border {u w : Display} (h : u.border = w.border) (decl : RangesRet)
    (q : Request) : (serveDisplay u decl q).1 = (serveDisplay w decl q).1 ∧
      (serveDisplay u decl q).2.border = (serveDisplay w decl q).2.border := by
  cases q with
  | ioGet o => exact ⟨by simp only [serveDisplay, h], h⟩
  | ioPut o v =>
    by_cases ho : o = 0#16
    · simp [serveDisplay, ho, Display.border_setBorder]
    · simp [serveDisplay, ho, h]
  | getRanges | memGet | memPut => exact ⟨rfl, h⟩

/-- The same device, or the same DISPLAY but for its render position, its Ticks and what it has handed to
the video layer. -/
theorem Device.withoutVideo_eq_cases {c d : Device} (h : c.withoutVideo = d.withoutVideo) :
    c = d ∨ ∃ u w : Display, c.kind = .display u ∧ u.border = w.border ∧
      d = { c with kind := .display w } := by
  obtain ⟨decl, kind, alive, registered, inbox, exited⟩ := c
  obtain ⟨decl', kind', alive', registered', inbox', exited'⟩ := d
  cases kind <;> cases kind' <;> simp only [Device.withoutVideo, Device.mk.injEq, reduceCtorEq,
    DeviceKind.display.injEq, Display.mk.injEq, and_true, false_and, and_false] at h
  case display.display u w =>
    obtain ⟨rfl, hb, rfl, rfl, rfl, rfl⟩ := h
    exact .inr ⟨u, w, rfl, hb, rfl⟩
  all_goals exact .inl (by simp [h])

theorem Device.withoutVideo_display (d : Device) {u w : Display} (h : u.border = w.border) :
    { d with kind := .display u : Device }.withoutVideo =
      { d with kind := .display w : Device }.withoutVideo := by
  simp only [Device.withoutVideo, h]

theorem Device.withoutVideo_tick (d : Device) : d.tick.withoutVideo = d.withoutVideo := by
  obtain ⟨decl, kind, alive, registered, inbox, exited⟩ := d
  cases kind <;> rfl

section
variable {c d : Device} (h : c.withoutVideo = d.withoutVideo)
include h

theorem Device.frame_of_withoutVideo : c.frame = d.frame := by
  obtain rfl | ⟨u, w, -, -, rfl⟩ := Device.withoutVideo_eq_cases h <;> rfl

theorem Device.gone_of_withoutVideo : c.gone = d.gone := by
  obtain rfl | ⟨u, w, hc, -, rfl⟩ := Device.withoutVideo_eq_cases h
  · rfl
  · simp only [Device.gone, hc]

/-- They answer a request alike, and stay alike (R46, R56). -/
theorem Device.serve_of_withoutVideo (q : Request) : (c.serve q).1 = (d.serve q).1 ∧
    (c.serve q).2.withoutVideo = (d.serve q).2.withoutVideo := by
  obtain rfl | ⟨u, w, hc, hb, rfl⟩ := Device.withoutVideo_eq_cases h
  · exact ⟨rfl, rfl⟩
  · obtain ⟨decl, kind, alive, registered, inbox, exited⟩ := c
    cases hc
    cases alive with
    | false => exact ⟨rfl, h⟩
    | true =>
      obtain ⟨hr, hu⟩ := serveDisplay_of_border hb decl q
      exact ⟨congrArg Answer.reply hr, Device.withoutVideo_display _ hu⟩

/-- A change that does not touch what a device holds keeps them alike. -/
theorem Device.update_of_withoutVideo (f : Device → Device)
    (hf : ∀ (d : Device) (k : DeviceKind), f { d with kind := k } = { f d with kind := k }) :
    (f c).withoutVideo = (f d).withoutVideo := by
  obtain rfl | ⟨u, w, hc, hb, rfl⟩ := Device.withoutVideo_eq_cases h
  · rfl
  · have hk : f c = { f c with kind := .display u } := hc ▸ hf c c.kind
    calc (f c).withoutVideo = { f c with kind := .display u : Device }.withoutVideo :=
          congrArg Device.withoutVideo hk
      _ = { f c with kind := .display w : Device }.withoutVideo := Device.withoutVideo_display _ hb
      _ = (f { c with kind := .display w }).withoutVideo :=
          congrArg Device.withoutVideo (hf c (.display w)).symm

end

/-! ### Machines that differ in what the video layer sees -/

theorem State.sameButVideo_withDevices {s : State} {ds : List Device}
    (h : s.devices.map Device.withoutVideo = ds.map Device.withoutVideo) :
    s.sameButVideo { s with devices := ds } := by
  unfold State.sameButVideo
  rw [h]

/-- They differ in their devices alone. -/
theorem State.sameButVideo.exists_devices {s t : State} (h : s.sameButVideo t) :
    ∃ ds, s.devices.map Device.withoutVideo = ds.map Device.withoutVideo ∧
      t = { s with devices := ds } := by
  obtain ⟨st, conf, bus, l, cpu, clock, ins, out, sched⟩ := s
  obtain ⟨st', conf', bus', l', cpu', clock', ins', out', sched'⟩ := t
  simp only [State.sameButVideo, State.mk.injEq] at h
  obtain ⟨rfl, rfl, rfl, hd, rfl, rfl, rfl, rfl, rfl⟩ := h
  exact ⟨l', hd, rfl⟩

section
variable {s t : State} (h : s.sameButVideo t)
include h

theorem State.sameButVideo.devices :
    s.devices.map Device.withoutVideo = t.devices.map Device.withoutVideo := congrArg State.devices h

/-- What does not depend on the devices is the same in both. -/
theorem State.sameButVideo.observe {α : Type} (f : State → α)
    (hf : ∀ (u : State) (ds : List Device), f { u with devices := ds } = f u) : f s = f t := by
  obtain ⟨ds, -, rfl⟩ := h.exists_devices
  exact (hf s ds).symm

theorem State.sameButVideo.length_devices : s.devices.length = t.devices.length := by
  simpa using congrArg List.length h.devices

/-- A handle names a device in both, or in neither. -/
theorem State.sameButVideo.device_cases (n : Nat) :
    s.devices[n]? = none ∧ t.devices[n]? = none ∨ ∃ c d, s.devices[n]? = some c ∧
      t.devices[n]? = some d ∧ c.withoutVideo = d.withoutVideo := by
  have hn : (s.devices[n]?).map Device.withoutVideo = (t.devices[n]?).map Device.withoutVideo := by
    rw [← List.getElem?_map, ← List.getElem?_map, h.devices]
  cases hs : s.devices[n]? <;> cases ht : t.devices[n]? <;> rw [hs, ht] at hn
  · exact .inl ⟨rfl, rfl⟩
  · cases hn
  · cases hn
  · exact .inr ⟨_, _, rfl, rfl, Option.some.inj hn⟩

/-- A change that does not touch the devices keeps them so. -/
theorem State.sameButVideo.update (f : State → State)
    (hf : ∀ (u : State) (ds : List Device), f { u with devices := ds } = { f u with devices := ds }) :
    (f s).sameButVideo (f t) := by
  obtain ⟨ds, hd, rfl⟩ := h.exists_devices
  have hs : f s = { f s with devices := s.devices } := hf s s.devices
  have ht : f { s with devices := ds } = { f s with devices := ds } := hf s ds
  rw [ht]
  exact State.sameButVideo_withDevices (by rw [hs]; exact hd)

theorem State.sameButVideo.fatal (f : Fatal) : (raiseFatal f s).sameButVideo (raiseFatal f t) :=
  h.update (raiseFatal f) fun _ _ => rfl

theorem State.sameButVideo.setDevice {c d : Device} (n : Nat)
    (hcd : c.withoutVideo = d.withoutVideo) :
    State.sameButVideo { s with devices := s.devices.set n c }
      { t with devices := t.devices.set n d } := by
  obtain ⟨ds, hd, rfl⟩ := h.exists_devices
  refine State.sameButVideo_withDevices ?_
  rw [List.map_set, List.map_set, hd, hcd]

theorem State.sameButVideo.modifyDevice (n : Nat) {f : Device → Device}
    (hf : ∀ c d : Device, c.withoutVideo = d.withoutVideo →
      (f c).withoutVideo = (f d).withoutVideo) :
    State.sameButVideo { s with devices := s.devices.modify n f }
      { t with devices := t.devices.modify n f } := by
  rcases h.device_cases n with ⟨hs, ht⟩ | ⟨c, d, hs, ht, hcd⟩
  · rwa [List.modify_eq_self (by simpa using hs), List.modify_eq_self (by simpa using ht)]
  · rw [modifyDevices_of_getElem? _ _ c f hs, modifyDevices_of_getElem? _ _ d f ht]
    exact h.setDevice n (hf c d hcd)

/-! ### Handlers and fetches cannot tell them apart -/

theorem askDevice_sameButVideo (n : Nat) (q : Request) :
    (askDevice n q s).1 = (askDevice n q t).1 ∧
      (askDevice n q s).2.sameButVideo (askDevice n q t).2 := by
  unfold askDevice
  rcases h.device_cases n with ⟨hs, ht⟩ | ⟨c, d, hs, ht, hcd⟩ <;> rw [hs, ht]
  · exact ⟨rfl, h⟩
  · obtain ⟨hx, hk⟩ := Device.serve_of_withoutVideo hcd q
    exact ⟨hx, h.setDevice n hk⟩

end

theorem sameButVideo_sameToHandlers : SameToHandlers State.sameButVideo where
  sameRegs := fun _ _ h => h.observe (fun u => u.cpu.regs) fun _ _ => rfl
  sameSnapshot := fun _ _ h => h.observe (fun u => u.cpu.snapshot) fun _ _ => rfl
  sameBus := fun _ _ h => h.observe (fun u => u.bus) fun _ _ => rfl
  sameOpenBus := fun _ _ h => h.observe (fun u => u.conf.openBus) fun _ _ => rfl
  regs := fun _ _ r h => h.update (·.withRegs r) fun _ _ => rfl
  answer := fun _ _ n q h => (askDevice_sameButVideo h n q).1
  ask := fun _ _ n q h => (askDevice_sameButVideo h n q).2
  fatal := fun _ _ f h => h.fatal f
  finish := fun _ _ c h =>
    h.update (fun u => { u with cpu := { u.cpu with cyc := c, phase := .idle } }) fun _ _ => rfl

theorem Result.related_sameButVideo_iff {r q : Result} :
    Result.Related State.sameButVideo r q ↔ sameResultButVideo r q := by
  cases r <;> cases q <;> exact Iff.rfl

theorem fetchByte_sameButVideo {s t : State} (h : s.sameButVideo t) (a : Word)
    {k k' : Byte → State → Result}
    (hk : ∀ b u v, u.sameButVideo v → sameResultButVideo (k b u) (k' b v)) :
    sameResultButVideo (fetchByte a s k) (fetchByte a t k') := by
  have hb := busRead_related sameButVideo_sameToHandlers .mem a h
  unfold fetchByte
  generalize busRead .mem a s = y at hb
  generalize busRead .mem a t = z at hb
  cases y <;> cases z <;> try exact hb.elim
  case ok.ok => obtain ⟨rfl, hb⟩ := hb; exact hk _ _ _ hb
  case addressFault.addressFault => exact hb.fatal _
  case fatal.fatal => exact hb
  case hang.hang => exact congrArg Fault.deviceSilent hb

theorem fetchOperandBytes_sameButVideo (n : Nat) (a : Word) {s t : State} (h : s.sameButVideo t)
    {k k' : List Byte → State → Result}
    (hk : ∀ ops u v, ops.length = n → u.sameButVideo v → sameResultButVideo (k ops u) (k' ops v)) :
    sameResultButVideo (fetchOperandBytes n a s k) (fetchOperandBytes n a t k') := by
  induction n generalizing a s t k k' with
  | zero => exact hk [] s t rfl h
  | succ n ih =>
    exact fetchByte_sameButVideo h a fun b u v huv => ih _ huv fun ops _ _ hn huv =>
      hk (b :: ops) _ _ (congrArg Nat.succ hn) huv

/-- Whatever a path of the trie has selected, its handler is a behaviour, which sees registers and
replies alone (R56, R159). -/
theorem Entry.run_sameButVideo (pc0 : Word) {e : Entry} (he : e.wellFormed) (path : List Byte)
    {s t : State} (h : s.sameButVideo t) :
    sameResultButVideo (e.run pc0 path s) (e.run pc0 path t) := by
  induction e generalizing path s t with
  | terminal nops handler =>
    obtain ⟨p, hp⟩ := he
    refine fetchOperandBytes_sameButVideo _ _ h fun ops u v hn huv => ?_
    have hbegin := huv.update (beginHandler (pc0 + BitVec.ofNat 16 (path.length + nops)))
      fun _ _ => rfl
    rw [hp ops _ hn, hp ops _ hn, sameButVideo_sameToHandlers.sameRegs _ _ hbegin]
    exact Result.related_sameButVideo_iff.1
      ((p _ _).run_related sameButVideo_sameToHandlers hbegin)
  | subTable table ih =>
    exact fetchByte_sameButVideo h _ fun b u v huv => ih b (he b) _ huv
  | notImplemented =>
    exact Result.related_sameButVideo_iff.1
      (notImplemented_related sameButVideo_sameToHandlers path h)

/-! ### Nor can the agents -/

section
variable {s t : State} (h : s.sameButVideo t)
include h

theorem State.sameButVideo.exited (sub : SubId) : s.exited sub = t.exited sub := by
  cases sub with
  | cpu => exact h.observe (State.exited · .cpu) fun _ _ => rfl
  | device n =>
    unfold State.exited
    rcases h.device_cases n with ⟨hs, ht⟩ | ⟨c, d, hs, ht, hcd⟩ <;> simp only [hs, ht]
    exact congrArg (fun f => f.2.2.2.2) (Device.frame_of_withoutVideo hcd)

theorem State.sameButVideo.queueOf (sub : SubId) : s.queueOf sub = t.queueOf sub := by
  cases sub with
  | cpu => exact h.observe (State.queueOf · .cpu) fun _ _ => rfl
  | device n =>
    unfold State.queueOf
    rcases h.device_cases n with ⟨hs, ht⟩ | ⟨c, d, hs, ht, hcd⟩ <;> simp only [hs, ht]
    exact congrArg (fun f => f.2.2.2.1) (Device.frame_of_withoutVideo hcd)

theorem State.sameButVideo.closed (sub : SubId) : s.closed sub = t.closed sub := by
  have hx := h.exited sub
  cases sub with
  | cpu => exact h.observe (State.closed · .cpu) fun _ _ => rfl
  | device n =>
    unfold State.exited at hx
    unfold State.closed
    rcases h.device_cases n with ⟨hs, ht⟩ | ⟨c, d, hs, ht, hcd⟩ <;> simp only [hs, ht] at hx ⊢
    rw [hx, Device.gone_of_withoutVideo hcd]

theorem State.sameButVideo.canSend (sub : SubId) : s.canSend sub = t.canSend sub := by
  unfold State.canSend State.hasRoom
  rw [h.closed, h.queueOf, h.observe (fun u => u.conf.tickQueueCap) fun _ _ => rfl]

theorem State.sameButVideo.isRegistered (n : Nat) : s.isRegistered n = t.isRegistered n := by
  unfold State.isRegistered
  rcases h.device_cases n with ⟨hs, ht⟩ | ⟨c, d, hs, ht, hcd⟩ <;> simp only [hs, ht]
  exact congrArg (fun f => f.2.2.1) (Device.frame_of_withoutVideo hcd)

theorem State.sameButVideo.launchable : s.launchable = t.launchable := by
  obtain ⟨ds, hd, rfl⟩ := h.exists_devices
  unfold State.launchable
  rw [h.length_devices]

theorem State.sameButVideo.deviceReady (n : Nat) : s.deviceReady n = t.deviceReady n := by
  have hq := h.queueOf (.device n)
  have hx := h.exited (.device n)
  obtain ⟨ds, hd, rfl⟩ := h.exists_devices
  unfold State.queueOf at hq
  unfold State.exited at hx
  unfold State.deviceReady
  rcases h.device_cases n with ⟨hs, ht⟩ | ⟨c, d, hs, ht, hcd⟩ <;> simp only [hs, ht] at hq hx ⊢
  rw [hq, hx, Device.gone_of_withoutVideo hcd]
  rfl

theorem State.sameButVideo.clockReady : s.clockReady = t.clockReady := by
  have hc := h.canSend
  obtain ⟨ds, hd, rfl⟩ := h.exists_devices
  unfold State.clockReady
  simp only [hc]
  rfl

theorem State.sameButVideo.ready (x : Agent) : s.ready x = t.ready x := by
  cases x with
  | host => exact h.observe (State.ready · .host) fun _ _ => rfl
  | cpu => exact h.observe (State.ready · .cpu) fun _ _ => rfl
  | device n =>
    simp only [State.ready, h.deviceReady, h.observe (fun u => u.status) fun _ _ => rfl]
  | clock =>
    simp only [State.ready, h.clockReady, h.observe (fun u => u.status) fun _ _ => rfl]

theorem State.sameButVideo.pick : s.pick = t.pick := by
  unfold State.pick State.agents
  rw [h.length_devices, funext h.ready]

theorem State.sameButVideo.missingPeer : s.missingPeer = t.missingPeer := by
  have hc := h.closed
  have hx := h.exited
  obtain ⟨ds, hd, rfl⟩ := h.exists_devices
  unfold State.missingPeer
  simp only [hc, hx]

theorem settle_sameButVideo : (settle s).sameButVideo (settle t) := by
  have hc : (!s.stopsLeft && s.clock.subsystems.all fun p => s.exited p.1) =
      (!t.stopsLeft && t.clock.subsystems.all fun p => t.exited p.1) := by
    rw [h.observe State.stopsLeft fun _ _ => rfl, h.observe State.clock fun _ _ => rfl,
      funext h.exited]
  unfold settle
  rw [hc]
  split
  · exact h.update (fun u => { u with status := .stopped }) fun _ _ => rfl
  · exact h

theorem State.sameButVideo.withClockPhase (p : ClockPhase) :
    (s.withClockPhase p).sameButVideo (t.withClockPhase p) :=
  h.update (·.withClockPhase p) fun _ _ => rfl

theorem sendTo_sameButVideo (sub : SubId) (m : ClockMsg) :
    (sendTo sub m s).sameButVideo (sendTo sub m t) := by
  unfold sendTo
  rw [h.closed]
  split
  · exact h.fatal _
  · cases sub with
    | cpu => exact h.update (State.enqueue · .cpu m) fun _ _ => rfl
    | device n =>
      exact h.modifyDevice n fun c d hcd => Device.update_of_withoutVideo hcd
        (fun d => { d with inbox := d.inbox ++ [m] }) fun _ _ => rfl

theorem clockStep_sameButVideo : sameResultButVideo (clockStep s) (clockStep t) := by
  obtain ⟨ds, -, rfl⟩ := h.exists_devices
  unfold clockStep
  dsimp only
  cases s.clock.phase with
  | top =>
    exact h.update (fun u => { u with clock := { u.clock with
      ticks := u.clock.ticks + 1
      phase := .fanOut u.clock.subsystems } }) fun _ _ => rfl
  | fanOut rest =>
    rcases rest with _ | ⟨⟨sub, divisor⟩, rest⟩
    · exact h.withClockPhase _
    · by_cases hd : divisor = 0
      · simp only [hd, if_true]; rfl
      · simp only [hd, if_false, ← h.observe (State.due · divisor) fun _ _ => rfl]
        split
        · exact sendTo_sameButVideo (h.withClockPhase _) sub .tick
        · exact h.withClockPhase _
  | poll =>
    cases s.clock.control with
    | nil => exact h.withClockPhase _
    | cons m rest =>
      exact h.update (fun u => { u with clock := { u.clock with
        control := rest
        phase := .stopOut u.clock.subsystems } }) fun _ _ => rfl
  | stopOut rest =>
    rcases rest with _ | ⟨⟨sub, divisor⟩, rest⟩
    · exact settle_sameButVideo (h.withClockPhase _)
    · exact sendTo_sameButVideo (h.withClockPhase _) sub .stop
  | grace n =>
    cases n with
    | zero => exact h.withClockPhase _
    | succ n => exact h.withClockPhase _
  | terminated => exact h
  | dead => exact h

theorem deviceStep_sameButVideo (n : Nat) : sameResultButVideo (deviceStep n s) (deviceStep n t) := by
  unfold deviceStep
  rcases h.device_cases n with ⟨hs, ht⟩ | ⟨c, d, hs, ht, hcd⟩ <;> simp only [hs, ht]
  · exact h
  · rw [show c.inbox = d.inbox from congrArg (fun f => f.2.2.2.1) (Device.frame_of_withoutVideo hcd)]
    rcases d.inbox with _ | ⟨_ | _, rest⟩
    · exact h.fatal _
    · refine h.setDevice n ?_
      rw [Device.withoutVideo_tick, Device.withoutVideo_tick]
      exact Device.update_of_withoutVideo hcd (fun d => { d with inbox := rest }) fun _ _ => rfl
    · exact settle_sameButVideo (h.setDevice n (Device.update_of_withoutVideo hcd
        (fun d => { d with inbox := rest, exited := true }) fun _ _ => rfl))

theorem cpuTick_sameButVideo (dt : DispatchTrie) :
    sameResultButVideo (cpuTick dt s) (cpuTick dt t) := by
  unfold cpuTick
  rw [← h.observe (fun u => u.cpu.cyc) fun _ _ => rfl]
  split
  · exact h.update (fun u => { u with cpu := { u.cpu with cyc := s.cpu.cyc - 1 } }) fun _ _ => rfl
  · unfold runInstruction
    rw [← h.observe (State.r16 · .pc) fun _ _ => rfl]
    exact Entry.run_sameButVideo _ (e := .subTable dt.val) dt.property []
      (h.update beginFetch fun _ _ => rfl)

theorem cpuStep_sameButVideo (dt : DispatchTrie) :
    sameResultButVideo (cpuStep dt s) (cpuStep dt t) := by
  have hq (q : List ClockMsg) : (s.withQueue q).sameButVideo (t.withQueue q) :=
    h.update (·.withQueue q) fun _ _ => rfl
  obtain ⟨ds, -, rfl⟩ := h.exists_devices
  unfold cpuStep
  dsimp only
  rcases s.cpu.queue with _ | ⟨_ | _, rest⟩
  · exact h.fatal _
  · exact cpuTick_sameButVideo (hq rest) dt
  · exact settle_sameButVideo ((hq rest).update
      (fun u => { u with cpu := { u.cpu with phase := .stopped } }) fun _ _ => rfl)

end

theorem answerAccess_sameButVideo {α : Type} {x y : Access α}
    (h : x.Related State.sameButVideo y) (reply : α → HostReply) :
    sameResultButVideo (answerAccess x reply) (answerAccess y reply) := by
  have ha {u v : State} (r : HostReply) (h : u.sameButVideo v) :
      (u.answerHost r).sameButVideo (v.answerHost r) := h.update (·.answerHost r) fun _ _ => rfl
  cases x <;> cases y <;> try exact h.elim
  case ok.ok => obtain ⟨rfl, h⟩ := h; exact ha _ h
  case addressFault.addressFault => exact ha _ h
  case fatal.fatal => exact ha _ h
  case hang.hang => exact congrArg Fault.deviceSilent h

section
variable {s t : State} (h : s.sameButVideo t)
include h

theorem busRegister_sameButVideo (n : Nat) :
    (busRegister n s).Related State.sameButVideo (busRegister n t) := by
  unfold busRegister
  obtain ⟨ha, hk⟩ := askDevice_sameButVideo h n .getRanges
  rw [← h.observe (fun u => u.bus.alive) fun _ _ => rfl]
  generalize askDevice n .getRanges s = y at ha hk
  generalize askDevice n .getRanges t = z at ha hk
  obtain ⟨x, u⟩ := y
  obtain ⟨x', v⟩ := z
  cases ha
  split
  · cases x with
    | reply r =>
      cases r with
      | rangesRet g =>
        have hreg := hk.modifyDevice n fun c d hcd => Device.update_of_withoutVideo hcd
          (fun d => { d with registered := true }) fun _ _ => rfl
        exact ⟨rfl, hreg.update (fun u => { u with bus := u.bus.add n g }) fun _ _ => rfl⟩
      | memReadOk | memWriteOk | ioReadOk | ioWriteOk | err => exact hk.fatal _
    | closed => exact hk.fatal _
    | silent => rfl
  · exact h.fatal _

theorem whileBooting_sameButVideo {r q : Result} (hr : sameResultButVideo r q) :
    sameResultButVideo (whileBooting s r) (whileBooting t q) := by
  unfold whileBooting
  rw [← h.observe (fun u => u.status) fun _ _ => rfl]
  split
  · exact hr
  · rfl

theorem terminatePeer_sameButVideo (p : Peer) :
    (terminatePeer p s).sameButVideo (terminatePeer p t) := by
  cases p with
  | bus => exact h.update (terminatePeer .bus) fun _ _ => rfl
  | clock => exact h.update (terminatePeer .clock) fun _ _ => rfl
  | cpu => exact h.update (terminatePeer .cpu) fun _ _ => rfl
  | device n =>
    exact h.modifyDevice n fun c d hcd => Device.update_of_withoutVideo hcd
      (fun d => { d with alive := false }) fun _ _ => rfl

theorem applyInput_sameButVideo (x : Input) :
    sameResultButVideo (applyInput x s) (applyInput x t) := by
  cases x with
  | register n =>
    refine whileBooting_sameButVideo h ?_
    rw [h.isRegistered]
    split
    · rfl
    · exact answerAccess_sameButVideo (busRegister_sameButVideo h n) _
  | read sp a =>
    exact whileBooting_sameButVideo h
      (answerAccess_sameButVideo (busRead_related sameButVideo_sameToHandlers sp a h) _)
  | write sp a v =>
    exact whileBooting_sameButVideo h
      (answerAccess_sameButVideo (busWrite_related sameButVideo_sameToHandlers sp a v h) _)
  | attach sub divisor =>
    refine whileBooting_sameButVideo h ?_
    split
    · rfl
    · exact h.update (fun u => { u with clock := { u.clock with
        subsystems := u.clock.subsystems ++ [(sub, divisor)] } }) fun _ _ => rfl
  | start =>
    refine whileBooting_sameButVideo h ?_
    rw [h.launchable]
    split
    · exact h.update (fun u => { u with status := .running }) fun _ _ => rfl
    · rfl
  | stop n =>
    exact h.update (fun u => { u with clock := { u.clock with
      control := u.clock.control ++ [.stop] } }) fun _ _ => rfl
  | terminate p => exact terminatePeer_sameButVideo h p

theorem hostStep_sameButVideo : sameResultButVideo (hostStep s) (hostStep t) := by
  unfold hostStep
  rw [← h.observe (fun u => u.inputs) fun _ _ => rfl]
  cases s.inputs with
  | nil => exact h
  | cons x rest =>
    exact applyInput_sameButVideo (h.update (fun u => { u with inputs := rest }) fun _ _ => rfl) x

theorem act_sameButVideo (dt : DispatchTrie) (x : Agent) :
    sameResultButVideo (act dt x s) (act dt x t) := by
  cases x with
  | host => exact hostStep_sameButVideo h
  | cpu => exact cpuStep_sameButVideo h dt
  | device n => exact deviceStep_sameButVideo h n
  | clock => exact clockStep_sameButVideo h

/-! ### One step beside the other -/

theorem standStill_sameButVideo : sameResultButVideo (standStill s) (standStill t) := by
  unfold standStill
  rw [← h.observe (fun u => u.status) fun _ _ => rfl, ← h.missingPeer,
    ← h.observe (fun u => u.clock) fun _ _ => rfl]
  split
  · split
    · exact h.fatal _
    · split
      · exact h
      · rfl
  · exact h

theorem moveOn_sameButVideo (dt : DispatchTrie) :
    sameResultButVideo (moveOn dt s) (moveOn dt t) := by
  unfold moveOn
  rw [← h.observe (fun u => u.sched) fun _ _ => rfl, ← h.pick]
  cases s.sched with
  | cons x rest =>
    have hs : State.sameButVideo { s with sched := rest } { t with sched := rest } :=
      h.update (fun u => { u with sched := rest }) fun _ _ => rfl
    simp only [h.ready]
    split
    · exact act_sameButVideo hs dt x
    · exact hs
  | nil =>
    cases s.pick with
    | some x => exact act_sameButVideo h dt x
    | none => exact standStill_sameButVideo h

theorem windDown_sameButVideo : sameResultButVideo (windDown s) (windDown t) := by
  unfold windDown
  rw [← h.observe (fun u => u.clock) fun _ _ => rfl]
  split
  · exact clockStep_sameButVideo h
  · exact clockStep_sameButVideo h
  · exact h

/-- Whatever the dispatch trie, a step neither reads nor hands on what only the video layer sees. -/
theorem stepOf_sameButVideo (dt : DispatchTrie) :
    sameResultButVideo (stepOf dt s) (stepOf dt t) := by
  unfold stepOf
  rw [← h.observe (fun u => u.status) fun _ _ => rfl]
  cases s.status with
  | aborted f => exact h
  | stopped => exact windDown_sameButVideo h
  | booting => exact moveOn_sameButVideo h dt
  | running => exact moveOn_sameButVideo h dt

end

/-- Settles O60: every action answers two such machines alike and leaves two such machines. -/
theorem videoNeverReachesTheRest : Obligations.VideoNeverReachesTheRest := fun _ _ h =>
  stepOf_sameButVideo h dtReference

end Sys2Proof.Machine

/-! Only the CPU reaches a device through the Bus after boot (R41, R279): what the actions of the Clock, a
device and the outside leave in the devices. -/

namespace Sys2Proof.Machine

/-- What the devices hold, but for what only the video layer sees (R56). -/
def State.contents (s : State) : List DeviceKind := s.devices.map fun d => d.withoutVideo.kind

theorem Device.content_congr {c d : Device} (h : c.kind = d.kind) :
    c.withoutVideo.kind = d.withoutVideo.kind := by
  obtain ⟨_, kind, _, _, _, _⟩ := c
  obtain ⟨_, _, _, _, _, _⟩ := d
  cases h
  cases kind <;> rfl

theorem Device.content_tick (d : Device) : d.tick.withoutVideo.kind = d.withoutVideo.kind := by
  obtain ⟨_, kind, _, _, _, _⟩ := d
  cases kind <;> rfl

theorem State.contents_modifyDevice (s : State) (n : Nat) (f : Device → Device)
    (hf : ∀ d, (f d).kind = d.kind) :
    State.contents { s with devices := s.devices.modify n f } = s.contents :=
  devices_map_modify (fun d => d.withoutVideo.kind) f (fun d => Device.content_congr (hf d)) _ n

/-- A message goes to a queue, not into what a device holds (R130). -/
theorem State.contents_enqueue (s : State) (sub : SubId) (m : ClockMsg) :
    (s.enqueue sub m).contents = s.contents := by
  cases sub with
  | cpu => rfl
  | device n =>
    exact s.contents_modifyDevice n (fun d => { d with inbox := d.inbox ++ [m] }) fun _ => rfl

theorem contents_sendTo (s : State) (sub : SubId) (m : ClockMsg) :
    (sendTo sub m s).contents = s.contents := by
  unfold sendTo
  split
  · rfl
  · exact State.contents_enqueue s sub m

theorem contents_settle (s : State) : (settle s).contents = s.contents := by
  obtain e | e := settle_cases s <;> rw [e]; rfl

theorem contents_clockStep (s : State) :
    Result.Keeps (fun t => t.contents = s.contents) (clockStep s) := by
  unfold clockStep
  split
  · exact keeps_next rfl
  · exact keeps_next rfl
  · split
    · exact keeps_refused _
    · split
      · exact keeps_next (contents_sendTo _ _ _)
      · exact keeps_next rfl
  · split <;> exact keeps_next rfl
  · exact keeps_next (contents_settle _)
  · exact keeps_next (contents_sendTo _ _ _)
  · exact keeps_next rfl
  · exact keeps_next rfl
  · exact keeps_next rfl
  · exact keeps_next rfl

theorem contents_deviceStep (n : Nat) (s : State) :
    Result.Keeps (fun t => t.contents = s.contents) (deviceStep n s) := by
  unfold deviceStep
  split
  · exact keeps_next rfl
  · rename_i d hd
    split
    · exact keeps_next rfl
    · exact keeps_next (devices_map_set _ _ _ _ _ hd
        ((Device.content_tick _).trans (Device.content_congr rfl)))
    · exact keeps_next ((contents_settle _).trans
        (devices_map_set (fun d => d.withoutVideo.kind) _ _ _ _ hd (Device.content_congr rfl)))

theorem contents_terminatePeer (p : Peer) (s : State) :
    (terminatePeer p s).contents = s.contents := by
  cases p with
  | device n => exact s.contents_modifyDevice n (fun d => { d with alive := false }) fun _ => rfl
  | bus | clock | cpu => rfl

/-- After boot the Bus calls of the outside are refused (R41, R114). -/
theorem contents_hostStep {s : State} (hs : s.status ≠ .booting) :
    Result.Keeps (fun t => t.contents = s.contents) (hostStep s) := by
  unfold hostStep
  split
  · exact keeps_next rfl
  · rename_i x rest _
    cases x with
    | stop n => exact keeps_next rfl
    | terminate p => exact keeps_next (contents_terminatePeer p { s with inputs := rest })
    | register | read | write | attach | start =>
      exact whileBooting_keeps fun hb => absurd hb hs

/-- Settles O58: the Clock and the devices pass messages, and the outside calls the Bus no more. -/
theorem onlyTheCpuReachesDevicesAfterBoot : Obligations.OnlyTheCpuReachesDevicesAfterBoot := by
  intro dt s t x hs hx ht
  cases x with
  | host => exact contents_hostStep (by rw [hs]; exact Status.noConfusion) t ht
  | cpu => exact absurd rfl hx
  | device n => exact contents_deviceStep n s t ht
  | clock => exact contents_clockStep s t ht

end Sys2Proof.Machine

/-! The reference devices and the reference map (R51 to R57): what each device answers, and what the Bus
makes of it at every address. -/

namespace Sys2Proof.Machine

/-! ### What a device answers (R51 to R55) -/

theorem Device.withKind_self {d : Device} {k : DeviceKind} (h : d.kind = k) :
    { d with kind := k } = d := by
  subst h
  rfl

section
variable {d : Device} (ha : d.alive = true)
include ha

theorem Device.serve_rom {len : Nat} {cells : Memory} (hk : d.kind = .rom len cells) (q : Request) :
    d.serve q = (.reply (serveRom len cells d.decl q), d) := by
  unfold Device.serve
  rw [if_pos ha, hk]

theorem Device.serve_ram {len : Nat} {cells : Memory} (hk : d.kind = .ram len cells) (q : Request) :
    d.serve q = (.reply (serveRam len cells d.decl q).1,
      { d with kind := .ram len (serveRam len cells d.decl q).2 }) := by
  unfold Device.serve
  rw [if_pos ha, hk]

theorem Device.serve_display {u : Display} (hk : d.kind = .display u) (q : Request) :
    d.serve q = (.reply (serveDisplay u d.decl q).1,
      { d with kind := .display (serveDisplay u d.decl q).2 }) := by
  unfold Device.serve
  rw [if_pos ha, hk]

/-- A request that RAM does not store anything for leaves it as it was. -/
theorem Device.serve_ram_unchanged {len : Nat} {cells : Memory} (hk : d.kind = .ram len cells)
    {q : Request} {r : Reply} (hq : serveRam len cells d.decl q = (r, cells)) :
    d.serve q = (.reply r, d) := by
  rw [Device.serve_ram ha hk, hq, Device.withKind_self hk]

/-- A request that sets no border leaves DISPLAY as it was. -/
theorem Device.serve_display_unchanged {u : Display} (hk : d.kind = .display u) {q : Request}
    {r : Reply} (hq : serveDisplay u d.decl q = (r, u)) : d.serve q = (.reply r, d) := by
  rw [Device.serve_display ha hk, hq, Device.withKind_self hk]

/-- A byte stored inside the length (R53). -/
theorem Device.serve_memPut {len : Nat} {cells : Memory} (hk : d.kind = .ram len cells) {o : Word}
    (ho : o.toNat < len) (b : Byte) : d.serve (.memPut o b) =
      (.reply .memWriteOk, { d with kind := .ram len (cells.write o.toNat b) }) := by
  have hq : serveRam len cells d.decl (.memPut o b) = (.memWriteOk, cells.write o.toNat b) :=
    if_pos ho
  rw [Device.serve_ram ha hk, hq]

/-- A border write (R55). -/
theorem Device.serve_ioPut {u : Display} (hk : d.kind = .display u) (b : Byte) :
    d.serve (.ioPut 0#16 b) = (.reply .ioWriteOk, { d with kind := .display (u.setBorder b) }) := by
  have hq : serveDisplay u d.decl (.ioPut 0#16 b) = (.ioWriteOk, u.setBorder b) := rfl
  rw [Device.serve_display ha hk, hq]

end

/-- The low three bits of a byte, as a number (R55). -/
theorem extractBorder_toNat (b : Byte) : (b.extractLsb' 0 3).toNat = b.toNat % 8 := by
  rw [BitVec.extractLsb'_toNat, Nat.shiftRight_zero]

/-- Settles O42: the declarations are what the devices are constructed with, and each answer is the clause
of the device's own `serve` function; RAM's is a read after a write of canonical storage. -/
theorem referenceDevicesServeTheContract : Obligations.ReferenceDevicesServeTheContract := by
  refine ⟨⟨rfl, fun _ => rfl⟩, fun d o b ha => ⟨fun len cells hk => ?_, fun len cells hk hwf => ?_,
    fun u hk => ?_⟩⟩
  · have hrom := Device.serve_rom ha hk
    exact ⟨hrom _, hrom _, hrom _, hrom _, hrom _⟩
  · have hram {q : Request} {r : Reply} := Device.serve_ram_unchanged ha hk (q := q) (r := r)
    refine ⟨hram rfl, hram rfl, fun ho => hram (if_neg (Nat.not_lt.2 ho)), fun ho => ?_, hram rfl,
      hram rfl⟩
    exact ⟨cells.write o.toNat b, Device.serve_memPut ha hk ho b, fun p =>
      Memory.read_write 0 cells o.toNat p b hwf⟩
  · have hdisplay {q : Request} {r : Reply} := Device.serve_display_unchanged ha hk (q := q) (r := r)
    refine ⟨hdisplay rfl, hdisplay rfl, hdisplay rfl, ?_, fun ho => hdisplay (if_neg ho), ?_⟩
    · rw [BitVec.ofNat_toNat]
      exact hdisplay rfl
    · rintro rfl
      refine ⟨u.setBorder b, Device.serve_ioPut ha hk b, ?_, Display.renderPos_setBorder u b⟩
      rw [Display.border_setBorder, extractBorder_toNat]

/-! ### Toward the video layer (R30, R56) -/

theorem extractBorder_eq (b : Byte) : b.extractLsb' 0 3 = BitVec.ofNat 3 b.toNat :=
  BitVec.eq_of_toNat_eq (by rw [extractBorder_toNat, BitVec.toNat_ofNat])

/-- A border write hands on the colour of a changed border, and nothing else. -/
theorem Display.out_setBorder (u : Display) (b : Byte) : (u.setBorder b).out = u.out ++
    if b.toNat % 8 = u.border.toNat then []
    else [.border (Config.palette (BitVec.ofNat 3 b.toNat))] := by
  have hc : b.extractLsb' 0 3 = u.border ↔ b.toNat % 8 = u.border.toNat := by
    rw [← extractBorder_toNat, BitVec.toNat_inj]
  unfold Display.setBorder
  simp only [hc]
  split
  · rw [List.append_nil]
  · rw [extractBorder_eq]

/-- Settles O43: a border write as above; a Tick adds a natural number to the position and hands it on. -/
theorem videoSeesChangesAndAdvances : Obligations.VideoSeesChangesAndAdvances :=
  ⟨Display.out_setBorder, fun u => ⟨rfl, Nat.le_add_right u.renderPos _, rfl⟩, by decide⟩

/-! ### The reference map (R57) -/

theorem busWrite_unrouted {s : State} {sp : Space} {a : Word} (hb : s.bus.alive = true)
    (hm : lookup (s.bus.table sp .write) a = none) (v : Byte) :
    busWrite sp a v s = .addressFault s := by
  unfold busWrite
  rw [if_pos hb, hm]

/-- A routed write is what the device makes of the request (R116). -/
theorem busWrite_routed {s : State} {sp : Space} {a : Word} {m : MapEntry} {d : Device}
    (hb : s.bus.alive = true) (hm : lookup (s.bus.table sp .write) a = some m)
    (hd : s.devices[m.dev]? = some d) {v : Byte} {x : Answer} {d' : Device}
    (hx : d.serve (writeRequest sp (m.offset a) v) = (x, d')) :
    busWrite sp a v s = finishWrite sp m.dev x { s with devices := s.devices.set m.dev d' } := by
  unfold busWrite askDevice
  rw [if_pos hb, hm]
  dsimp only
  rw [hd]
  dsimp only
  rw [hx]

section
variable {s : State} {port : Word} {rom bank ram display : Device} {c0 c1 c2 : Memory} {u : Display}
  (h : s.Reference port rom bank ram display c0 c1 c2 u)
include h

theorem State.Reference.busAlive : s.bus.alive = true := by rw [h.bus]; rfl

theorem State.Reference.busRead_mem (a : Word) :
    busRead .mem a s = .ok (if a.toNat < 0x4000 then c0.read a.toNat
      else if a.toNat < 0x8000 then c1.read (a.toNat - 0x4000)
      else c2.read (a.toNat - 0x8000)) s := by
  rw [busRead_settled (State.settled_of_isReference h.isReference), h.peek_mem]

theorem State.Reference.busRead_io (a : Word) :
    busRead .io a s = if a = port then .ok (u.border.zeroExtend 8) s else .addressFault s := by
  rw [busRead_settled (State.settled_of_isReference h.isReference), h.peek_io]
  by_cases e : a = port
  · rw [if_pos e, if_pos e]
  · rw [if_neg e, if_neg e]

/-- ROM takes no write; from 0x4000 on every address stores. -/
theorem State.Reference.busWrite_mem (a : Word) (v : Byte) :
    busWrite .mem a v s =
      if a.toNat < 0x4000 then .addressFault s else .ok () (s.afterStore .mem a v) := by
  have hm := lookup_memWrite port a
  have halt := a.isLt
  rw [← h.bus] at hm
  rw [h.afterStore_mem]
  by_cases h1 : a.toNat < 0x4000
  · rw [if_pos h1] at hm ⊢
    exact busWrite_unrouted h.busAlive hm v
  · rw [if_neg h1] at hm
    simp only [if_neg h1]
    by_cases h2 : a.toNat < 0x8000
    · rw [if_pos h2] at hm ⊢
      have hs := Device.serve_memPut h.bankAlive h.bankKind (o := a - 0x4000#16)
        (by rw [offset_bank h1]; omega) v
      rw [busWrite_routed h.busAlive hm (by rw [h.devices]; rfl) hs, offset_bank h1, h.devices]
      rfl
    · rw [if_neg h2] at hm ⊢
      have hs := Device.serve_memPut h.ramAlive h.ramKind (o := a - 0x8000#16)
        (by rw [offset_ram h2]; omega) v
      rw [busWrite_routed h.busAlive hm (by rw [h.devices]; rfl) hs, offset_ram h2, h.devices]
      rfl

theorem State.Reference.busWrite_io (a : Word) (v : Byte) :
    busWrite .io a v s = if a = port then .ok () (s.afterStore .io a v) else .addressFault s := by
  have hm := lookup_io port a .write
  rw [← h.bus] at hm
  rw [h.afterStore_io]
  by_cases e : a = port
  · rw [if_pos e] at hm
    simp only [if_pos e]
    have hs := Device.serve_ioPut h.displayAlive h.displayKind v
    rw [← BitVec.sub_self port] at hs
    subst e
    rw [busWrite_routed h.busAlive hm (by rw [h.devices]; rfl) hs, h.devices]
    rfl
  · rw [if_neg e] at hm ⊢
    exact busWrite_unrouted h.busAlive hm v

end

/-- The devices of a reference machine live, whatever they hold. -/
theorem State.reference_of_kinds {s : State} {port : Word} {rom bank ram display : Device}
    {c0 c1 c2 : Memory} {u : Display} (h : s.isReference port)
    (hd : s.devices = [rom, bank, ram, display]) (h0 : rom.kind = .rom 0x4000 c0)
    (h1 : bank.kind = .ram 0x4000 c1) (h2 : ram.kind = .ram 0x8000 c2)
    (h3 : display.kind = .display u) : s.Reference port rom bank ram display c0 c1 c2 u := by
  obtain ⟨hb, rom', bank', ram', display', hd', k0, k1, k2, k3⟩ := State.isReference_devices h
  cases hd.symm.trans hd'
  exact ⟨hb, hd, (Device.isRom_kind k0).1, (Device.isRam_kind k1).1, (Device.isRam_kind k2).1,
    (Device.isDisplay_kind k3).1, h0, h1, h2, h3⟩

/-- Settles O44: each address is routed to one device, which answers as R51 to R55 say. -/
theorem referenceMapRoutesEveryAddress : Obligations.ReferenceMapRoutesEveryAddress := by
  intro s port rom bank ram display c0 c1 c2 u a v hs hd h0 h1 h2 h3
  have h := State.reference_of_kinds hs hd h0 h1 h2 h3
  refine ⟨h.busRead_mem a, h.busRead_io a, ?_, ?_⟩
  · rw [h.busWrite_mem, h.afterStore_mem]
    split
    · rfl
    · split <;> rfl
  · rw [h.busWrite_io, h.afterStore_io]
    split <;> rfl

/-- Settles O45: the write is the store, and a store changes the stored byte alone. -/
theorem storedByteReadsBack : Obligations.StoredByteReadsBack := by
  intro s port a v hs hw ha
  obtain ⟨rom, bank, ram, display, c0, c1, c2, u, h⟩ := State.reference_of_isReference hs
  have hpeek := h.peek_afterStore hw a v
  have hwrite : writable a = true := decide_eq_true ha
  refine ⟨s.afterStore .mem a v, ?_, ?_, fun b hb => ?_, fun b => (hpeek b).2.1⟩
  · rw [h.busWrite_mem, if_neg (Nat.not_lt.2 ha)]
  · rw [busRead_settled (State.settled_of_isReference (hpeek a).2.2), (hpeek a).1,
      if_pos ⟨rfl, hwrite⟩]
  · rw [(hpeek b).1, if_neg fun e => hb e.1]

end Sys2Proof.Machine

/-! The encoding of `DT_ref` (spec/30_encoding.md): the walk to a leaf of the trie, what a leaf makes
of its operand bytes, and decoding and encoding as inverses. -/

namespace Sys2Proof

/-! ### The walk to a leaf (R89) -/

/-- The trie leads along the opcode path `path` to the leaf `l`. -/
inductive OpcodePath : List Byte → Leaf → Prop
  | root {b : Byte} {l : Leaf} (h : dtRef b = .leaf l) : OpcodePath [b] l
  | sub {b b2 : Byte} {t : SubTable} {l : Leaf} (h : dtRef b = .subTable t) (hl : dtSub t b2 = l) :
      OpcodePath [b, b2] l

theorem OpcodePath.encodes {path : List Byte} {l : Leaf} (h : OpcodePath path l) :
    l.Encodes path := by
  cases h with
  | @root b _ h => simpa only [h] using dtRef_encodes b
  | @sub b b2 t _ h hl =>
    have hb : b = t.selector := by simpa only [h] using dtRef_encodes b
    rw [← hl, hb]
    exact dtSub_encodes t b2

theorem OpcodePath.decode_append {path : List Byte} {l : Leaf} (h : OpcodePath path l)
    (ops : List Byte) : decode (path ++ ops) = l.finish ops := by
  cases h with
  | root h => simp [decode, h]
  | sub h hl => simp [decode, h, hl]

/-- Where the bytes do not end inside the opcode path, one of at most two bytes is found. -/
theorem opcodePath_or_error (bytes : List Byte) :
    (∃ path l ops, OpcodePath path l ∧ path.length ≤ 2 ∧ bytes = path ++ ops) ∨
      bytes.length < 2 ∧ ∃ e, decode bytes = .error e := by
  cases bytes with
  | nil => exact .inr ⟨Nat.two_pos, _, rfl⟩
  | cons b rest =>
    cases hb : dtRef b with
    | leaf l => exact .inl ⟨[b], l, rest, .root hb, Nat.le_succ 1, rfl⟩
    | subTable t =>
      cases rest with
      | nil => exact .inr ⟨Nat.one_lt_two, .noSecondOpcode, by simp [decode, hb]⟩
      | cons b2 ops => exact .inl ⟨[b, b2], _, ops, .sub hb rfl, Nat.le_refl 2, rfl⟩

/-! ### The operand bytes of a leaf (R88, R96) -/

/-- What a leaf takes are the operand bytes of the instruction's encoding; it looks no further. -/
theorem Leaf.finish_ok {l : Leaf} {path ops rest : List Byte} {i : Instr} (hl : l.Encodes path)
    (h : l.finish ops = .ok (i, rest)) :
    ∃ operands, ops = operands ++ rest ∧ i.wellFormed ∧ encode i = path ++ operands ∧
      ∀ more, l.finish (operands ++ more) = .ok (i, more) := by
  cases l with
  | op0 | notImplemented =>
    cases h
    exact ⟨[], rfl, hl.1, by simpa using hl.2, fun _ => rfl⟩
  | op1 f =>
    cases ops with
    | nil => cases h
    | cons n ops =>
      cases h
      exact ⟨[n], rfl, (hl n).1, (hl n).2, fun _ => rfl⟩
  | op2 f =>
    match ops, h with
    | lo :: hi :: ops, rfl =>
      obtain ⟨hw, he⟩ := hl (compose hi lo)
      rw [lowByte_compose, highByte_compose] at he
      exact ⟨[lo, hi], rfl, hw, he, fun _ => rfl⟩

/-- No leaf takes more than two operand bytes. -/
theorem Leaf.finish_of_two_le (l : Leaf) {ops : List Byte} (h : 2 ≤ ops.length) :
    ∃ i rest, l.finish ops = .ok (i, rest) := by
  match ops, h with
  | lo :: hi :: ops, _ => cases l <;> exact ⟨_, _, rfl⟩

/-! ### Decoding gives the encoding back (R89, R101) -/

/-- What decodes is a well-formed instruction's encoding, which decodes so before any other bytes
too. -/
theorem decode_ok {bytes rest : List Byte} {i : Instr} (h : decode bytes = .ok (i, rest)) :
    i.wellFormed ∧ bytes = encode i ++ rest ∧
      ∀ more, decode (encode i ++ more) = .ok (i, more) := by
  obtain ⟨path, l, ops, hp, -, rfl⟩ | ⟨-, e, he⟩ := opcodePath_or_error bytes
  · rw [hp.decode_append] at h
    obtain ⟨operands, rfl, hw, he, hmore⟩ := Leaf.finish_ok hp.encodes h
    refine ⟨hw, by rw [he, List.append_assoc], fun more => ?_⟩
    rw [he, List.append_assoc, hp.decode_append, hmore]
  · cases he.symm.trans h

/-- Settles O4: the walk finds a leaf, and the leaf takes the operand bytes of its instruction. -/
theorem decodedBytesAreTheEncoding : Obligations.DecodedBytesAreTheEncoding := by
  intro bytes rest i h
  obtain ⟨hw, hb, -⟩ := decode_ok h
  exact ⟨hw, hb⟩

/-! ### Every instruction stands in the trie (R97 to R100) -/

theorem decode_path_nnBytes {path : List Byte} {f : Word → Instr} (h : OpcodePath path (.op2 f))
    (nn : Word) : decode (path ++ nnBytes nn) = .ok (f nn, []) := by
  rw [h.decode_append]
  simp [Leaf.finish, nnBytes]

theorem decode_path_notImplemented {path : List Byte} {i : Instr}
    (h : OpcodePath path (.notImplemented i)) : decode path = .ok (i, []) := by
  rw [← List.append_nil path, h.decode_append, Leaf.finish]

theorem regOfField_eq_some : ∀ f : BitVec 3, ∀ r ∈ regOfField f, f = r.field := by decide

theorem regOfField_eq_none : ∀ f : BitVec 3, regOfField f = none → f = 6#3 := by decide

theorem dtRef_marked : ∀ {op : Byte}, (Instr.niRoot op).wellFormed →
    dtRef op = .leaf (.notImplemented (.niRoot op)) := by
  simp only [Instr.wellFormed, List.contains_iff_mem, rootNotImplemented, List.forall_mem_cons]
  exact ⟨rfl, rfl, rfl, rfl, rfl, rfl, rfl, rfl, rfl, rfl, rfl, rfl, rfl, nofun⟩

/-- A byte whose fields select a terminal of `DT_DD` or `DT_FD` is one of those the spec lists. -/
theorem dtIndex_marked {op : Byte} (h : (!indexTerminals.contains op) = true)
    (load : Word → Instr) (fromMem : Reg8 → Byte → Instr) (toMem : Byte → Reg8 → Instr)
    (marked : Byte → Instr) :
    dtIndex load fromMem toMem marked op = .notImplemented (marked op) := by
  unfold dtIndex
  split_ifs with hload hx
  · subst hload
    cases h
  · split
    · next r hy hz =>
      rw [← opByte_fields op, hx, regOfField_eq_some _ r hy, regOfField_eq_none _ hz] at h
      cases r <;> cases h
    · next r hy hz =>
      rw [← opByte_fields op, hx, regOfField_eq_none _ hy, regOfField_eq_some _ r hz] at h
      cases r <;> cases h
    · rfl
  · rfl

/-- A byte whose fields select a terminal of `DT_ED` is one of those the spec lists. -/
theorem dtPorts_marked {op : Byte} (h : (!portTerminals.contains op) = true) :
    dtPorts op = .notImplemented (.niEd op) := by
  unfold dtPorts
  split_ifs with hx
  · split
    case h_1 r hy hz | h_2 r hy hz =>
      rw [← opByte_fields op, hx, regOfField_eq_some _ r hy, hz] at h
      cases r <;> cases h
    case h_3 => rfl
  · rfl

/-- By the operand fields of the opcode path; a path without one is looked up as it stands. -/
theorem decode_encode (i : Instr) (h : i.wellFormed) : decode (encode i) = .ok (i, []) := by
  cases i
  case niRoot op => exact decode_path_notImplemented (.root (dtRef_marked h))
  case niDd op | niFd op => exact decode_path_notImplemented (.sub rfl (dtIndex_marked h _ _ _ _))
  case niEd op => exact decode_path_notImplemented (.sub rfl (dtPorts_marked h))
  case ldDdNn dd nn => exact decode_path_nnBytes (path := [_]) (.root (by cases dd <;> rfl)) nn
  case jpCcNn cc nn | callCcNn cc nn =>
    exact decode_path_nnBytes (path := [_]) (.root (by cases cc <;> rfl)) nn
  case ldIndNnHl nn | ldHlIndNn nn | ldIndNnA nn | ldAIndNn nn | jpNn nn | callNn nn =>
    exact decode_path_nnBytes (path := [_]) (.root rfl) nn
  case ldIxNn nn | ldIyNn nn => exact decode_path_nnBytes (path := [_, _]) (.sub rfl rfl) nn
  case rstP t =>
    revert t
    decide
  case jrCc cc e => cases cc <;> rfl
  case retCc cc => cases cc <;> rfl
  case addHlSs p | incSs p | decSs p | popQq p | pushQq p => cases p <;> rfl
  case ldRR rd rs => cases rd <;> cases rs <;> rfl
  case incR r | decR r | ldRIndHl r | ldIndHlR r | addAR r | adcAR r | subR r | sbcAR r | andR r |
      xorR r | orR r | cpR r | inRC r | outCR r => cases r <;> rfl
  case ldRN r n | ldRIndIx r n | ldRIndIy r n => cases r <;> rfl
  case ldIndIxR d r | ldIndIyR d r => cases r <;> rfl
  all_goals rfl

/-- Settles O3: an encoding decodes to its instruction, and so it does before any other bytes. -/
theorem decodeOfEncodeIsIdentity : Obligations.DecodeOfEncodeIsIdentity := by
  intro i rest hi
  obtain ⟨-, -, hmore⟩ := decode_ok (decode_encode i hi)
  exact hmore rest

/-! ### Lengths (R90) -/

theorem length_encode (i : Instr) : 1 ≤ (encode i).length ∧ (encode i).length ≤ maxLength := by
  cases i <;> simp [encode, nnBytes, maxLength]

/-- Settles O5: the path takes at most two of the bytes, and two more are enough for any leaf. -/
theorem everyOpcodePathEndsAtAnEntry : Obligations.EveryOpcodePathEndsAtAnEntry := by
  intro bytes hlen
  obtain ⟨path, l, ops, hp, hpath, rfl⟩ | ⟨hshort, -⟩ := opcodePath_or_error bytes
  · rw [List.length_append] at hlen
    obtain ⟨i, rest, hi⟩ := l.finish_of_two_le (ops := ops) (by omega)
    exact ⟨i, rest, (hp.decode_append ops).trans hi, length_encode i⟩
  · omega

/-! ### Field codes and words of the tables (R93 to R100) -/

theorem regOfField_field (r : Reg8) : regOfField r.field = some r := by cases r <;> rfl

theorem pairSpOfField_field (p : PairSp) : pairSpOfField p.field = p := by cases p <;> rfl

theorem pairAfOfField_field (p : PairAf) : pairAfOfField p.field = p := by cases p <;> rfl

theorem condOfField_field (x : Cond) : condOfField x.field = x := by cases x <;> rfl

theorem JrCond.field_eq_add_four (x : JrCond) : x.field = x.cond.field + 4#3 := by cases x <;> rfl

/-- Settles O1: the codes are looked up one by one, and each field function undoes its own. -/
theorem fieldCodesNameRegistersPairsConditions :
    Obligations.FieldCodesNameRegistersPairsConditions :=
  ⟨rfl, rfl, rfl, rfl, regOfField_field, pairSpOfField_field, pairAfOfField_field,
    condOfField_field, JrCond.field_eq_add_four⟩

/-- Settles O2: each word is walked through the trie. -/
theorem specWordsDecode : Obligations.SpecWordsDecode := by
  unfold Obligations.SpecWordsDecode
  and_intros <;> rfl

end Sys2Proof

/-! Bus transactions and registration (spec/40_bus.md): which entry an address finds, what the Bus makes
of a device's answer, and what a registration appends. -/

namespace Sys2Proof.Machine

/-! ### Lookup (R113) -/

theorem Range.contains_iff (r : Range) (a : Word) :
    r.contains a = true ↔ r.start.toNat ≤ a.toNat ∧ a.toNat < r.stop := by
  simp [Range.contains]

theorem lookup_eq_none_iff {table : List MapEntry} {a : Word} :
    lookup table a = none ↔ ∀ k ∈ table, ¬k.range.contains a = true := by
  simp [lookup]

/-- The search from the end splits the table at the entry found: no later one contains the address. -/
theorem lookup_eq_some_iff {table : List MapEntry} {a : Word} {m : MapEntry} :
    lookup table a = some m ↔ ∃ older newer, table = older ++ m :: newer ∧
      m.range.contains a = true ∧ lookup newer a = none := by
  have hnone (l : List MapEntry) :
      lookup l.reverse a = none ↔ ∀ k ∈ l, (!k.range.contains a) = true := by
    simp [lookup_eq_none_iff]
  unfold lookup
  rw [List.find?_eq_some_iff_append]
  constructor
  · rintro ⟨hm, newer, older, ht, hn⟩
    exact ⟨older.reverse, newer.reverse, by simpa using congrArg List.reverse ht, hm,
      (hnone newer).2 hn⟩
  · rintro ⟨older, newer, rfl, hm, hn⟩
    exact ⟨hm, newer.reverse, older.reverse, by simp, (hnone _).1 (by rwa [List.reverse_reverse])⟩

theorem busRead_unrouted {s : State} {sp : Space} {a : Word} (hb : s.bus.alive = true)
    (hm : lookup (s.bus.table sp .read) a = none) : busRead sp a s = .addressFault s := by
  unfold busRead
  rw [if_pos hb, hm]

/-- Settles O38: the table is searched from its end, and an address under no entry is a fault. -/
theorem lastRegisteredEntryWins : Obligations.LastRegisteredEntryWins := by
  unfold Obligations.LastRegisteredEntryWins
  simp only [← Range.contains_iff, ← lookup_eq_none_iff]
  exact ⟨fun _ _ _ => lookup_eq_some_iff, fun s sp a hb =>
    ⟨busRead_unrouted hb, busWrite_unrouted hb⟩⟩

/-! ### What the Bus makes of an answer (R115 to R118) -/

theorem askDevice_served {s : State} {h : Nat} {d d' : Device} {q : Request} {x : Answer}
    (hd : s.devices[h]? = some d) (hx : d.serve q = (x, d')) :
    askDevice h q s = (x, { s with devices := s.devices.set h d' }) := by
  unfold askDevice
  rw [hd]
  dsimp only
  rw [hx]

/-- A scripted device gives its next answer to any request (R64). -/
theorem Device.serve_scripted {d : Device} {x : Answer} {script : List Answer}
    (ha : d.alive = true) (hk : d.kind = .scripted (x :: script)) (q : Request) :
    d.serve q = (x, { d with kind := .scripted script }) := by
  unfold Device.serve
  rw [if_pos ha, hk]
  rfl

/-- A routed read is what the device makes of the request (R115). -/
theorem busRead_routed {s : State} {sp : Space} {a : Word} {m : MapEntry} {d : Device}
    (hb : s.bus.alive = true) (hm : lookup (s.bus.table sp .read) a = some m)
    (hd : s.devices[m.dev]? = some d) {x : Answer} {d' : Device}
    (hx : d.serve (readRequest sp (m.offset a)) = (x, d')) :
    busRead sp a s = finishRead sp m.dev x { s with devices := s.devices.set m.dev d' } := by
  unfold busRead
  rw [if_pos hb, hm]
  dsimp only
  rw [askDevice_served hd hx]

section
variable (sp : Space) (h : Nat) (s : State)

theorem finishRead_readReply (b : Byte) :
    finishRead sp h (.reply (readReply sp b)) s = .ok b s := by cases sp <;> rfl

theorem finishRead_err : finishRead sp h (.reply .err) s = .addressFault s := by cases sp <;> rfl

theorem finishRead_wrongReply {r : Reply} (he : r ≠ .err) (hr : ∀ b, r ≠ readReply sp b) :
    finishRead sp h (.reply r) s = .fatal (raiseFatal (.protocolViolation (.device h)) s) := by
  cases sp <;> cases r
  case mem.memReadOk b | io.ioReadOk b => exact absurd rfl (hr b)
  case mem.err | io.err => exact absurd rfl he
  all_goals rfl

theorem finishRead_closed :
    finishRead sp h .closed s = .fatal (raiseFatal (.channelClosed (.device h)) s) := by
  cases sp <;> rfl

theorem finishRead_silent : finishRead sp h .silent s = .hang h := by cases sp <;> rfl

theorem finishWrite_writeReply :
    finishWrite sp h (.reply (writeReply sp)) s = .ok () s := by cases sp <;> rfl

theorem finishWrite_err : finishWrite sp h (.reply .err) s = .addressFault s := by cases sp <;> rfl

theorem finishWrite_wrongReply {r : Reply} (he : r ≠ .err) (hr : r ≠ writeReply sp) :
    finishWrite sp h (.reply r) s = .fatal (raiseFatal (.protocolViolation (.device h)) s) := by
  cases sp <;> cases r
  case mem.memWriteOk | io.ioWriteOk => exact absurd rfl hr
  case mem.err | io.err => exact absurd rfl he
  all_goals rfl

theorem finishWrite_closed :
    finishWrite sp h .closed s = .fatal (raiseFatal (.channelClosed (.device h)) s) := by
  cases sp <;> rfl

theorem finishWrite_silent : finishWrite sp h .silent s = .hang h := by cases sp <;> rfl

end

/-- Settles O40: a routed access is its device's next answer, and each kind of answer is mapped. -/
theorem deviceAnswersAreMapped : Obligations.DeviceAnswersAreMapped := by
  intro s sp a m d x script hb hd ha hk u violation gone
  refine ⟨fun hm => ?_, fun hm v => ?_⟩
  · rw [busRead_routed hb hm hd (Device.serve_scripted ha hk _)]
    refine ⟨?reply, ?err, ?wrongReply, ?closed, ?silent⟩
    case reply => rintro b rfl; exact finishRead_readReply ..
    case err => rintro rfl; exact finishRead_err ..
    case wrongReply => rintro r rfl he hr; exact finishRead_wrongReply _ _ _ he hr
    case closed => rintro rfl; exact finishRead_closed ..
    case silent => rintro rfl; exact finishRead_silent ..
  · rw [busWrite_routed hb hm hd (Device.serve_scripted ha hk _)]
    refine ⟨?reply, ?err, ?wrongReply, ?closed, ?silent⟩
    case reply => rintro rfl; exact finishWrite_writeReply ..
    case err => rintro rfl; exact finishWrite_err ..
    case wrongReply => rintro r rfl he hr; exact finishWrite_wrongReply _ _ _ he hr
    case closed => rintro rfl; exact finishWrite_closed ..
    case silent => rintro rfl; exact finishWrite_silent ..

/-! ### Registration (R110, R111) -/

/-- A device that answers with its ranges is entered in the tables and recorded as registered. -/
theorem busRegister_ranges {s : State} {h : Nat} {d d' : Device} {g : RangesRet}
    (hb : s.bus.alive = true) (hd : s.devices[h]? = some d)
    (hx : d.serve .getRanges = (.reply (.rangesRet g), d')) :
    busRegister h s = .ok () { s with
      bus := s.bus.add h g
      devices := s.devices.set h { d' with registered := true } } := by
  have hlt : h < s.devices.length := (List.getElem?_eq_some_iff.1 hd).1
  have hd' : (s.devices.set h d')[h]? = some d' := List.getElem?_set_self hlt
  unfold busRegister
  rw [if_pos hb, askDevice_served hd hx]
  dsimp only
  rw [modifyDevices_of_getElem? _ h d' _ hd', List.set_set]

theorem busRegister_dead {s : State} {h : Nat} {d : Device} (hb : s.bus.alive = true)
    (hd : s.devices[h]? = some d) (ha : d.alive = false) :
    busRegister h s = .fatal (raiseFatal (.channelClosed (.device h)) s) := by
  unfold busRegister
  rw [if_pos hb, askDevice_dead hd ha]

theorem busRegister_wrongReply {s : State} {h : Nat} {d d' : Device} {r : Reply}
    (hb : s.bus.alive = true) (hd : s.devices[h]? = some d)
    (hx : d.serve .getRanges = (.reply r, d')) (hr : ∀ g, r ≠ .rangesRet g) :
    busRegister h s = .fatal (raiseFatal (.protocolViolation (.device h))
      { s with devices := s.devices.set h d' }) := by
  unfold busRegister
  rw [if_pos hb, askDevice_served hd hx]
  cases r
  case rangesRet g => exact absurd rfl (hr g)
  all_goals rfl

/-- Settles O39: what `busRegister` does is settled by the device's answer to `GetRanges`. -/
theorem registrationAppendsDeclaredRanges : Obligations.RegistrationAppendsDeclaredRanges := by
  intro s h d hb hd
  refine ⟨fun ha hk => ?_, fun g script ha hk => ?_, fun ha => ?_, fun r script ha hk hr => ?_⟩
  · exact busRegister_ranges hb hd (Device.serve_getRanges ha hk)
  · exact busRegister_ranges hb hd (Device.serve_scripted ha hk .getRanges)
  · exact busRegister_dead hb hd ha
  · exact busRegister_wrongReply hb hd (Device.serve_scripted ha hk .getRanges) hr

end Sys2Proof.Machine

/-! The Clock (spec/41_clock.md): what an iteration leaves in the queues, how it ends on Stop, and who notices
that a peer has terminated. -/

namespace Sys2Proof.Machine

/-! ### One action of the Clock per phase (R131, R138) -/

/-- The Clock has counted the iteration it begins (R131). -/
def State.iterationBegun (s : State) : State :=
  { s with clock := { s.clock with
      ticks := s.clock.ticks + 1
      phase := .fanOut s.clock.subsystems } }

/-- The Clock has taken a `Stop` from its control queue, which now holds `rest` (R138). -/
def State.stopTaken (s : State) (rest : List ControlMsg) : State :=
  { s with clock := { s.clock with
      control := rest
      phase := .stopOut s.clock.subsystems } }

section
variable {s : State}

theorem clockStep_top (h : s.clock.phase = .top) : clockStep s = .next s.iterationBegun := by
  unfold clockStep; rw [h]; rfl

theorem clockStep_fanOut_nil (h : s.clock.phase = .fanOut []) :
    clockStep s = .next (s.withClockPhase .poll) := by
  unfold clockStep; rw [h]

theorem clockStep_poll_nil (h : s.clock.phase = .poll) (hc : s.clock.control = []) :
    clockStep s = .next (s.withClockPhase .top) := by
  unfold clockStep; rw [h]; dsimp only; rw [hc]

theorem clockStep_poll_stop {rest : List ControlMsg} (h : s.clock.phase = .poll)
    (hc : s.clock.control = .stop :: rest) : clockStep s = .next (s.stopTaken rest) := by
  unfold clockStep; rw [h]; dsimp only; rw [hc]; rfl

theorem clockStep_stopOut_nil (h : s.clock.phase = .stopOut []) :
    clockStep s = .next (settle (s.withClockPhase (.grace s.conf.stopGrace))) := by
  unfold clockStep; rw [h]

theorem clockStep_grace_zero (h : s.clock.phase = .grace 0) :
    clockStep s = .next (s.withClockPhase .terminated) := by
  unfold clockStep; rw [h]

theorem clockStep_grace_succ {n : Nat} (h : s.clock.phase = .grace (n + 1)) :
    clockStep s = .next (s.withClockPhase (.grace n)) := by
  unfold clockStep; rw [h]

end

/-! ### The queues do not depend on the Clock or the status -/

theorem State.closed_withClock (s : State) (c : Clock) (x : SubId) :
    State.closed { s with clock := c } x = s.closed x := by cases x <;> rfl

theorem State.queueOf_withClock (s : State) (c : Clock) (x : SubId) :
    State.queueOf { s with clock := c } x = s.queueOf x := by cases x <;> rfl

theorem clock_settle (s : State) : (settle s).clock = s.clock := by
  rcases settle_cases s with e | e <;> rw [e]

theorem queueOf_settle (s : State) (x : SubId) : (settle s).queueOf x = s.queueOf x := by
  rcases settle_cases s with e | e <;> rw [e]
  cases x <;> rfl

/-! ### Iterations (R131 to R134) -/

/-- The Clock is at the top of an iteration, has no `Stop` to see, and no subsystem is attached twice, has
a divisor of 0, or has closed its queue. -/
structure State.Iterates (s : State) : Prop where
  top : s.clock.phase = .top
  noStop : s.clock.control = []
  nodup : (s.clock.subsystems.map Prod.fst).Nodup
  served : ∀ p ∈ s.clock.subsystems, 1 ≤ p.2 ∧ s.closed p.1 = false

/-- The Ticks of a subsystem with divisor `d` in the `n` iterations after the first `k` (R134). -/
def ticksSent (d k n : Nat) : List ClockMsg := List.replicate ((k + n) / d - k / d) .tick

theorem ticksSent_add (d k m n : Nat) :
    ticksSent d k (m + n) = ticksSent d k m ++ ticksSent d (k + m) n := by
  have hm : k / d ≤ (k + m) / d := Nat.div_le_div_right (Nat.le_add_right k m)
  have hn : (k + m) / d ≤ (k + m + n) / d := Nat.div_le_div_right (Nat.le_add_right _ n)
  unfold ticksSent
  rw [← List.replicate_add, ← Nat.add_assoc]
  congr 1
  omega

/-- In one iteration the division test sends the Tick that is due. -/
theorem sent_iterationBegun (s : State) (d : Nat) :
    s.iterationBegun.sent false d = ticksSent d s.clock.ticks 1 := by
  have hsent : s.iterationBegun.sent false d =
      if (s.clock.ticks + 1) % d = 0 then [.tick] else [] := rfl
  rw [hsent, ticksSent, Nat.succ_div, Nat.add_sub_cancel_left]
  by_cases hdue : d ∣ s.clock.ticks + 1
  · rw [if_pos (Nat.mod_eq_zero_of_dvd hdue), if_pos hdue]
    rfl
  · rw [if_neg (mt Nat.dvd_of_mod_eq_zero hdue), if_neg hdue]
    rfl

/-- `t` is `s` after `n` iterations, as far as the Clock and the queues go. -/
structure State.IteratedTo (s t : State) (n : Nat) : Prop where
  clock : t.clock = { s.clock with ticks := s.clock.ticks + n }
  closed : ∀ x, t.closed x = s.closed x
  queues : ∀ p ∈ s.clock.subsystems, t.queueOf p.1 = s.queueOf p.1 ++ ticksSent p.2 s.clock.ticks n

theorem State.IteratedTo.refl (s : State) : s.IteratedTo s 0 where
  clock := rfl
  closed := fun _ => rfl
  queues := fun p _ => by simp [ticksSent]

theorem State.IteratedTo.trans {s t u : State} {m n : Nat} (ht : s.IteratedTo t m)
    (hu : t.IteratedTo u n) : s.IteratedTo u (m + n) where
  clock := by rw [hu.clock, ht.clock, Nat.add_assoc]
  closed := fun x => (hu.closed x).trans (ht.closed x)
  queues := fun p hp => by
    have hq := hu.queues p (by rw [ht.clock]; exact hp)
    rw [hq, ht.queues p hp, ht.clock, ticksSent_add, List.append_assoc]

theorem State.Iterates.of_iteratedTo {s t : State} {n : Nat} (h : s.Iterates)
    (ht : s.IteratedTo t n) : t.Iterates where
  top := by rw [ht.clock]; exact h.top
  noStop := by rw [ht.clock]; exact h.noStop
  nodup := by rw [ht.clock]; exact h.nodup
  served := by
    simp only [ht.clock, ht.closed]
    exact h.served

/-- One iteration: the count, the fan-out, its end, and a poll that finds nothing. -/
theorem runFor_iteration {s : State} (h : s.Iterates) :
    ∃ t, runFor clockStep (s.clock.subsystems.length + 3) s = .next t ∧ s.IteratedTo t 1 := by
  obtain ⟨u, hrun, hclock, hclosed, -, -, hqueues⟩ := fanOut_runs false s.clock.subsystems
    s.iterationBegun rfl h.nodup fun p hp =>
      ⟨fun _ => (h.served p hp).1, (State.closed_withClock s _ p.1).trans (h.served p hp).2⟩
  have hfanOut : u.clock.phase = .fanOut [] := by rw [hclock]; rfl
  have hcontrol : (u.withClockPhase .poll).clock.control = [] :=
    (congrArg Clock.control hclock).trans h.noStop
  refine ⟨(u.withClockPhase .poll).withClockPhase .top, ?_, ?_, fun x => ?_, fun p hp => ?_⟩
  · rw [runFor_succ (clockStep_top h.top), runFor_add clockStep _ 2 _ u hrun,
      runFor_succ (clockStep_fanOut_nil hfanOut), runFor_succ (clockStep_poll_nil rfl hcontrol)]
    rfl
  · simp only [State.withClockPhase, hclock, State.iterationBegun, h.top]
  · exact (State.closed_withClock u _ x).trans ((hclosed x).trans (State.closed_withClock s _ x))
  · rw [State.queueOf_withClockPhase, State.queueOf_withClockPhase, hqueues p hp,
      sent_iterationBegun, State.iterationBegun, State.queueOf_withClock]

theorem runFor_iterations {s : State} (h : s.Iterates) (n : Nat) :
    ∃ t, runFor clockStep ((s.clock.subsystems.length + 3) * n) s = .next t ∧
      s.IteratedTo t n := by
  induction n with
  | zero => exact ⟨s, rfl, .refl s⟩
  | succ n ih =>
    obtain ⟨t, hrun, ht⟩ := ih
    obtain ⟨u, hrun', hu⟩ := runFor_iteration (h.of_iteratedTo ht)
    refine ⟨u, ?_, ht.trans hu⟩
    rw [Nat.mul_succ, runFor_add clockStep _ _ s t hrun, ← hrun', ht.clock]

/-- Settles O35: by induction on the iterations, each of which sends the Ticks that are due. -/
theorem ticksAreDividedByTheDivisor : Obligations.TicksAreDividedByTheDivisor := by
  intro s n htop hstop hnodup hserved
  have h : s.Iterates := ⟨htop, hstop, hnodup, hserved⟩
  obtain ⟨t, hrun, ht⟩ := runFor_iterations h n
  refine ⟨t, hrun, congrArg Clock.ticks ht.clock, (h.of_iteratedTo ht).top, ht.queues,
    fun h0 p hp => ?_⟩
  simpa [ticksSent, h0] using ht.queues p hp

/-! ### Stop (R138) -/

/-- The grace period runs out, and the Clock terminates. -/
theorem runFor_grace (n : Nat) {s : State} (h : s.clock.phase = .grace n) :
    runFor clockStep (n + 1) s = .next (s.withClockPhase .terminated) := by
  induction n generalizing s with
  | zero => exact runFor_succ (clockStep_grace_zero h)
  | succ n ih =>
    rw [runFor_succ (clockStep_grace_succ h)]
    exact ih rfl

/-- Settles O36: the Clock takes the `Stop`, fans it out as it does Ticks, and counts down its grace. -/
theorem stopIsSentToEverySubsystem : Obligations.StopIsSentToEverySubsystem := by
  intro s rest hpoll hstop hnodup hopen
  obtain ⟨u, hrun, hclock, -, hconf, -, hqueues⟩ := fanOut_runs true s.clock.subsystems
    (s.stopTaken rest) rfl hnodup fun p hp =>
      ⟨nofun, (State.closed_withClock s _ p.1).trans (hopen p hp)⟩
  have hstopOut : u.clock.phase = .stopOut [] := by rw [hclock]; rfl
  have hlast : clockStep u = .next (settle (u.withClockPhase (.grace s.conf.stopGrace))) := by
    rw [clockStep_stopOut_nil hstopOut, hconf]
    rfl
  have hphase : (settle (u.withClockPhase (.grace s.conf.stopGrace))).clock.phase =
      .grace s.conf.stopGrace := by rw [clock_settle]; rfl
  refine ⟨_, ?_, hphase, ?_, fun p hp => ?_, runFor_grace _ hphase⟩
  · rw [runFor_succ (clockStep_poll_stop hpoll hstop), runFor_add clockStep _ 1 _ u hrun,
      runFor_succ hlast]
    rfl
  · rw [clock_settle, State.withClockPhase_clock_ticks, hclock]
    rfl
  · rw [queueOf_settle, State.queueOf_withClockPhase, hqueues p hp, State.stopTaken,
      State.queueOf_withClock]
    rfl

/-! ### Peers that have terminated (R141, R264) -/

theorem busRead_busDead {s : State} (hb : s.bus.alive = false) (sp : Space) (a : Word) :
    busRead sp a s = .fatal (raiseFatal (.channelClosed .bus) s) := by
  unfold busRead; simp only [hb, Bool.false_eq_true, if_false]

theorem busWrite_busDead {s : State} (hb : s.bus.alive = false) (sp : Space) (a : Word) (v : Byte) :
    busWrite sp a v s = .fatal (raiseFatal (.channelClosed .bus) s) := by
  unfold busWrite; simp only [hb, Bool.false_eq_true, if_false]

section
variable {s : State} {sp : Space} {a : Word} {m : MapEntry} {d : Device} (hb : s.bus.alive = true)
  (hd : s.devices[m.dev]? = some d) (ha : d.alive = false)
include hb hd ha

theorem busRead_deviceDead (hm : lookup (s.bus.table sp .read) a = some m) :
    busRead sp a s = .fatal (raiseFatal (.channelClosed (.device m.dev)) s) := by
  unfold busRead
  rw [if_pos hb, hm]
  dsimp only
  rw [askDevice_dead hd ha, finishRead_closed]

theorem busWrite_deviceDead (hm : lookup (s.bus.table sp .write) a = some m) (v : Byte) :
    busWrite sp a v s = .fatal (raiseFatal (.channelClosed (.device m.dev)) s) := by
  unfold busWrite
  rw [if_pos hb, hm]
  dsimp only
  rw [askDevice_dead hd ha, finishWrite_closed]

end

theorem sendTo_closed {s : State} {sub : SubId} (h : s.closed sub = true) (msg : ClockMsg) :
    sendTo sub msg s = raiseFatal (.channelClosed sub.peer) s := if_pos h

theorem cpuStep_queue_nil (dt : DispatchTrie) {s : State} (h : s.cpu.queue = []) :
    cpuStep dt s = .next (raiseFatal (.channelClosed .clock) s) := by
  unfold cpuStep; rw [h]

theorem deviceStep_inbox_nil {s : State} {n : Nat} {d : Device} (hd : s.devices[n]? = some d)
    (h : d.inbox = []) : deviceStep n s = .next (raiseFatal (.channelClosed .clock) s) := by
  unfold deviceStep; rw [hd]; dsimp only; rw [h]

/-- A CPU that waits with an empty queue notices that the Clock is gone. -/
theorem step_cpuWaitsForDeadClock {s : State} (hrun : s.status = .running)
    (hidle : s.cpu.phase = .idle) (hq : s.cpu.queue = []) (hdead : s.clock.phase = .dead)
    (hsched : s.sched = []) : step s = .next (raiseFatal (.channelClosed .clock) s) := by
  have hself : { s with sched := [] } = s := by rw [← hsched]
  unfold step
  rw [step_cpu dtReference hrun hidle (.inr hdead) (.inr ⟨hsched, rfl⟩), hself,
    cpuStep_queue_nil _ hq]

section
variable {s : State} (hq : s.cpu.queue = []) (hin : ∀ d ∈ s.devices, d.inbox = [])
  (hinputs : s.inputs = []) (hdead : s.clock.phase = .dead)
include hq hin hinputs hdead

/-- With no message and no input left and the Clock gone, whoever can still move moves only to notice. -/
theorem act_ready_of_clockDead (dt : DispatchTrie) {x : Agent} (hx : s.ready x = true) :
    act dt x s = .next (raiseFatal (.channelClosed .clock) s) := by
  cases x with
  | host => simp [State.ready, State.hostReady, hinputs] at hx
  | clock => simp [State.ready, State.clockReady, hdead] at hx
  | cpu => exact cpuStep_queue_nil dt hq
  | device n =>
    cases hd : s.devices[n]? with
    | none => simp [State.ready, State.deviceReady, hd] at hx
    | some d => exact deviceStep_inbox_nil hd (hin d (List.mem_of_getElem? hd))

/-- A running machine that waits for nothing else ends: by whoever can still notice, or, where nobody can
move, by standing still. -/
theorem step_machineWaitsForDeadClock (hrun : s.status = .running) (hsched : s.sched = []) :
    step s = .next (raiseFatal (.channelClosed .clock) s) := by
  have hmove : step s = moveOn dtReference s := by unfold step stepOf; rw [hrun]
  rw [hmove]
  unfold moveOn
  rw [hsched]
  dsimp only
  cases hp : s.pick with
  | some x =>
    exact act_ready_of_clockDead hq hin hinputs hdead dtReference (by simpa using List.find?_some hp)
  | none =>
    have hmissing : s.missingPeer = some .clock := if_pos hdead
    unfold standStill
    rw [if_pos hrun, hmissing]

end

/-- Settles O41: each peer's absence is met where it is next needed. -/
theorem deadPeersAreChannelClosed : Obligations.DeadPeersAreChannelClosed :=
  ⟨fun _ sp a hb => ⟨busRead_busDead hb sp a, busWrite_busDead hb sp a⟩,
    fun _ _ _ _ _ hb hd ha => ⟨busRead_deviceDead hb hd ha, busWrite_deviceDead hb hd ha⟩,
    fun _ _ msg h => sendTo_closed h msg,
    fun _ hrun hidle hq hdead hsched => step_cpuWaitsForDeadClock hrun hidle hq hdead hsched,
    fun _ hrun hq hin hinputs hdead hsched =>
      step_machineWaitsForDeadClock hq hin hinputs hdead hrun hsched⟩

end Sys2Proof.Machine

/-! The CPU cycle (spec/42_cpu_cycle.md): what a step of the machine is when the CPU takes a message, where
the fetch of an instruction ends, and what a stopped CPU keeps. -/

namespace Sys2Proof.Machine

/-! ### Register loads (R170, R181, R182) -/

/-- The shape of an instruction that writes one 8-bit register. -/
theorem runsPuttingReg {i : Instr} {code : List Byte} {cost : Nat} (r : Reg8) (v : State → Byte)
    (hcode : encode i = code) (hpos : 1 ≤ cost)
    (hexec : ∀ s, exec i s = finish cost (s.putReg r (v s))) :
    RunsOnRegisters i code (fun _ => cost) [r.ent] [] fun s t => t.r8 r.ent = v s :=
  runsOnRegisters (fun s => s.putReg r (v s)) hcode hexec (fun _ => hpos) (fun _ => rfl)
    (fun s => (RegsKept.refl _ _ s).put8 _ _ (List.mem_singleton_self _))
    fun s _ h => (congrFun (r8_of_regs h) _).trans (State.r8_put8_self s _ _)

/-- Settles O6: each of the three ends after one register write or none. -/
theorem nopAndRegisterLoads : Obligations.NopAndRegisterLoads :=
  ⟨runsOnRegisters id rfl (fun _ => rfl) (fun _ => Nat.succ_pos _) (fun _ => rfl)
      (fun s => .refl _ _ s) fun _ _ h => h,
    fun rd rs => runsPuttingReg rd (fun s => s.reg rs) rfl (Nat.succ_pos _) fun _ => rfl,
    fun r n => runsPuttingReg r (fun _ => n) rfl (Nat.succ_pos _) fun _ => rfl⟩

/-! ### The Tick (R151 to R158, R166) -/

/-- Settles O31: the count goes down, and nothing is fetched. -/
theorem owedTickOnlyCountsDown : Obligations.OwedTickOnlyCountsDown := by
  intro s rest sched' htick hcyc
  unfold step
  rw [step_tick dtReference htick]
  exact if_pos hcyc

/-- The handler of an instruction fetched at `PC` starts as `State.handlerStarts` says. -/
theorem enterHandler_pc (i : Instr) (n : Nat) (u : State) :
    enterHandler i (u.r16 .pc) n u = u.handlerStarts i n := by
  unfold enterHandler State.handlerStarts
  split <;> rfl

section
variable {s : State} {rest : List ClockMsg} {sched' : List Agent}
  (htick : s.cpuTakesTick rest sched') (hcyc : s.cpu.cyc = 0)
include htick hcyc

/-- A Tick with nothing owed is the fetch of an instruction and then its meaning. -/
theorem step_fetch : step s = fetchInstr (s.r16 .pc) (s.fetchStarts rest sched') fun i n u =>
    exec i (enterHandler i (s.r16 .pc) n u) := by
  have hrun : cpuTick dtReference (s.tickTaken rest sched') =
      runInstruction dtReference (s.tickTaken rest sched') := if_neg (not_not_intro hcyc)
  unfold step
  rw [step_tick dtReference htick, hrun, runInstruction_reference]
  rfl

variable {u : State} {bytes : List Byte}
  (hreads : readsInOrder (s.r16 .pc) bytes (s.fetchStarts rest sched') u)
include hreads

/-- The bytes read are an instruction: the step is its meaning. -/
theorem step_fetched {i : Instr} (hi : decode bytes = .ok (i, [])) :
    step s = exec i (u.handlerStarts i bytes.length) := by
  have hpc : u.r16 .pc = s.r16 .pc := by
    unfold State.r16
    rw [readsInOrder_cpu hreads]
    rfl
  rw [step_fetch htick hcyc, (fetchInstr_reads _ _ _ _ _ hreads).1 i hi, ← hpc, enterHandler_pc]

/-- The bytes read are none: the step ends as the next read does. -/
theorem step_endsFetch {e : DecodeError} (he : decode bytes = .error e) :
    EndsFetch (s.r16 .pc + BitVec.ofNat 16 bytes.length) u (step s) := by
  rw [step_fetch htick hcyc]
  exact (fetchInstr_reads _ _ _ _ _ hreads).2 e he

end

/-- Settles O30: the walk along the tables reads a byte only where those before it led. -/
theorem fetchReadsOneByteAtATime : Obligations.FetchReadsOneByteAtATime :=
  fun _ _ _ _ _ htick hcyc hreads =>
    ⟨fun _ hi => step_fetched htick hcyc hreads hi, fun _ he => step_endsFetch htick hcyc hreads he⟩

theorem State.holds_congr {s t : State} (h : t.peek = s.peek) (a : Word) (bytes : List Byte) :
    t.holds a bytes = s.holds a bytes := by
  induction bytes generalizing a with
  | nil => rfl
  | cons b bytes ih => simp only [State.holds, h, ih]

/-- Settles O29: on a settled machine the bytes memory holds are the bytes read, with no change. -/
theorem stepRunsTheDecodedInstruction : Obligations.StepRunsTheDecodedInstruction := by
  intro s rest sched' bytes i htick hcyc hs hbytes hi
  let u := s.fetchStarts rest sched'
  have hu : u.holds (s.r16 .pc) bytes :=
    (State.holds_congr (State.peek_congr (s := s) (t := u) rfl rfl) _ bytes).trans hbytes
  exact step_fetched htick hcyc (readsInOrder_of_holds (s := u) hs _ bytes hu) hi

/-! ### Marked entries (R155, R263) -/

/-- The path a marked entry records is its encoding. -/
theorem exec_marked {i : Instr} (h : i.isNotImplemented = true) (s : State) :
    exec i s = notImplementedPath (encode i) s := by
  cases i with
  | niRoot | niDd | niFd | niEd => rfl
  | _ => cases h

/-- Settles O28: the decoder has taken exactly the path, and no handler has started. -/
theorem markedEntriesAbortTheMachine : Obligations.MarkedEntriesAbortTheMachine := by
  refine ⟨fun _ _ => ⟨rfl, rfl, rfl, rfl⟩, fun s rest sched' path i htick hcyc hs hpath hi hm => ?_⟩
  have hcode : path = encode i := by
    simpa using (decodedBytesAreTheEncoding path [] i hi).2
  have hstart : (s.fetchStarts rest sched').handlerStarts i path.length =
      s.fetchStarts rest sched' := if_pos hm
  rw [stepRunsTheDecodedInstruction s rest sched' path i htick hcyc hs hpath hi, hstart,
    exec_marked hm, ← hcode]
  rfl

/-! ### Stop (R162) -/

/-- The CPU has stopped, with the registers and the owed Ticks of `c`. -/
def State.StoppedWith (c : Cpu) (t : State) : Prop :=
  t.cpu.phase = .stopped ∧ t.cpu.regs = c.regs ∧ t.cpu.cyc = c.cyc

section
variable {c : Cpu}

/-- A Bus transaction reaches devices alone. -/
theorem Access.Within.stoppedWith {α : Type} {x : Access α} {s : State} (hx : x.Within s)
    (h : s.StoppedWith c) : x.Keeps (State.StoppedWith c) := by
  cases x with
  | hang n => trivial
  | ok v u | addressFault u | fatal u =>
    simp only [Access.Within] at hx
    have hcpu : u.cpu = s.cpu := by rw [hx]
    show u.StoppedWith c
    unfold State.StoppedWith
    rw [hcpu]
    exact h

theorem busRegister_stoppedWith {s : State} (n : Nat) (h : s.StoppedWith c) :
    (busRegister n s).Keeps (State.StoppedWith c) := by
  have hu : (askDevice n .getRanges s).2.StoppedWith c := by
    rw [askDevice_snd]
    exact h
  unfold busRegister
  split
  · split <;> rename_i heq <;> rw [heq] at hu
    · exact hu
    · exact hu
    · exact hu
    · trivial
  · exact h

theorem answerAccess_stoppedWith {α : Type} {x : Access α} (f : α → HostReply)
    (hx : x.Keeps (State.StoppedWith c)) : (answerAccess x f).Keeps (State.StoppedWith c) := by
  cases x with
  | ok | addressFault | fatal => exact keeps_next hx
  | hang n => exact keeps_fault _

/-- A CPU that has taken its Stop has ended already (R264). -/
theorem terminatePeer_stoppedWith {s : State} (p : Peer) (h : s.StoppedWith c) :
    (terminatePeer p s).StoppedWith c := by
  cases p with
  | cpu => exact ⟨if_pos h.1, h.2⟩
  | bus | clock | device => exact h

theorem hostStep_stoppedWith {s : State} (h : s.StoppedWith c) :
    (hostStep s).Keeps (State.StoppedWith c) := by
  unfold hostStep
  split
  · exact keeps_next h
  · rename_i x rest _
    have hi : { s with inputs := rest }.StoppedWith c := h
    cases x with
    | register n =>
      refine whileBooting_keeps fun _ => ?_
      split
      · exact keeps_refused _
      · exact answerAccess_stoppedWith _ (busRegister_stoppedWith n hi)
    | read sp a =>
      exact whileBooting_keeps fun _ =>
        answerAccess_stoppedWith _ ((busRead_within sp a _).stoppedWith hi)
    | write sp a v =>
      exact whileBooting_keeps fun _ =>
        answerAccess_stoppedWith _ ((busWrite_within sp a v _).stoppedWith hi)
    | attach sub n =>
      refine whileBooting_keeps fun _ => ?_
      split
      · exact keeps_refused _
      · exact keeps_next hi
    | start =>
      refine whileBooting_keeps fun _ => ?_
      split
      · exact keeps_next hi
      · exact keeps_refused _
    | stop n => exact keeps_next hi
    | terminate p => exact keeps_next (terminatePeer_stoppedWith p hi)

theorem settle_stoppedWith {s : State} (h : s.StoppedWith c) : (settle s).StoppedWith c := by
  obtain e | e := settle_cases s <;> rw [e] <;> exact h

/-- A message goes into a queue. -/
theorem sendTo_stoppedWith {s : State} (sub : SubId) (m : ClockMsg) (h : s.StoppedWith c) :
    (sendTo sub m s).StoppedWith c := by
  unfold sendTo
  split
  · exact h
  · cases sub <;> exact h

theorem clockStep_stoppedWith {s : State} (h : s.StoppedWith c) :
    (clockStep s).Keeps (State.StoppedWith c) := by
  have hph : ∀ p, (s.withClockPhase p).StoppedWith c := fun _ => h
  unfold clockStep
  split
  · exact keeps_next h
  · exact keeps_next (hph _)
  · split
    · exact keeps_refused _
    · split
      · exact keeps_next (sendTo_stoppedWith _ _ (hph _))
      · exact keeps_next (hph _)
  · split
    · exact keeps_next (hph _)
    · exact keeps_next h
  · exact keeps_next (settle_stoppedWith (hph _))
  · exact keeps_next (sendTo_stoppedWith _ _ (hph _))
  · exact keeps_next (hph _)
  · exact keeps_next (hph _)
  · exact keeps_next h
  · exact keeps_next h

theorem deviceStep_stoppedWith {s : State} (n : Nat) (h : s.StoppedWith c) :
    (deviceStep n s).Keeps (State.StoppedWith c) := by
  unfold deviceStep
  split
  · exact keeps_next h
  · split
    · exact keeps_next h
    · exact keeps_next h
    · exact keeps_next (settle_stoppedWith (s := { s with devices := _ }) h)

/-- A stopped CPU has left its loop (R162): it never moves again. -/
theorem ready_cpu_of_stoppedWith {s : State} (h : s.StoppedWith c) : s.ready .cpu = false := by
  simp [State.ready, State.cpuReady, h.1]

theorem act_stoppedWith {s : State} {x : Agent} (hx : s.ready x = true) (h : s.StoppedWith c) :
    (act dtReference x s).Keeps (State.StoppedWith c) := by
  cases x with
  | host => exact hostStep_stoppedWith h
  | cpu => rw [ready_cpu_of_stoppedWith h] at hx; cases hx
  | device n => exact deviceStep_stoppedWith n h
  | clock => exact clockStep_stoppedWith h

theorem standStill_stoppedWith {s : State} (h : s.StoppedWith c) :
    (standStill s).Keeps (State.StoppedWith c) := by
  unfold standStill
  split
  · split
    · exact keeps_next h
    · split
      · exact keeps_next h
      · exact keeps_fault _
  · exact keeps_next h

theorem moveOn_stoppedWith {s : State} (h : s.StoppedWith c) :
    (moveOn dtReference s).Keeps (State.StoppedWith c) := by
  unfold moveOn
  split
  · rename_i x rest _
    split
    · rename_i hx
      exact act_stoppedWith ((ready_withSched s rest x).trans hx) h
    · exact keeps_next h
  · split
    · rename_i x hx
      exact act_stoppedWith (by simpa using List.find?_some hx) h
    · exact standStill_stoppedWith h

theorem step_stoppedWith {s : State} (h : s.StoppedWith c) :
    Result.Keeps (State.StoppedWith c) (step s) := by
  unfold step stepOf
  split
  · exact keeps_next h
  · rename_i hst
    obtain ⟨p, hp⟩ := windDown_of_stopped hst
    rw [hp]
    exact keeps_next h
  · exact moveOn_stoppedWith h
  · exact moveOn_stoppedWith h

end

/-- Taking Stop is `cpuStop`. -/
theorem cpuStep_queue_stop (dt : DispatchTrie) {s : State} {rest : List ClockMsg}
    (h : s.cpu.queue = .stop :: rest) : cpuStep dt s = .next (cpuStop (s.withQueue rest)) := by
  unfold cpuStep
  rw [h]

/-- Settles O32: Stop changes the phase, and of a CPU in that phase no agent changes more than the
queue. -/
theorem stopEndsTheLoop : Obligations.StopEndsTheLoop := by
  refine ⟨fun s rest sched' hrun hidle hq hsched => ?_, fun s t hs ht => ?_⟩
  · have hstep : step s = .next (cpuStop ({ s with sched := sched' }.withQueue rest)) := by
      unfold step
      rw [step_cpu dtReference hrun hidle (.inl (by simp [hq])) hsched]
      exact cpuStep_queue_stop dtReference hq
    refine ⟨_, hstep, ?_⟩
    unfold cpuStop
    generalize hu : ({ s with sched := sched' }.withQueue rest) = u
    obtain e | e := settle_cases { u with cpu := { u.cpu with phase := .stopped } } <;>
      rw [e, ← hu] <;> exact ⟨rfl, rfl, rfl, rfl⟩
  · exact step_stoppedWith ⟨hs, rfl, rfl⟩ t ht

end Sys2Proof.Machine

/-! What an instruction costs, that every handler runs to its end where devices answer, and what a handler can
see (R159, R161, R300). -/

namespace Sys2Proof.Machine

/-! ### A handler runs to its end (R159, R161) -/

/-- A store beforehand does not show outside the devices. -/
theorem Completed.of_afterStore {s t : State} {cost : Nat} {sp : Space} {a : Word} {v : Byte}
    (h : Completed cost (s.afterStore sp a v) t) : Completed cost s t := by
  rw [State.afterStore_eq] at h
  exact ⟨h.status, h.conf, h.bus, h.clock, h.inputs, h.hostOut, h.sched, h.queue, h.snapshot,
    h.phase, h.cyc⟩

/-- Where devices answer, a behaviour reaches its end, with or without address faults (R267). -/
theorem Behaviour.run_settled (b : Behaviour) {s : State} (hs : s.settled) :
    ∃ (t : State) (cost : Nat), b.run s = .next t ∧ Completed cost s t ∧ 1 ≤ cost := by
  induction b generalizing s with
  | ends regs c =>
    obtain ⟨t, ht, hC, -, -⟩ := completed_finish (s := s) (u := s.withRegs regs) (c + 1)
      (Nat.succ_pos c) rfl
    exact ⟨t, c + 1, ht, hC, Nat.succ_pos c⟩
  | reads sp a next ih =>
    unfold Behaviour.run
    rw [busRead_settled hs]
    cases s.peek sp a with
    | some v => exact ih _ hs
    | none => exact ih _ hs
  | writes sp a v next ih =>
    have hrest : ∀ done, ∃ (t : State) (cost : Nat), (next done).run (s.afterStore sp a v) = .next t ∧
        Completed cost s t ∧ 1 ≤ cost := fun done =>
      let ⟨t, cost, ht, hC, hpos⟩ := ih done (State.settled_afterStore hs sp a v)
      ⟨t, cost, ht, hC.of_afterStore, hpos⟩
    unfold Behaviour.run
    obtain e | e := busWrite_settled hs sp a v <;> rw [e]
    · exact hrest true
    · exact hrest false

/-! ### Costs (R300) -/

/-- Where it leads to a next state, the result owes `cost` less one. -/
def Result.Costs (cost : Nat) (r : Result) : Prop := r.Keeps fun t => t.cpu.cyc + 1 = cost

section
variable {s : State} {cost : Nat}

theorem costs_finish (u : State) (hc : 1 ≤ cost) : (finish cost u).Costs cost :=
  keeps_next (Nat.sub_add_cancel hc)

theorem costs_of_completed {t : State} {r : Result} (hr : r = .next t) (h : Completed cost s t) :
    r.Costs cost := by
  rw [hr]
  exact keeps_next h.cyc

theorem costs_ite {p : Prop} [Decidable p] {m n : Nat} {r q : Result} (hr : p → r.Costs m)
    (hq : ¬p → q.Costs n) : Result.Costs (if p then m else n) (if p then r else q) := by
  split
  · exact hr ‹_›
  · exact hq ‹_›

variable (hs : s.settled)
include hs

theorem costs_read {sp : Space} {a : Word} {k : Byte → State → Result}
    (hk : (k (s.readValue sp a) s).Costs cost) : (dataRead sp a s k).Costs cost := by
  rw [dataRead_settled hs]
  exact hk

theorem costs_write {sp : Space} {a : Word} {v : Byte} {k : State → Result}
    (hk : (k (s.afterStore sp a v)).Costs cost) : (dataWrite sp a v s k).Costs cost := by
  rw [dataWrite_settled hs]
  exact hk

/-- The write half of `INC (HL)` and `DEC (HL)`. -/
theorem costs_update (op : Byte → Byte → Byte × Byte) (old : Byte) :
    Result.Costs 11 (dataWrite .mem (s.r16 .hl) (op old (s.r8 .f)).1
      (s.put8 .f (op old (s.r8 .f)).2) (finish 11)) :=
  costs_write (s := s.put8 .f (op old (s.r8 .f)).2) hs (costs_finish _ (Nat.succ_pos _))

theorem costs_callTo (target : Word) (hc : 1 ≤ cost) : (callTo target cost s).Costs cost :=
  let ⟨_, ht, hC, _, _⟩ := callTo_settled hs target cost hc
  costs_of_completed ht hC

theorem costs_returnFrom (hc : 1 ≤ cost) : (returnFrom cost s).Costs cost :=
  let ⟨_, ht, hC, _, _⟩ := returnFrom_settled hs cost hc
  costs_of_completed ht hC

/-- An instruction that completes owes what the table says. -/
theorem exec_costs (i : Instr) (hi : i.isNotImplemented = false) :
    Result.Costs (costOf i s) (exec i s) := by
  cases i with
  | niRoot | niDd | niFd | niEd => cases hi
  | nop | exAfAf | exx | exDeHl | ldRR | incR | decR | jpHl | addAR | adcAR | subR | sbcAR | andR
  | xorR | orR | cpR | addAN | adcAN | subN | sbcAN | andN | xorN | orN | cpN | ldRN | ldSpHl | incSs
  | decSs | ldDdNn | jpNn | jpCcNn | addHlSs | jr | ldIxNn | ldIyNn =>
    exact costs_finish _ (Nat.succ_pos _)
  | ldRIndHl | ldAIndBc | ldAIndDe | ldAIndNn | ldRIndIx | ldRIndIy | inAN | inRC | addAIndHl
  | adcAIndHl | subIndHl | sbcAIndHl | andIndHl | xorIndHl | orIndHl | cpIndHl =>
    exact costs_read hs (costs_finish _ (Nat.succ_pos _))
  | ldIndHlR | ldIndHlN | ldIndBcA | ldIndDeA | ldIndNnA | ldIndIxR | ldIndIyR | outNA | outCR =>
    exact costs_write hs (costs_finish _ (Nat.succ_pos _))
  | incIndHl => exact costs_read hs (costs_update hs inc8 _)
  | decIndHl => exact costs_read hs (costs_update hs dec8 _)
  | ldHlIndNn => exact costs_read hs (costs_read hs (costs_finish _ (Nat.succ_pos _)))
  | ldIndNnHl =>
    exact costs_write hs
      (costs_write (State.settled_afterStore hs _ _ _) (costs_finish _ (Nat.succ_pos _)))
  | pushQq qq =>
    simp only [exec, execPushQq, pushWord_settled hs]
    exact costs_finish _ (Nat.succ_pos _)
  | popQq qq =>
    simp only [exec, execPopQq, popWord_settled hs]
    exact costs_finish _ (Nat.succ_pos _)
  | callNn | rstP => exact costs_callTo hs _ (Nat.succ_pos _)
  | ret => exact costs_returnFrom hs (Nat.succ_pos _)
  | callCcNn =>
    exact costs_ite (fun _ => costs_callTo hs _ (Nat.succ_pos _))
      fun _ => costs_finish _ (Nat.succ_pos _)
  | retCc =>
    exact costs_ite (fun _ => costs_returnFrom hs (Nat.succ_pos _))
      fun _ => costs_finish _ (Nat.succ_pos _)
  | jrCc =>
    exact costs_ite (fun _ => costs_finish _ (Nat.succ_pos _))
      fun _ => costs_finish _ (Nat.succ_pos _)
  | djnz e =>
    have hb : (s.put8 .b (s.r8 .b - 1#8)).r8 .b = 0#8 ↔ s.r8 .b = 1#8 := by
      rw [State.r8_put8_self]
      exact sub_eq_zero
    simp only [exec, execDjnz, costOf, hb]
    exact costs_ite (fun _ => costs_finish _ (Nat.succ_pos _))
      fun _ => costs_finish _ (Nat.succ_pos _)

end

theorem costOf_le (i : Instr) (s : State) : costOf i s ≤ 19 := by
  cases i with
  | jrCc | djnz | callCcNn | retCc =>
    simp only [costOf]
    split <;> decide
  | _ => simp only [costOf, Nat.reduceLeDiff]

/-- Settles O50: an instruction is a behaviour, as every admitted handler is, and its cost is looked up. -/
theorem everyInstructionCompletesAtItsCost : Obligations.EveryInstructionCompletesAtItsCost := by
  refine ⟨fun i s hi hs => ?_, fun nops handler hh ops s hops hs => ?_⟩
  · obtain ⟨p, hp⟩ := exec_behaves i hi
    obtain ⟨t, cost, ht, hC, hpos⟩ := (p s.cpu.regs).run_settled hs
    have hexec : exec i s = .next t := (hp s).trans ht
    have hcost : cost = costOf i s := hC.cyc.symm.trans (exec_costs hs i hi t hexec)
    subst hcost
    exact ⟨t, hexec, hC, hpos, costOf_le i s⟩
  · obtain ⟨p, hp⟩ := hh
    obtain ⟨t, cost, ht, hC, hpos⟩ := (p ops s.cpu.regs).run_settled hs
    exact ⟨t, cost, (hp ops s hops).trans ht, hC, hpos⟩

/-! ### What a handler sees (R159) -/

/-- Two machines show a handler the same: registers, replies of the Bus, and what it has left of the CPU's
phase and cost. -/
structure State.SameForHandler (s t : State) : Prop where
  regs : s.cpu.regs = t.cpu.regs
  snapshot : s.cpu.snapshot = t.cpu.snapshot
  devices : s.devices = t.devices
  bus : s.bus = t.bus
  openBus : s.conf.openBus = t.conf.openBus
  phase : s.cpu.phase = t.cpu.phase
  cyc : s.cpu.phase = .idle → s.cpu.cyc = t.cpu.cyc

theorem askDevice_sameForHandler (n : Nat) (q : Request) {s t : State} (h : s.SameForHandler t) :
    (askDevice n q s).1 = (askDevice n q t).1 ∧
      (askDevice n q s).2.SameForHandler (askDevice n q t).2 := by
  unfold askDevice
  rw [h.devices]
  cases t.devices[n]? with
  | none => exact ⟨rfl, h⟩
  | some d => exact ⟨rfl, { h with devices := rfl }⟩

theorem sameForHandler_sameToHandlers : SameToHandlers State.SameForHandler where
  sameRegs := fun _ _ h => h.regs
  sameSnapshot := fun _ _ h => h.snapshot
  sameBus := fun _ _ h => h.bus
  sameOpenBus := fun _ _ h => h.openBus
  regs := fun _ _ _ h => { h with regs := rfl }
  answer := fun _ _ n q h => (askDevice_sameForHandler n q h).1
  ask := fun _ _ n q h => (askDevice_sameForHandler n q h).2
  fatal := fun _ _ _ h => { h with }
  finish := fun _ _ _ h => { h with phase := rfl, cyc := fun _ => rfl }

theorem Result.Related.exists_next {R : State → State → Prop} {s : State} {r : Result}
    (h : Result.Related R (.next s) r) : ∃ t, r = .next t ∧ R s t := by
  cases r with
  | next t => exact ⟨t, rfl, h⟩
  | fault | refused => exact h.elim

/-- Settles O51: a behaviour, chosen from the registers, asks the same and gets the same on both. -/
theorem handlersReadOnlyRegistersAndReplies : Obligations.HandlersReadOnlyRegistersAndReplies := by
  intro handle s s' t hhandle hregs hsnap hdev hbus hopen hph hph' ht
  have hsame : s.SameForHandler s' :=
    ⟨hregs.symm, hsnap.symm, hdev.symm, hbus.symm, hopen.symm, hph.trans hph'.symm,
      fun hidle => by rw [hph] at hidle; cases hidle⟩
  have hrel : Result.Related State.SameForHandler (handle s) (handle s') := by
    obtain ⟨i, rfl⟩ | ⟨nops, handler, ops, ⟨p, hp⟩, hops, rfl⟩ := hhandle
    · exact exec_related sameForHandler_sameToHandlers i hsame
    · rw [hp ops s hops, hp ops s' hops, hregs]
      exact (p ops s.cpu.regs).run_related sameForHandler_sameToHandlers hsame
  rw [ht] at hrel
  obtain ⟨t', ht', h⟩ := hrel.exists_next
  exact ⟨t', ht', h.regs.symm, h.devices.symm, h.phase.symm, fun hidle => (h.cyc hidle).symm⟩

end Sys2Proof.Machine

/-! Loads, stores, the stack and exchanges (spec/43_load.md): the shapes that load one register, transfer a
word byte by byte, or exchange pairs. -/

namespace Sys2Proof.Machine

/-! ### One byte loaded or stored (R183 to R191, R200, R201) -/

/-- `XY + d`: the displacement is signed, the sum modulo 2^16 (R200, R201). -/
theorem indexedAddress_eq (s : State) (xy : Ent16) (d : Byte) :
    indexedAddress s xy d = BitVec.ofInt 16 ((s.r16 xy).toNat + d.toInt) := by
  rw [BitVec.ofInt_add, BitVec.ofInt_natCast, BitVec.ofNat_toNat, BitVec.setWidth_eq]
  rfl

/-- The shape of an instruction that loads one 8-bit register from memory. -/
theorem runsLoadingByte {i : Instr} {code : List Byte} {cost : Nat} (q : Ent8) (addr : State → Word)
    (hcode : encode i = code) (hpos : 1 ≤ cost)
    (hexec : ∀ s, exec i s = dataRead .mem (addr s) s fun v u => finish cost (u.put8 q v)) :
    RunsReading i code (fun _ => cost) .mem (fun s => [addr s]) [q] []
      fun s t => t.r8 q = s.readValue .mem (addr s) :=
  runsReadingOne (fun v u => u.put8 q v) hcode hexec (fun _ => hpos) (fun _ _ => rfl)
    (fun _ s => (RegsKept.refl _ _ s).put8 _ _ (List.mem_singleton_self _))
    fun s _ h => (congrFun (r8_of_regs h) _).trans (State.r8_put8_self s _ _)

/-- Settles O7: each form reads one byte at its address and puts it in its register. -/
theorem loadByteFromMemory : Obligations.LoadByteFromMemory := by
  unfold Obligations.LoadByteFromMemory
  simp only [← indexedAddress_eq]
  exact ⟨fun r => runsLoadingByte r.ent (·.r16 .hl) rfl (Nat.succ_pos _) fun _ => rfl,
    runsLoadingByte .a (·.r16 .bc) rfl (Nat.succ_pos _) fun _ => rfl,
    runsLoadingByte .a (·.r16 .de) rfl (Nat.succ_pos _) fun _ => rfl,
    fun nn => runsLoadingByte .a (fun _ => nn) rfl (Nat.succ_pos _) fun _ => rfl,
    fun r d => runsLoadingByte r.ent (indexedAddress · .ix d) rfl (Nat.succ_pos _) fun _ => rfl,
    fun r d => runsLoadingByte r.ent (indexedAddress · .iy d) rfl (Nat.succ_pos _) fun _ => rfl⟩

/-- Settles O8: each form writes one byte at its address and ends. -/
theorem storeByteToMemory : Obligations.StoreByteToMemory := by
  unfold Obligations.StoreByteToMemory
  simp only [← indexedAddress_eq]
  exact ⟨fun _ => storesOneByte_of rfl (Nat.succ_pos _) fun _ => rfl,
    fun _ => storesOneByte_of rfl (Nat.succ_pos _) fun _ => rfl,
    storesOneByte_of rfl (Nat.succ_pos _) fun _ => rfl,
    storesOneByte_of rfl (Nat.succ_pos _) fun _ => rfl,
    fun _ => storesOneByte_of rfl (Nat.succ_pos _) fun _ => rfl,
    fun _ _ => storesOneByte_of rfl (Nat.succ_pos _) fun _ => rfl,
    fun _ _ => storesOneByte_of rfl (Nat.succ_pos _) fun _ => rfl⟩

/-! ### One 16-bit register loaded (R192, R199, R203) -/

/-- The opcode byte of a row of pairs: the code of the pair, then four fixed bits (R92, R94). -/
theorem opByte_yOf_false : ∀ (x p : BitVec 2) (z : BitVec 3),
    opByte x (yOf p false) z = x ++ p ++ (0#1 ++ z) := by decide

/-- The shape of an instruction that writes one 16-bit register or pair. -/
theorem runsPutting16 {i : Instr} {code : List Byte} {cost : Nat} (q : Ent16) (v : State → Word)
    (hcode : encode i = code) (hpos : 1 ≤ cost)
    (hexec : ∀ s, exec i s = finish cost (s.put16 q (v s))) :
    RunsOnRegisters i code (fun _ => cost) q.halves [q] fun s t => t.r16 q = v s :=
  runsOnRegisters (fun s => s.put16 q (v s)) hcode hexec (fun _ => hpos) (fun _ => rfl)
    (fun s => (RegsKept.refl _ _ s).put16 _ _ (fun _ hx => hx) (.inl (List.mem_singleton_self _)))
    fun s _ h => (congrFun (r16_of_regs h) _).trans (State.r16_put16_self s _ _)

/-- Settles O9: each form ends after one write to its register. -/
theorem loadSixteenBitRegister : Obligations.LoadSixteenBitRegister :=
  ⟨fun dd nn => runsPutting16 dd.ent (fun _ => nn)
      (congrArg (· :: nnBytes nn) (opByte_yOf_false _ _ _)) (Nat.succ_pos _) fun _ => rfl,
    fun nn => runsPutting16 .ix (fun _ => nn) rfl (Nat.succ_pos _) fun _ => rfl,
    fun nn => runsPutting16 .iy (fun _ => nn) rfl (Nat.succ_pos _) fun _ => rfl,
    runsPutting16 .sp (·.r16 .hl) rfl (Nat.succ_pos _) fun _ => rfl⟩

/-! ### A word transferred byte by byte (R193 to R196) -/

/-- The high half of a pair after a write to it (R13). -/
theorem State.r8_put16_high (s : State) {p : Ent16} {q : Ent8} (v : Word) (h : p.halves[0]? = some q) :
    (s.put16 p v).r8 q = highByte v := by
  cases p <;> cases h <;> rfl

/-- The low half of a pair after a write to it (R13). -/
theorem State.r8_put16_low (s : State) {p : Ent16} {q : Ent8} (v : Word) (h : p.halves[1]? = some q) :
    (s.put16 p v).r8 q = lowByte v := by
  cases p <;> cases h <;> rfl

/-- An instruction that reads, given what it issues and where it ends where devices answer. -/
theorem runsReading_of {i : Instr} {code : List Byte} {cost : State → Nat} {sp : Space}
    {reads : State → List Word} {l8 : List Ent8} {l16 : List Ent16} {result : State → State → Prop}
    (g : State → State) (hcode : encode i = code) (hreads : ∀ s, reads s ≠ [])
    (hissues : ∀ s, Follows (readsAt sp (reads s)) [] s (exec i s))
    (hexec : ∀ s, s.settled → exec i s = finish (cost s) (g s)) (hpos : ∀ s, 1 ≤ cost s)
    (hg : ∀ s, g s = s.withRegs (g s).cpu.regs) (hk : ∀ s, RegsKept l8 l16 s (g s))
    (hres : OfRegs g result) : RunsReading i code cost sp reads l8 l16 result := by
  refine ⟨hcode, (issues_iff _ _).2 hissues, fun s hs => ?_⟩
  obtain ⟨t, ht, hC, hd, hr⟩ := completed_finish (s := s) (u := g s) (cost s) (hpos s)
    (by rw [hg s]; rfl)
  exact ⟨t, (hexec s (hs.resolve_right (hreads s))).trans ht, hC, by rw [hd, hg s]; rfl,
    (hk s).of_regs hr, hres s t hr⟩

/-- Stores in a row change devices alone. -/
theorem State.afterStores_eq (ps : List (Word × Byte)) (s : State) :
    ps.foldl (fun u p => u.afterStore .mem p.1 p.2) s =
      { s with devices := (ps.foldl (fun u p => u.afterStore .mem p.1 p.2) s).devices } := by
  induction ps generalizing s with
  | nil => rfl
  | cons p ps ih =>
    rw [List.foldl_cons, ih, State.afterStore_eq s]

/-- An instruction that stores, given what it issues and where it ends where devices answer: its stores
done, and the registers those of `g`. -/
theorem runsStoring_of {i : Instr} {code : List Byte} {cost : State → Nat}
    {stores : State → List (Word × Byte)} {l8 : List Ent8} {l16 : List Ent16}
    {result : State → State → Prop} (g : State → State) (hcode : encode i = code)
    (hstores : ∀ s, stores s ≠ [])
    (hissues : ∀ s, Follows (writesAt .mem (stores s)) [] s (exec i s))
    (hexec : ∀ s, s.settled → exec i s = finish (cost s)
      (((stores s).foldl (fun u p => u.afterStore .mem p.1 p.2) s).withRegs (g s).cpu.regs))
    (hpos : ∀ s, 1 ≤ cost s) (hk : ∀ s, RegsKept l8 l16 s (g s)) (hres : OfRegs g result) :
    RunsStoring i code cost (fun s => writesAt .mem (stores s)) stores l8 l16 result := by
  refine ⟨hcode, (issues_iff _ _).2 hissues, fun s hs => ?_⟩
  obtain ⟨t, ht, hC, hd, hr⟩ := completed_finish (s := s) (u :=
    ((stores s).foldl (fun u p => u.afterStore .mem p.1 p.2) s).withRegs (g s).cpu.regs)
    (cost s) (hpos s) (by rw [State.afterStores_eq]; rfl)
  have hs : s.settled := hs.resolve_right fun h => hstores s (List.map_eq_nil_iff.1 h)
  exact ⟨t, (hexec s hs).trans ht, hC, hd, reference_stores hC.bus hd, (hk s).of_regs hr,
    hres s t hr⟩

/-- `MemRead(a, 2)` where devices answer (R163). -/
theorem memRead2_settled {s : State} (hs : s.settled) (a : Word) (k : Word → State → Result) :
    memRead2 a s k = k (compose (s.readValue .mem (a + 1#16)) (s.readValue .mem a)) s :=
  (dataRead_settled hs .mem a _).trans (dataRead_settled hs .mem _ _)

/-- `MemWrite(a, 2, x[HL])` stores `L`, then `H` (R164). -/
theorem memWrite2_hl (a : Word) (s : State) (k : State → Result) :
    memWrite2 a (s.r16 .hl) s k =
      memWrite a (s.r8 .l) s fun u => memWrite (a + 1#16) (s.r8 .h) u k := by
  obtain ⟨-, -, -, hhl⟩ := s.r16_pair
  rw [hhl, memWrite2, highByte_compose, lowByte_compose]

theorem runsLdHlIndNn (nn : Word) : RunsReading (.ldHlIndNn nn) [0x2A#8, lowByte nn, highByte nn]
    (fun _ => 16) .mem (fun _ => [nn, nn + 1#16]) [.h, .l] [] fun s t =>
      t.r8 .l = s.readValue .mem nn ∧ t.r8 .h = s.readValue .mem (nn + 1#16) := by
  refine runsReading_of (fun s => s.put16 .hl
      (compose (s.readValue .mem (nn + 1#16)) (s.readValue .mem nn))) rfl
    (fun _ => List.cons_ne_nil _ _)
    (fun s => follows_read rfl fun _ _ _ => follows_read rfl fun _ _ _ => follows_finish _ rfl rfl)
    (fun s hs => memRead2_settled hs nn fun v u => finish 16 (u.put16 .hl v))
    (fun _ => Nat.succ_pos _) (fun _ => rfl)
    (fun s => (RegsKept.refl _ _ s).put16 _ _ (fun _ hx => hx) (.inr (List.cons_ne_nil _ _)))
    fun s t h => ?_
  rw [r8_of_regs h, State.r8_put16_low _ _ rfl, State.r8_put16_high _ _ rfl]
  exact ⟨lowByte_compose _ _, highByte_compose _ _⟩

theorem runsLdIndNnHl (nn : Word) : RunsStoring (.ldIndNnHl nn) [0x22#8, lowByte nn, highByte nn]
    (fun _ => 16) (fun s => writesAt .mem [(nn, s.r8 .l), (nn + 1#16, s.r8 .h)])
    (fun s => [(nn, s.r8 .l), (nn + 1#16, s.r8 .h)]) [] [] fun _ _ => True := by
  have hexec : ∀ s, exec (.ldIndNnHl nn) s = _ := fun s => memWrite2_hl nn s (finish 16)
  refine runsStoring_of id rfl (fun _ => List.cons_ne_nil _ _) (fun s => ?_) (fun s hs => ?_)
    (fun _ => Nat.succ_pos _) (fun s => .refl _ _ s) fun _ _ _ => trivial
  · rw [hexec]
    exact follows_write rfl fun _ _ => follows_write rfl fun _ _ => follows_finish _ rfl rfl
  · rw [hexec, memWrite, dataWrite_settled hs, memWrite,
      dataWrite_settled (State.settled_afterStore hs _ _ _), State.afterStores_eq]
    exact congrArg _ (State.afterStores_eq [(nn, s.r8 .l), (nn + 1#16, s.r8 .h)] s)

/-- Settles O10: the load reads, and the store writes, two bytes one after the other. -/
theorem loadAndStoreHl : Obligations.LoadAndStoreHl := ⟨runsLdHlIndNn, runsLdIndNnHl⟩

theorem runsPushQq (qq : PairAf) : RunsStoring (.pushQq qq) [0b11#2 ++ qq.field ++ 0b0101#4]
    (fun _ => 11)
    (fun s => writesAt .mem
      [(s.r16 .sp - 1#16, highByte (s.r16 qq.ent)), (s.r16 .sp - 2#16, lowByte (s.r16 qq.ent))])
    (fun s =>
      [(s.r16 .sp - 1#16, highByte (s.r16 qq.ent)), (s.r16 .sp - 2#16, lowByte (s.r16 qq.ent))])
    [] [.sp] fun s t => t.r16 .sp = s.r16 .sp - 2#16 := by
  refine runsStoring_of (fun s => s.put16 .sp (s.r16 .sp - 2#16))
    (congrArg (fun b => [b]) (opByte_yOf_false _ _ _)) (fun _ => List.cons_ne_nil _ _)
    (fun s => follows_pushWord (rest := []) fun _ => follows_finish _ rfl rfl)
    (fun s hs => (pushWord_settled hs _ _).trans ?_) (fun _ => Nat.succ_pos _)
    (fun s => (RegsKept.refl _ _ s).put16 _ _ (fun _ hx => nomatch hx)
      (.inl (List.mem_singleton_self _)))
    fun s t h => by rw [r16_of_regs h, State.r16_put16_self]
  simp only [State.put16, List.foldl_cons, List.foldl_nil, State.afterStore_cpu,
    State.withRegs_cpu_regs]

theorem runsPopQq (qq : PairAf) : RunsReading (.popQq qq) [0b11#2 ++ qq.field ++ 0b0001#4]
    (fun _ => 10) .mem (fun s => [s.r16 .sp, s.r16 .sp + 1#16]) qq.ent.halves [.sp] fun s t =>
      t.r16 qq.ent =
        compose (s.readValue .mem (s.r16 .sp + 1#16)) (s.readValue .mem (s.r16 .sp)) ∧
      t.r16 .sp = s.r16 .sp + 2#16 := by
  have hpair : qq.ent.halves ≠ [] ∧ Ent16.sp ≠ qq.ent := by cases qq <;> decide
  refine runsReading_of (fun s => (s.put16 .sp (s.r16 .sp + 2#16)).put16 qq.ent
      (compose (s.readValue .mem (s.r16 .sp + 1#16)) (s.readValue .mem (s.r16 .sp))))
    (congrArg (fun b => [b]) (opByte_yOf_false _ _ _)) (fun _ => List.cons_ne_nil _ _)
    (fun s => follows_popWord (rest := []) (k := fun v u => finish 10 (u.put16 qq.ent v))
      fun _ _ _ => follows_finish _ rfl rfl)
    (fun s hs => popWord_settled hs fun v u => finish 10 (u.put16 qq.ent v)) (fun _ => Nat.succ_pos _)
    (fun _ => rfl)
    (fun s => ((RegsKept.refl _ _ s).put16 .sp _ (fun _ hx => nomatch hx)
      (.inl (List.mem_singleton_self _))).put16 _ _ (fun _ hx => hx) (.inr hpair.1))
    fun s t h => ?_
  rw [r16_of_regs h, State.r16_put16_self, State.r16_put16_stored _ _ _ _ rfl hpair.2,
    State.r16_put16_self]
  exact ⟨rfl, rfl⟩

/-- Settles O11: `pushWord` and `popWord` issue these transactions, and move `SP` by two. -/
theorem pushAndPop : Obligations.PushAndPop := ⟨runsPushQq, runsPopQq⟩

/-! ### Exchanges (R197, R198, R202) -/

/-- Writing a pair leaves the registers other than its halves. -/
theorem RegsKept.putPair {l8 : List Ent8} {l16 : List Ent16} {s t : State} (h : RegsKept l8 l16 s t)
    (q : Ent16) (v : Word) (hq : q.halves ≠ [] ∧ ∀ x ∈ q.halves, x ∈ l8) :
    RegsKept l8 l16 s (t.put16 q v) := h.put16 q v hq.2 (.inr hq.1)

theorem runsExAfAf : RunsOnRegisters .exAfAf [0x08#8] (fun _ => 4) [.a, .f, .a', .f'] []
    fun s t => t.r8 .a = s.r8 .a' ∧ t.r8 .f = s.r8 .f' ∧ t.r8 .a' = s.r8 .a ∧ t.r8 .f' = s.r8 .f := by
  refine runsOnRegisters (fun s => (s.put16 .af (s.r16 .af')).put16 .af' (s.r16 .af)) rfl
    (fun _ => rfl) (fun _ => Nat.succ_pos _) (fun _ => rfl)
    (fun s => ((RegsKept.refl _ _ s).putPair .af _ (by decide)).putPair .af' _ (by decide))
    fun s t h => ?_
  rw [r8_of_regs h]
  simp (disch := decide) only [State.r8_put16_of_not_mem, State.r8_put16_high, State.r8_put16_low]
  exact ⟨highByte_compose _ _, lowByte_compose _ _, highByte_compose _ _, lowByte_compose _ _⟩

theorem runsExDeHl : RunsOnRegisters .exDeHl [0xEB#8] (fun _ => 4) [.d, .e, .h, .l] []
    fun s t => t.r8 .d = s.r8 .h ∧ t.r8 .e = s.r8 .l ∧ t.r8 .h = s.r8 .d ∧ t.r8 .l = s.r8 .e := by
  refine runsOnRegisters (fun s => (s.put16 .de (s.r16 .hl)).put16 .hl (s.r16 .de)) rfl
    (fun _ => rfl) (fun _ => Nat.succ_pos _) (fun _ => rfl)
    (fun s => ((RegsKept.refl _ _ s).putPair .de _ (by decide)).putPair .hl _ (by decide))
    fun s t h => ?_
  rw [r8_of_regs h]
  simp (disch := decide) only [State.r8_put16_of_not_mem, State.r8_put16_high, State.r8_put16_low]
  exact ⟨highByte_compose _ _, lowByte_compose _ _, highByte_compose _ _, lowByte_compose _ _⟩

theorem runsExx : RunsOnRegisters .exx [0xD9#8] (fun _ => 4)
    [.b, .c, .d, .e, .h, .l, .b', .c', .d', .e', .h', .l'] []
    fun s t => t.r8 .b = s.r8 .b' ∧ t.r8 .c = s.r8 .c' ∧ t.r8 .d = s.r8 .d' ∧
      t.r8 .e = s.r8 .e' ∧ t.r8 .h = s.r8 .h' ∧ t.r8 .l = s.r8 .l' ∧ t.r8 .b' = s.r8 .b ∧
      t.r8 .c' = s.r8 .c ∧ t.r8 .d' = s.r8 .d ∧ t.r8 .e' = s.r8 .e ∧ t.r8 .h' = s.r8 .h ∧
      t.r8 .l' = s.r8 .l := by
  refine runsOnRegisters (fun s =>
      (((((s.put16 .bc (s.r16 .bc')).put16 .de (s.r16 .de')).put16 .hl (s.r16 .hl')).put16 .bc'
        (s.r16 .bc)).put16 .de' (s.r16 .de)).put16 .hl' (s.r16 .hl)) rfl (fun _ => rfl)
    (fun _ => Nat.succ_pos _)
    (fun _ => by simp only [State.put16, State.withRegs_withRegs, State.withRegs_cpu_regs])
    (fun s => ((((((RegsKept.refl _ _ s).putPair .bc _ (by decide)).putPair .de _
      (by decide)).putPair .hl _ (by decide)).putPair .bc' _ (by decide)).putPair .de' _
      (by decide)).putPair .hl' _ (by decide)) fun s t h => ?_
  rw [r8_of_regs h]
  simp (disch := decide) only [State.r8_put16_of_not_mem, State.r8_put16_high, State.r8_put16_low]
  exact ⟨highByte_compose _ _, lowByte_compose _ _, highByte_compose _ _, lowByte_compose _ _,
    highByte_compose _ _, lowByte_compose _ _, highByte_compose _ _, lowByte_compose _ _,
    highByte_compose _ _, lowByte_compose _ _, highByte_compose _ _, lowByte_compose _ _⟩

/-- Settles O12: the pairs are read before any is written. -/
theorem exchangesSwapRegisters : Obligations.ExchangesSwapRegisters :=
  ⟨runsExAfAf, runsExx, runsExDeHl⟩

end Sys2Proof.Machine

/-! Which instruction reaches which register (R180 f, R210): on a settled machine an instruction leaves all but
the registers of `Instr.reach8` and `Instr.reach16` as they were. -/

namespace Sys2Proof

/-- The 8-bit registers an instruction may change: the main bank but `F`, and `F` and the shadow bank where
it is named (R180 f, R210). -/
def Instr.reach8 (i : Instr) : List Machine.Ent8 :=
  [Machine.Ent8.a, .b, .c, .d, .e, .h, .l] ++ (if i.writesFlags then [Machine.Ent8.f] else []) ++
    if i.exchangesBanks then [Machine.Ent8.a', .f', .b', .c', .d', .e', .h', .l'] else []

/-- The index register an instruction loads (R199). -/
def Instr.indexLoaded : Instr → List Machine.Ent16
  | .ldIxNn _ => [.ix]
  | .ldIyNn _ => [.iy]
  | _ => []

/-- The stored 16-bit registers an instruction may change (R180 f). -/
def Instr.reach16 (i : Instr) : List Machine.Ent16 :=
  (if i.transfersControl then [Machine.Ent16.pc] else []) ++
    (if i.writesSp then [Machine.Ent16.sp] else []) ++ i.indexLoaded

end Sys2Proof

namespace Sys2Proof.Machine

/-- The instruction may have led from `s` to the registers of `t`. -/
def Reaches (i : Instr) (s t : State) : Prop := RegsKept i.reach8 i.reach16 s t

section
variable {i : Instr} {s t : State}

theorem Reaches.refl (i : Instr) (s : State) : Reaches i s s := RegsKept.refl _ _ s

theorem Reaches.of_regs {u : State} (h : Reaches i s t) (hr : u.cpu.regs = t.cpu.regs) :
    Reaches i s u := RegsKept.of_regs h hr

theorem Reaches.afterStore (h : Reaches i s t) (sp : Space) (a : Word) (v : Byte) :
    Reaches i s (t.afterStore sp a v) :=
  h.of_regs (congrArg Cpu.regs (State.afterStore_cpu t sp a v))

theorem Reaches.putReg (h : Reaches i s t) (r : Reg8) (v : Byte) : Reaches i s (t.put8 r.ent v) :=
  RegsKept.put8 h _ v (by cases r <;> simp [Instr.reach8, Reg8.ent])

theorem Reaches.putFlags (h : Reaches i s t) (hi : i.writesFlags = true) (v : Byte) :
    Reaches i s (t.put8 .f v) :=
  RegsKept.put8 h _ v (by simp [Instr.reach8, hi])

/-- A 16-bit write to a register in reach, or to a pair whose halves are. -/
theorem Reaches.put16 (h : Reaches i s t) (q : Ent16) (v : Word)
    (hq : (∀ x ∈ q.halves, x ∈ i.reach8) ∧ (q ∈ i.reach16 ∨ q.halves ≠ [])) :
    Reaches i s (t.put16 q v) :=
  RegsKept.put16 h q v hq.1 hq.2

theorem Reaches.accumulate (h : Reaches i s t) (hi : i.writesFlags = true)
    (op : Byte → Byte → Byte → Byte × Byte) (v : Byte) : Reaches i s (accumulate op v t) :=
  (h.putReg .a _).putFlags hi _

theorem Reaches.jump (h : Reaches i s t) (hi : i.transfersControl = true) (target : Word) :
    Reaches i s (jump target t) :=
  h.put16 .pc target ⟨nofun, .inl (by simp [Instr.reach16, hi])⟩

theorem Reaches.putSp (h : Reaches i s t) (hi : i.writesSp = true) (v : Word) :
    Reaches i s (t.put16 .sp v) :=
  h.put16 .sp v ⟨nofun, .inl (by simp [Instr.reach16, hi])⟩

theorem Reaches.putPair (h : Reaches i s t) (p : PairSp) (v : Word)
    (hi : p = .sp → i.writesSp = true) : Reaches i s (t.put16 p.ent v) := by
  cases p with
  | sp => exact h.putSp (hi rfl) v
  | bc | de | hl => exact h.put16 _ v (by simp [Instr.reach8, PairSp.ent, Ent16.halves])

/-! ### Every instruction -/

theorem reaches_finish (h : Reaches i s t) (cost : Nat) : (finish cost t).Keeps (Reaches i s) :=
  keeps_next (h.of_regs rfl)

theorem keeps_ite {P : State → Prop} {c : Prop} [Decidable c] {r q : Result} (hr : r.Keeps P)
    (hq : q.Keeps P) : Result.Keeps P (if c then r else q) := by
  split
  · exact hr
  · exact hq

variable (hs : s.settled)
include hs

theorem keeps_read {P : State → Prop} {sp : Space} {a : Word} {k : Byte → State → Result}
    (hk : (k (s.readValue sp a) s).Keeps P) : (dataRead sp a s k).Keeps P := by
  rw [dataRead_settled hs]
  exact hk

theorem keeps_write {P : State → Prop} {sp : Space} {a : Word} {v : Byte} {k : State → Result}
    (hk : (k (s.afterStore sp a v)).Keeps P) : (dataWrite sp a v s k).Keeps P := by
  rw [dataWrite_settled hs]
  exact hk

/-- The write half of `INC (HL)` and `DEC (HL)`. -/
theorem reaches_update (hi : i.writesFlags = true) (op : Byte → Byte → Byte × Byte) (old : Byte) :
    Result.Keeps (Reaches i s) (dataWrite .mem (s.r16 .hl) (op old (s.r8 .f)).1
      (s.put8 .f (op old (s.r8 .f)).2) (finish 11)) :=
  keeps_write (s := s.put8 .f (op old (s.r8 .f)).2) hs
    (reaches_finish (((Reaches.refl i s).putFlags hi _).afterStore _ _ _) _)

theorem reaches_callTo (hsp : i.writesSp = true) (hpc : i.transfersControl = true) (target : Word)
    {cost : Nat} (hc : 1 ≤ cost) : (callTo target cost s).Keeps (Reaches i s) := by
  obtain ⟨t, ht, -, -, hr⟩ := callTo_settled hs target cost hc
  rw [ht]
  exact keeps_next (Reaches.of_regs (((Reaches.refl i s).putSp hsp _).jump hpc _) hr)

theorem reaches_returnFrom (hsp : i.writesSp = true) (hpc : i.transfersControl = true) {cost : Nat}
    (hc : 1 ≤ cost) : (returnFrom cost s).Keeps (Reaches i s) := by
  obtain ⟨t, ht, -, -, hr⟩ := returnFrom_settled hs cost hc
  rw [ht]
  exact keeps_next (Reaches.of_regs (((Reaches.refl i s).putSp hsp _).jump hpc _) hr)

/-- An instruction leaves every register out of its reach as it was (R180 f, R210). -/
theorem exec_reaches (i : Instr) : Result.Keeps (Reaches i s) (exec i s) := by
  have h : Reaches i s s := .refl i s
  cases i with
  | niRoot | niDd | niFd | niEd => exact keeps_next (h.of_regs rfl)
  | nop => exact reaches_finish h _
  | ldRR | ldRN => exact reaches_finish (h.putReg _ _) _
  | incR | decR => exact reaches_finish ((h.putReg _ _).putFlags rfl _) _
  | addAR | adcAR | subR | sbcAR | andR | xorR | orR | cpR | addAN | adcAN | subN | sbcAN | andN
  | xorN | orN | cpN => exact reaches_finish (h.accumulate rfl _ _) _
  | addAIndHl | adcAIndHl | subIndHl | sbcAIndHl | andIndHl | xorIndHl | orIndHl | cpIndHl =>
    exact keeps_read hs (reaches_finish (h.accumulate rfl _ _) _)
  | ldRIndHl | ldRIndIx | ldRIndIy => exact keeps_read hs (reaches_finish (h.putReg _ _) _)
  | ldAIndBc | ldAIndDe | ldAIndNn | inAN =>
    exact keeps_read hs (reaches_finish (h.putReg .a _) _)
  | inRC => exact keeps_read hs (reaches_finish ((h.putReg _ _).putFlags rfl _) _)
  | ldIndHlR | ldIndHlN | ldIndBcA | ldIndDeA | ldIndNnA | ldIndIxR | ldIndIyR | outNA | outCR =>
    exact keeps_write hs (reaches_finish (h.afterStore _ _ _) _)
  | incIndHl => exact keeps_read hs (reaches_update hs rfl inc8 _)
  | decIndHl => exact keeps_read hs (reaches_update hs rfl dec8 _)
  | ldHlIndNn =>
    exact keeps_read hs (keeps_read hs (reaches_finish (h.putPair .hl _ nofun) _))
  | ldIndNnHl =>
    exact keeps_write hs (keeps_write (State.settled_afterStore hs _ _ _)
      (reaches_finish ((h.afterStore _ _ _).afterStore _ _ _) _))
  | ldDdNn dd => exact reaches_finish (h.putPair dd _ fun e => by rw [e]; rfl) _
  | incSs ss => exact reaches_finish (h.putPair ss _ fun e => by rw [e]; rfl) _
  | decSs ss => exact reaches_finish (h.putPair ss _ fun e => by rw [e]; rfl) _
  | addHlSs => exact reaches_finish ((h.putPair .hl _ nofun).putFlags rfl _) _
  | ldSpHl => exact reaches_finish (h.putSp rfl _) _
  | ldIxNn | ldIyNn =>
    exact reaches_finish (h.put16 _ _ ⟨by nofun, .inl (List.mem_singleton_self _)⟩) _
  | exDeHl => exact reaches_finish ((h.putPair .de _ nofun).putPair .hl _ nofun) _
  | exAfAf => exact reaches_finish ((h.put16 _ _ (by decide)).put16 _ _ (by decide)) _
  | exx =>
    exact reaches_finish ((((((h.put16 _ _ (by decide)).put16 _ _ (by decide)).put16 _ _
      (by decide)).put16 _ _ (by decide)).put16 _ _ (by decide)).put16 _ _ (by decide)) _
  | jpNn | jpHl | jr => exact reaches_finish (h.jump rfl _) _
  | jpCcNn cc nn =>
    refine reaches_finish (t := if s.meets cc then jump nn s else s) ?_ _
    split
    · exact h.jump rfl _
    · exact h
  | jrCc => exact keeps_ite (reaches_finish (h.jump rfl _) _) (reaches_finish h _)
  | djnz =>
    exact keeps_ite (reaches_finish (h.putReg .b _) _)
      (reaches_finish ((h.putReg .b _).jump rfl _) _)
  | callNn | rstP => exact reaches_callTo hs rfl rfl _ (Nat.succ_pos _)
  | callCcNn => exact keeps_ite (reaches_callTo hs rfl rfl _ (Nat.succ_pos _)) (reaches_finish h _)
  | ret => exact reaches_returnFrom hs rfl rfl (Nat.succ_pos _)
  | retCc => exact keeps_ite (reaches_returnFrom hs rfl rfl (Nat.succ_pos _)) (reaches_finish h _)
  | pushQq qq =>
    simp only [exec, execPushQq, pushWord_settled hs]
    exact reaches_finish (((h.afterStore _ _ _).afterStore _ _ _).putSp rfl _) _
  | popQq qq =>
    have hqq : (∀ x ∈ qq.ent.halves, x ∈ (Instr.popQq qq).reach8) ∧
        (qq.ent ∈ (Instr.popQq qq).reach16 ∨ qq.ent.halves ≠ []) := by cases qq <;> decide
    simp only [exec, execPopQq, popWord_settled hs]
    exact reaches_finish ((h.putSp rfl _).put16 _ _ hqq) _

end

/-! ### Registers out of reach -/

section
variable {i : Instr}

theorem f_not_mem_reach8 (hf : i.writesFlags = false) : Ent8.f ∉ i.reach8 := by
  simp [Instr.reach8, hf]

theorem shadow_not_mem_reach8 (hx : i.exchangesBanks = false) :
    ∀ q ∈ [Ent8.a', .f', .b', .c', .d', .e', .h', .l'], q ∉ i.reach8 := by
  simp [Instr.reach8, hx]

/-- `IX` and `IY` are loaded by their own instructions alone. -/
theorem mem_indexLoaded {q : Ent16} (h : q ∈ i.indexLoaded) :
    (q = .ix ∧ ∃ nn, i = .ldIxNn nn) ∨ (q = .iy ∧ ∃ nn, i = .ldIyNn nn) := by
  unfold Instr.indexLoaded at h
  split at h
  · exact .inl ⟨List.mem_singleton.1 h, _, rfl⟩
  · exact .inr ⟨List.mem_singleton.1 h, _, rfl⟩
  · cases h

/-- A 16-bit register in reach is there because the instruction is named for it. -/
theorem mem_reach16 {q : Ent16} (h : q ∈ i.reach16) :
    (q = .pc ∧ i.transfersControl = true) ∨ (q = .sp ∧ i.writesSp = true) ∨
      (q = .ix ∧ ∃ nn, i = .ldIxNn nn) ∨ (q = .iy ∧ ∃ nn, i = .ldIyNn nn) := by
  simp only [Instr.reach16, List.mem_append, List.mem_ite_nil_right, List.mem_singleton] at h
  obtain (⟨hi, hq⟩ | ⟨hi, hq⟩) | h := h
  · exact .inl ⟨hq, hi⟩
  · exact .inr (.inl ⟨hq, hi⟩)
  · exact .inr (.inr (mem_indexLoaded h))

end

/-- Settles O49: each register not named is out of the instruction's reach. -/
theorem onlyNamedInstructionsReachARegister : Obligations.OnlyNamedInstructionsReachARegister := by
  intro i s t hs ht
  obtain ⟨hbytes, hwords⟩ := exec_reaches hs i t ht
  refine ⟨fun hf => hbytes .f (f_not_mem_reach8 hf),
    fun hx q hq => hbytes q (shadow_not_mem_reach8 hx q hq),
    fun hpc => hwords .pc (by decide) fun hq => ?_, fun hsp => hwords .sp (by decide) fun hq => ?_,
    fun hix => hwords .ix (by decide) fun hq => ?_, fun hiy => hwords .iy (by decide) fun hq => ?_⟩
  all_goals simpa [*] using mem_reach16 hq

end Sys2Proof.Machine

/-! The 8-bit operations on the accumulator in their three operand forms (R212 to R219, R228). -/

namespace Sys2Proof.Machine

/-! ### One operation, three operand forms (R228) -/

/-- What the operation `op` on the accumulator does in each operand form. -/
def AluSource.run (x : AluSource) (op : Byte → Byte → Byte → Byte × Byte) (s : State) : Result :=
  match x with
  | .reg r => finish 4 (accumulate op (s.reg r) s)
  | .indHl => dataRead .mem (s.r16 .hl) s fun v u => finish 7 (accumulate op v u)
  | .immediate n => finish 7 (accumulate op n s)

/-- The instruction is the operation `op` of opcode field `ooo` on the operand `x`. -/
structure IsAccumulatorOp (i : Instr) (x : AluSource) (ooo : BitVec 3)
    (op : Byte → Byte → Byte → Byte × Byte) : Prop where
  code : encode i = x.code ooo
  meaning : ∀ s, exec i s = x.run op s

section
variable (x : AluSource)

theorem isAccumulatorOp_add : IsAccumulatorOp x.add x 0#3 aluAdd := by
  cases x <;> exact ⟨rfl, fun _ => rfl⟩

theorem isAccumulatorOp_adc : IsAccumulatorOp x.adc x 1#3 aluAdc := by
  cases x <;> exact ⟨rfl, fun _ => rfl⟩

theorem isAccumulatorOp_sub : IsAccumulatorOp x.sub x 2#3 aluSub := by
  cases x <;> exact ⟨rfl, fun _ => rfl⟩

theorem isAccumulatorOp_sbc : IsAccumulatorOp x.sbc x 3#3 aluSbc := by
  cases x <;> exact ⟨rfl, fun _ => rfl⟩

theorem isAccumulatorOp_and : IsAccumulatorOp x.and x 4#3 aluAnd := by
  cases x <;> exact ⟨rfl, fun _ => rfl⟩

theorem isAccumulatorOp_xor : IsAccumulatorOp x.xor x 5#3 aluXor := by
  cases x <;> exact ⟨rfl, fun _ => rfl⟩

theorem isAccumulatorOp_or : IsAccumulatorOp x.or x 6#3 aluOr := by
  cases x <;> exact ⟨rfl, fun _ => rfl⟩

theorem isAccumulatorOp_cp : IsAccumulatorOp x.cp x 7#3 aluCp := by
  cases x <;> exact ⟨rfl, fun _ => rfl⟩

end

/-- From what `op` makes of its operands to what the instruction does. The result speaks of `A` and `F`
before, the operand, and `A` and `F` after. -/
theorem IsAccumulatorOp.runs {i : Instr} {x : AluSource} {ooo : BitVec 3}
    {op : Byte → Byte → Byte → Byte × Byte} (h : IsAccumulatorOp i x ooo op)
    (result : Byte → Byte → Byte → Byte → Byte → Prop)
    (hop : ∀ a f v, result a f v (op a v f).1 (op a v f).2) :
    RunsReading i (x.code ooo) (fun _ => x.cost) .mem x.reads [.a, .f] []
      fun s t => result (s.r8 .a) (s.r8 .f) (x.value s) (t.r8 .a) (t.r8 .f) :=
  runsAccumulate x op i ooo (fun s => result (s.r8 .a) (s.r8 .f)) h.code
    (fun s => by rw [h.meaning s]; cases x <;> rfl) fun _ _ => hop _ _ _

/-! ### Addition and subtraction (R211 to R215) -/

/-- `res` and `f` are the sum with carry `c` and its flags. -/
def IsSum (a v : Byte) (c : Bool) (res f : Byte) : Prop :=
  res = BitVec.ofNat 8 (a.toNat + v.toNat + c.toNat) ∧ CopiesResult f res ∧
    flagH f = decide (15 < a.toNat % 16 + v.toNat % 16 + c.toNat) ∧
    flagPV f = decide (a.toInt + v.toInt + c.toNat < -128 ∨ 127 < a.toInt + v.toInt + c.toNat) ∧
    flagN f = false ∧ flagC f = decide (255 < a.toNat + v.toNat + c.toNat)

/-- `res` and `f` are the difference with borrow `c` and its flags. -/
def IsDifference (a v : Byte) (c : Bool) (res f : Byte) : Prop :=
  res = BitVec.ofInt 8 (a.toNat - v.toNat - c.toNat) ∧ CopiesResult f res ∧
    flagH f = decide (a.toNat % 16 < v.toNat % 16 + c.toNat) ∧
    flagPV f = decide (a.toInt - v.toInt - c.toNat < -128 ∨ 127 < a.toInt - v.toInt - c.toNat) ∧
    flagN f = true ∧ flagC f = decide (a.toNat < v.toNat + c.toNat)

theorem isSum_add8 (a v : Byte) (c : Bool) : IsSum a v c (add8 a v c).1 (add8 a v c).2 :=
  add8_numbers a v c

theorem isDifference_sub8 (a v : Byte) (c : Bool) :
    IsDifference a v c (sub8 a v c).1 (sub8 a v c).2 :=
  sub8_numbers a v c

/-- Settles O13: both are `add8`, `ADD` without the carry of the old flags and `ADC` with it. -/
theorem addAndAddWithCarry : Obligations.AddAndAddWithCarry := fun x withCarry =>
  match withCarry with
  | false => (isAccumulatorOp_add x).runs (fun a _ v => IsSum a v false)
      fun a _ v => isSum_add8 a v false
  | true => (isAccumulatorOp_adc x).runs (fun a f v => IsSum a v (flagC f))
      fun a f v => isSum_add8 a v (flagC f)

/-- Settles O14: both are `sub8`, `SUB` without the carry of the old flags and `SBC` with it. -/
theorem subtractAndSubtractWithBorrow : Obligations.SubtractAndSubtractWithBorrow :=
  fun x withBorrow =>
  match withBorrow with
  | false => (isAccumulatorOp_sub x).runs (fun a _ v => IsDifference a v false)
      fun a _ v => isDifference_sub8 a v false
  | true => (isAccumulatorOp_sbc x).runs (fun a f v => IsDifference a v (flagC f))
      fun a f v => isDifference_sub8 a v (flagC f)

/-! ### Comparison (R219) -/

/-- `f` holds the flags of the comparison of `a` with `v`. -/
def IsComparison (a v f : Byte) : Prop :=
  flagS f = (BitVec.ofInt 8 (a.toNat - v.toNat)).getLsbD 7 ∧ flagZ f = decide (a = v) ∧
    flagY f = v.getLsbD 5 ∧ flagX f = v.getLsbD 3 ∧
    flagH f = decide (a.toNat % 16 < v.toNat % 16) ∧
    flagPV f = decide (a.toInt - v.toInt < -128 ∨ 127 < a.toInt - v.toInt) ∧
    flagN f = true ∧ flagC f = decide (a.toNat < v.toNat)

/-- `Z` of a subtraction says that the operands are equal. -/
theorem ofInt_toNat_sub_toNat_eq_zero (a v : Byte) :
    BitVec.ofInt 8 (a.toNat - v.toNat) = 0#8 ↔ a = v := by
  rw [← BitVec.toNat_inj, BitVec.toNat_ofInt, BitVec.toNat_zero, ← BitVec.toNat_inj (x := a)]
  have := a.isLt
  have := v.isLt
  omega

/-- The flags of a subtraction without borrow, `Y` and `X` replaced by those of the operand. -/
theorem isComparison_aluCp (a v f : Byte) : IsComparison a v (aluCp a v f).2 := by
  obtain ⟨hres, ⟨hS, hZ, -, -⟩, hH, hPV, hN, hC⟩ := isDifference_sub8 a v false
  simp only [Bool.toNat_false, Nat.cast_zero, Int.sub_zero, Nat.add_zero] at hres hH hPV hC
  rw [hres] at hS hZ
  simp only [IsComparison, aluCp, flagS_flagByte, flagZ_flagByte, flagY_flagByte, flagX_flagByte,
    flagH_flagByte, flagPV_flagByte, flagN_flagByte, flagC_flagByte, hS, hZ, hH, hPV, hN, hC,
    ofInt_toNat_sub_toNat_eq_zero, and_self]

/-- A register that ends as it began belongs to those left alone. -/
theorem RegsKept.of_eq {q : Ent8} {l8 : List Ent8} {l16 : List Ent16} {s t : State}
    (h : RegsKept (q :: l8) l16 s t) (hq : t.r8 q = s.r8 q) : RegsKept l8 l16 s t where
  bytes p hp := by
    by_cases e : p = q
    · rw [e, hq]
    · exact h.bytes p (List.not_mem_cons_of_ne_of_not_mem e hp)
  words := h.words

/-- The same for an instruction that reads: a register its result says unchanged need not be named. -/
theorem RunsReading.of_kept {i : Instr} {code : List Byte} {cost : State → Nat} {sp : Space}
    {reads : State → List Word} {q : Ent8} {l8 : List Ent8} {l16 : List Ent16}
    {result : State → State → Prop}
    (h : RunsReading i code cost sp reads (q :: l8) l16 fun s t => t.r8 q = s.r8 q ∧ result s t) :
    RunsReading i code cost sp reads l8 l16 result := by
  obtain ⟨hcode, hissues, hruns⟩ := h
  refine ⟨hcode, hissues, fun s hs => ?_⟩
  obtain ⟨t, ht, hC, hd, hk, hq, hres⟩ := hruns s hs
  exact ⟨t, ht, hC, hd, hk.of_eq hq, hres⟩

/-- Settles O15: `CP` writes back the accumulator it has read, and the flags of the comparison. -/
theorem compareSetsFlagsOnly : Obligations.CompareSetsFlagsOnly := fun x =>
  RunsReading.of_kept <| (isAccumulatorOp_cp x).runs
    (fun a _ v res f' => res = a ∧ IsComparison a v f') fun a f v => ⟨rfl, isComparison_aluCp a v f⟩

/-! ### Bitwise operations (R216 to R218) -/

/-- `res` is `op` applied bit by bit, and `f` holds the flags of a logical result. -/
def IsBitwise (op : Bool → Bool → Bool) (half : Bool) (a v res f : Byte) : Prop :=
  (∀ k < 8, res.getLsbD k = op (a.getLsbD k) (v.getLsbD k)) ∧ CopiesResult f res ∧
    flagH f = half ∧ flagPV f = evenOnes res ∧ flagN f = false ∧ flagC f = false

/-- `logic8` supplies the flags of whatever byte the operation yields. -/
theorem isBitwise_logic8 {op : Bool → Bool → Bool} {a v res : Byte} (half : Bool)
    (hres : ∀ k, res.getLsbD k = op (a.getLsbD k) (v.getLsbD k)) :
    IsBitwise op half a v res (logic8 res half) :=
  ⟨fun k _ => hres k, copiesResult_flagByte _ _ _ _ _, flagH_flagByte ..,
    (flagPV_flagByte ..).trans (parity_eq res), flagN_flagByte .., flagC_flagByte ..⟩

/-- Settles O16: each is its operation on bit vectors with the flags of `logic8`. -/
theorem bitwiseOperations : Obligations.BitwiseOperations := fun x =>
  ⟨(isAccumulatorOp_and x).runs (fun a _ v => IsBitwise and true a v)
      fun _ _ _ => isBitwise_logic8 true fun _ => BitVec.getLsbD_and,
    (isAccumulatorOp_xor x).runs (fun a _ v => IsBitwise xor false a v)
      fun _ _ _ => isBitwise_logic8 false fun _ => BitVec.getLsbD_xor,
    (isAccumulatorOp_or x).runs (fun a _ v => IsBitwise or false a v)
      fun _ _ _ => isBitwise_logic8 false fun _ => BitVec.getLsbD_or⟩

end Sys2Proof.Machine

/-! Increment and decrement of a byte, of the byte at `(HL)` and of a pair, and `ADD HL,ss` (R220 to R226). -/

namespace Sys2Proof.Machine

/-! ### Bytes (R220 to R223) -/

/-- No operand field names `F` (R93). -/
theorem reg8_ent_ne_f (r : Reg8) : r.ent ≠ .f := by cases r <;> decide

/-- The shape of an instruction that replaces a register by what `op` makes of it, and the flags. -/
theorem runsUpdatingRegister {i : Instr} {code : List Byte} (r : Reg8)
    (op : Byte → Byte → Byte × Byte) (n : Byte → Byte) (flags : Byte → Byte → Byte → Prop)
    (hop : ∀ old f, (op old f).1 = n old ∧ flags old f (op old f).2) (hcode : encode i = code)
    (hexec : ∀ s, exec i s = finish 4
      ((s.putReg r (op (s.reg r) (s.r8 .f)).1).put8 .f (op (s.reg r) (s.r8 .f)).2)) :
    RunsOnRegisters i code (fun _ => 4) [r.ent, .f] []
      fun s t => t.r8 r.ent = n (s.r8 r.ent) ∧ flags (s.r8 r.ent) (s.r8 .f) (t.r8 .f) := by
  refine runsOnRegisters _ hcode hexec (fun _ => Nat.succ_pos _) (fun _ => rfl)
    (fun s => ((RegsKept.refl _ _ s).put8 _ _ (by simp)).put8 _ _ (by simp)) fun s t h => ?_
  rw [r8_of_regs h, State.r8_put8_of_ne _ _ _ _ (reg8_ent_ne_f r), State.r8_put8_self, State.putReg,
    State.r8_put8_self]
  exact hop _ _

/-- Settles O17: `inc8` and `dec8` of the register. -/
theorem incrementAndDecrementRegister : Obligations.IncrementAndDecrementRegister :=
  ⟨fun r => runsUpdatingRegister r inc8 _ incrementFlags inc8_numbers rfl fun _ => rfl,
    fun r => runsUpdatingRegister r dec8 _ decrementFlags dec8_numbers rfl fun _ => rfl⟩

/-- Settles O18: `inc8` and `dec8` of the byte read, which is what is written back. -/
theorem incrementAndDecrementMemory : Obligations.IncrementAndDecrementMemory :=
  ⟨runsReadModifyWrite inc8 _ (fun old f => (inc8_numbers old f).1) incrementFlags
      (fun old f => (inc8_numbers old f).2) rfl fun _ => rfl,
    runsReadModifyWrite dec8 _ (fun old f => (dec8_numbers old f).1) decrementFlags
      (fun old f => (dec8_numbers old f).2) rfl fun _ => rfl⟩

/-! ### Pairs (R224 to R226) -/

/-- The opcode byte of a row of pairs whose bit 3 is 1 (R92, R94). -/
theorem opByte_yOf_true : ∀ (x p : BitVec 2) (z : BitVec 3),
    opByte x (yOf p true) z = x ++ p ++ (1#1 ++ z) := by decide

/-- A weaker result of an instruction on registers. -/
theorem RunsOnRegisters.imp {i : Instr} {code : List Byte} {cost : State → Nat} {l8 : List Ent8}
    {l16 : List Ent16} {result result' : State → State → Prop}
    (h : RunsOnRegisters i code cost l8 l16 result) (himp : ∀ s t, result s t → result' s t) :
    RunsOnRegisters i code cost l8 l16 result' := by
  obtain ⟨hcode, hruns⟩ := h
  refine ⟨hcode, fun s => ?_⟩
  obtain ⟨t, ht, hC, hd, hk, hres⟩ := hruns s
  exact ⟨t, ht, hC, hd, hk, himp s t hres⟩

theorem encode_incSs (ss : PairSp) : encode (.incSs ss) = [0b00#2 ++ ss.field ++ 0b0011#4] :=
  congrArg (fun b => [b]) (opByte_yOf_false _ _ _)

theorem encode_decSs (ss : PairSp) : encode (.decSs ss) = [0b00#2 ++ ss.field ++ 0b1011#4] :=
  congrArg (fun b => [b]) (opByte_yOf_true _ _ _)

theorem encode_addHlSs (ss : PairSp) : encode (.addHlSs ss) = [0b00#2 ++ ss.field ++ 0b1001#4] :=
  congrArg (fun b => [b]) (opByte_yOf_true _ _ _)

theorem runsIncSs (ss : PairSp) : RunsOnRegisters (.incSs ss) [0b00#2 ++ ss.field ++ 0b0011#4]
    (fun _ => 6) ss.ent.halves [ss.ent]
    fun s t => (t.r16 ss.ent).toNat = ((s.r16 ss.ent).toNat + 1) % 65536 := by
  refine (runsPutting16 ss.ent (fun s => s.r16 ss.ent + 1#16) (encode_incSs ss) (Nat.succ_pos _)
    fun _ => rfl).imp fun s t h => ?_
  rw [h, BitVec.toNat_add]
  rfl

theorem runsDecSs (ss : PairSp) : RunsOnRegisters (.decSs ss) [0b00#2 ++ ss.field ++ 0b1011#4]
    (fun _ => 6) ss.ent.halves [ss.ent]
    fun s t => (t.r16 ss.ent).toNat = ((s.r16 ss.ent).toNat + 65535) % 65536 := by
  refine (runsPutting16 ss.ent (fun s => s.r16 ss.ent - 1#16) (encode_decSs ss) (Nat.succ_pos _)
    fun _ => rfl).imp fun s t h => ?_
  rw [h, BitVec.toNat_sub, Nat.add_comm]
  rfl

/-- Settles O19: one added to or taken from a 16-bit word. -/
theorem incrementAndDecrementPair : Obligations.IncrementAndDecrementPair := ⟨runsIncSs, runsDecSs⟩

/-- `res` and `f'` are the 16-bit sum and its flags, `S Z PV` as in the old flags `f` (R226). -/
def IsPairSum (a v : Word) (f : Byte) (res : Word) (f' : Byte) : Prop :=
  res.toNat = (a.toNat + v.toNat) % 65536 ∧
    flagS f' = flagS f ∧ flagZ f' = flagZ f ∧ flagPV f' = flagPV f ∧
    flagY f' = res.getLsbD 13 ∧ flagX f' = res.getLsbD 11 ∧
    flagH f' = decide (4095 < a.toNat % 4096 + v.toNat % 4096) ∧ flagN f' = false ∧
    flagC f' = decide (65535 < a.toNat + v.toNat)

theorem isPairSum_add16 (a v : Word) (f : Byte) :
    IsPairSum a v f (add16 a v f).1 (add16 a v f).2 :=
  ⟨BitVec.toNat_ofNat _ _, flagS_flagByte .., flagZ_flagByte .., flagPV_flagByte ..,
    flagY_flagByte .., flagX_flagByte .., flagH_flagByte .., flagN_flagByte .., flagC_flagByte ..⟩

/-- A pair that does not hold `F` is not touched by a write to it. -/
theorem State.r16_hl_put8_f (s : State) (v : Byte) : (s.put8 .f v).r16 .hl = s.r16 .hl := rfl

/-- Settles O20: `add16` of `HL` and the pair. -/
theorem addPairToHl : Obligations.AddPairToHl := fun ss => by
  refine runsOnRegisters _ (encode_addHlSs ss) (fun _ => rfl) (fun _ => Nat.succ_pos _) (fun _ => rfl)
    (fun s => ((RegsKept.refl _ _ s).putPair .hl _ (by decide)).put8 .f _ (by decide))
    fun s t h => ?_
  rw [r8_of_regs h, r16_of_regs h, State.r8_put8_self, State.r16_hl_put8_f, State.r16_put16_self]
  exact isPairSum_add16 _ _ _

end Sys2Proof.Machine

/-! Control transfers (spec/45_control.md): conditions, jumps, and the calls and returns that are taken or
not. -/

namespace Sys2Proof.Machine

/-- Settles O21: each condition is its flag, or the opposite, and each flag is its bit of `F`. -/
theorem conditionsReadTheirFlag : Obligations.ConditionsReadTheirFlag :=
  fun _ => ⟨rfl, rfl, rfl, rfl, rfl, rfl, rfl, rfl⟩

/-! ### Jumps (R232 to R237) -/

/-- A jump not taken is one to the next instruction, where `PC` stands (R158, R230). -/
theorem jump_ite (p : Prop) [Decidable p] (target : Word) (s : State) :
    (if p then jump target s else s) = jump (if p then target else s.r16 .pc) s := by
  split <;> rfl

/-- A jump whose cost depends on whether it is taken. -/
theorem finish_jump_ite (p : Prop) [Decidable p] (m n : Nat) (target : Word) (s : State) :
    (if p then finish m (jump target s) else finish n s) =
      finish (if p then m else n) (jump (if p then target else s.r16 .pc) s) := by
  split <;> rfl

/-- `x[PC] + sext_16(e)`: the displacement is signed, the sum modulo 2^16 (R235). -/
theorem relativeTarget_eq (s : State) (e : Byte) : relativeTarget s e = displaced s e :=
  indexedAddress_eq s .pc e

/-- The shape of an instruction that writes `PC` alone. -/
theorem runsJumping {i : Instr} {code : List Byte} {cost : State → Nat} (target : State → Word)
    (hcode : encode i = code) (hpos : ∀ s, 1 ≤ cost s)
    (hexec : ∀ s, exec i s = finish (cost s) (jump (target s) s)) :
    RunsOnRegisters i code cost [] [.pc] fun s t => t.r16 .pc = target s :=
  runsOnRegisters (fun s => jump (target s) s) hcode hexec hpos (fun _ => rfl)
    (fun s => (RegsKept.refl _ _ s).put16 .pc _ nofun (.inl (List.mem_singleton_self _)))
    fun s _ h => (congrFun (r16_of_regs h) _).trans (State.r16_put16_self s _ _)

/-- Settles O22: each form writes `PC` alone, a jump not taken with what it holds. -/
theorem absoluteJumps : Obligations.AbsoluteJumps :=
  ⟨fun nn => runsJumping (fun _ => nn) rfl (fun _ => Nat.succ_pos _) fun _ => rfl,
    fun cc nn => runsJumping (fun s => if s.meets cc then nn else s.r16 .pc) rfl
      (fun _ => Nat.succ_pos _) fun s => congrArg (finish 10) (jump_ite _ nn s),
    runsJumping (·.r16 .hl) rfl (fun _ => Nat.succ_pos _) fun _ => rfl⟩

theorem runsJrCc (cc : JrCond) (e : Byte) : RunsOnRegisters (.jrCc cc e)
    [opByte 0b00#2 cc.field 0b000#3, e] (fun s => if s.meets cc.cond then 12 else 7) [] [.pc]
    fun s t => t.r16 .pc = if s.meets cc.cond then displaced s e else s.r16 .pc := by
  refine runsJumping (fun s => if s.meets cc.cond then displaced s e else s.r16 .pc) rfl
    (fun s => one_le_ite (by decide) (by decide)) fun s => ?_
  rw [← relativeTarget_eq]
  exact finish_jump_ite _ 12 7 _ s

/-- `B` reaches 0 exactly from 1 (R237). -/
theorem sub_one_eq_zero_iff (b : Byte) : b - 1#8 = 0#8 ↔ b.toNat = 1 := by bv_omega

theorem sub_one_eq_ofNat (b : Byte) : b - 1#8 = BitVec.ofNat 8 (b.toNat + 255) := by bv_omega

/-- `DJNZ` writes `B` and then `PC`, which the write to `B` has left as it was (R237). -/
theorem exec_djnz (e : Byte) (s : State) : exec (.djnz e) s =
    finish (if (s.r8 .b).toNat = 1 then 8 else 13)
      (jump (if (s.r8 .b).toNat = 1 then s.r16 .pc else displaced s e)
        (s.put8 .b (s.r8 .b - 1#8))) := by
  have htarget : relativeTarget (s.put8 .b (s.r8 .b - 1#8)) e = displaced s e := by
    rw [relativeTarget, State.r16_put8_stored _ _ _ _ rfl]
    exact relativeTarget_eq s e
  simp only [exec, execDjnz, State.r8_put8_self, sub_one_eq_zero_iff, htarget]
  split <;> rfl

theorem runsDjnz (e : Byte) : RunsOnRegisters (.djnz e) [0x10#8, e]
    (fun s => if (s.r8 .b).toNat = 1 then 8 else 13) [.b] [.pc]
    fun s t => t.r8 .b = BitVec.ofNat 8 ((s.r8 .b).toNat + 255) ∧
      t.r16 .pc = if (s.r8 .b).toNat = 1 then s.r16 .pc else displaced s e := by
  refine runsOnRegisters _ rfl (exec_djnz e) (fun s => one_le_ite (by decide) (by decide))
    (fun _ => rfl)
    (fun s => ((RegsKept.refl _ _ s).put8 .b _ (List.mem_singleton_self _)).put16 .pc _ nofun
      (.inl (List.mem_singleton_self _)))
    fun s t h => ?_
  rw [r8_of_regs h, r16_of_regs h, jump, State.r8_put16_of_not_mem _ _ _ _ List.not_mem_nil,
    State.r8_put8_self, State.r16_put16_self]
  exact ⟨sub_one_eq_ofNat _, rfl⟩

/-- Settles O23: the targets are `displaced`, and `DJNZ` counts `B` down first. -/
theorem relativeJumps : Obligations.RelativeJumps :=
  ⟨fun e => runsJumping (displaced · e) rfl (fun _ => Nat.succ_pos _)
      fun s => congrArg (fun w => finish 12 (jump w s)) (relativeTarget_eq s e),
    runsJrCc, runsDjnz⟩

/-! ### Calls and returns (R238 to R242) -/

/-- From `s`, a call, a return, or one of the two not taken leads to `r`: the transactions it issues, and,
where devices answer or there are none, the cost, the devices it leaves and where `SP` and `PC` go. -/
structure Transfers (s : State) (r : Result) (cost : Nat) (p : Program) (devices : List Device)
    (sp pc : Word) : Prop where
  issues : Follows p [] s r
  ends : s.settled ∨ p = [] → ∃ t, r = .next t ∧ Completed cost s t ∧ t.devices = devices ∧
    t.cpu.regs = (jump pc (s.put16 .sp sp)).cpu.regs

theorem transfers_callTo (s : State) (target : Word) {cost : Nat} (hpos : 1 ≤ cost) :
    Transfers s (callTo target cost s) cost (writesAt .mem (returnAddressStores s))
      ((returnAddressStores s).foldl (fun u p => u.afterStore .mem p.1 p.2) s).devices
      (s.r16 .sp - 2#16) target :=
  ⟨follows_callTo s target cost,
    fun hs => callTo_settled (hs.resolve_right (List.cons_ne_nil _ _)) target cost hpos⟩

theorem transfers_returnFrom (s : State) {cost : Nat} (hpos : 1 ≤ cost) :
    Transfers s (returnFrom cost s) cost (readsAt .mem [s.r16 .sp, s.r16 .sp + 1#16]) s.devices
      (s.r16 .sp + 2#16)
      (compose (s.readValue .mem (s.r16 .sp + 1#16)) (s.readValue .mem (s.r16 .sp))) :=
  ⟨follows_returnFrom s cost,
    fun hs => returnFrom_settled (hs.resolve_right (List.cons_ne_nil _ _)) cost hpos⟩

/-- A transfer not taken: `SP` and `PC` stay where they stand (R239, R241). -/
theorem transfers_finish (s : State) {cost : Nat} (hpos : 1 ≤ cost) :
    Transfers s (finish cost s) cost [] s.devices (s.r16 .sp) (s.r16 .pc) :=
  ⟨follows_finish cost rfl rfl, fun _ => completed_finish cost hpos rfl⟩

/-- What a move of `SP` and a jump leave in the registers. -/
theorem regs_of_spAndJump {s t : State} {sp pc : Word}
    (h : t.cpu.regs = (jump pc (s.put16 .sp sp)).cpu.regs) :
    RegsKept [] [.sp, .pc] s t ∧ t.r16 .sp = sp ∧ t.r16 .pc = pc := by
  refine ⟨(((RegsKept.refl _ _ s).put16 .sp sp nofun (.inl (by decide))).put16 .pc pc nofun
    (.inl (by decide))).of_regs h, ?_, ?_⟩
  · rw [r16_of_regs h, jump, State.r16_put16_stored _ _ _ _ rfl (by decide), State.r16_put16_self]
  · rw [r16_of_regs h, jump, State.r16_put16_self]

section
variable {i : Instr} {code : List Byte} {cost : State → Nat} {sp pc : State → Word}
  (hcode : encode i = code)
include hcode

/-- The shape of a call. -/
theorem runsStoring_of_transfers {stores : State → List (Word × Byte)}
    (h : ∀ s, Transfers s (exec i s) (cost s) (writesAt .mem (stores s))
      ((stores s).foldl (fun u p => u.afterStore .mem p.1 p.2) s).devices (sp s) (pc s)) :
    RunsStoring i code cost (fun s => writesAt .mem (stores s)) stores [] [.sp, .pc]
      fun s t => t.r16 .sp = sp s ∧ t.r16 .pc = pc s := by
  refine ⟨hcode, (issues_iff _ _).2 fun s => (h s).issues, fun s hs => ?_⟩
  obtain ⟨t, ht, hC, hd, hr⟩ := (h s).ends hs
  exact ⟨t, ht, hC, hd, reference_stores hC.bus hd, regs_of_spAndJump hr⟩

/-- The shape of a return. -/
theorem runsReading_of_transfers {reads : State → List Word}
    (h : ∀ s, Transfers s (exec i s) (cost s) (readsAt .mem (reads s)) s.devices (sp s) (pc s)) :
    RunsReading i code cost .mem reads [] [.sp, .pc]
      fun s t => t.r16 .sp = sp s ∧ t.r16 .pc = pc s := by
  refine ⟨hcode, (issues_iff _ _).2 fun s => (h s).issues, fun s hs => ?_⟩
  obtain ⟨t, ht, hC, hd, hr⟩ := (h s).ends (hs.imp_right (congrArg (readsAt .mem)))
  exact ⟨t, ht, hC, hd, regs_of_spAndJump hr⟩

end

theorem runsCallCcNn (cc : Cond) (nn : Word) : RunsStoring (.callCcNn cc nn)
    [opByte 0b11#2 cc.field 0b100#3, lowByte nn, highByte nn]
    (fun s => if s.meets cc then 17 else 10)
    (fun s => writesAt .mem (if s.meets cc then returnAddressStores s else []))
    (fun s => if s.meets cc then returnAddressStores s else []) [] [.sp, .pc]
    fun s t => t.r16 .sp = (if s.meets cc then s.r16 .sp - 2#16 else s.r16 .sp) ∧
      t.r16 .pc = if s.meets cc then nn else s.r16 .pc := by
  refine runsStoring_of_transfers rfl fun s => ?_
  by_cases htaken : s.meets cc
  · simp only [exec, execCallCcNn, if_pos htaken]
    exact transfers_callTo s nn (Nat.succ_pos _)
  · simp only [exec, execCallCcNn, if_neg htaken]
    exact transfers_finish s (Nat.succ_pos _)

/-- The target is eight times the operand (R242). -/
theorem rstTarget_eq : ∀ p : BitVec 3, rstTarget p = BitVec.ofNat 16 (8 * p.toNat) := by decide

/-- Settles O24: a call is `callTo`, one not taken is nothing but its cost. -/
theorem callsPushTheReturnAddress : Obligations.CallsPushTheReturnAddress :=
  ⟨fun nn => runsStoring_of_transfers rfl fun s => transfers_callTo s nn (Nat.succ_pos _),
    runsCallCcNn, fun p => by
      rw [← rstTarget_eq]
      exact runsStoring_of_transfers rfl fun s => transfers_callTo s (rstTarget p) (Nat.succ_pos _)⟩

theorem runsRetCc (cc : Cond) : RunsReading (.retCc cc) [opByte 0b11#2 cc.field 0b000#3]
    (fun s => if s.meets cc then 11 else 5) .mem
    (fun s => if s.meets cc then [s.r16 .sp, s.r16 .sp + 1#16] else []) [] [.sp, .pc]
    fun s t => t.r16 .sp = (if s.meets cc then s.r16 .sp + 2#16 else s.r16 .sp) ∧ t.r16 .pc =
      if s.meets cc then
        compose (s.readValue .mem (s.r16 .sp + 1#16)) (s.readValue .mem (s.r16 .sp))
      else s.r16 .pc := by
  refine runsReading_of_transfers rfl fun s => ?_
  by_cases htaken : s.meets cc
  · simp only [exec, execRetCc, if_pos htaken]
    exact transfers_returnFrom s (Nat.succ_pos _)
  · simp only [exec, execRetCc, if_neg htaken]
    exact transfers_finish s (Nat.succ_pos _)

/-- Settles O25: a return is `returnFrom`, one not taken is nothing but its cost. -/
theorem returnsPopTheProgramCounter : Obligations.ReturnsPopTheProgramCounter :=
  ⟨runsReading_of_transfers rfl fun s => transfers_returnFrom s (Nat.succ_pos _), runsRetCc⟩

end Sys2Proof.Machine

/-! Input and output (spec/46_io.md): one port written, or one read into a register. -/

namespace Sys2Proof.Machine

/-! ### Output (R251, R253) -/

/-- Settles O26: each form writes one byte to its port and ends. -/
theorem outputsWriteTheirPort : Obligations.OutputsWriteTheirPort :=
  ⟨fun _ => runsOutput_of rfl (Nat.succ_pos _) fun _ => rfl,
    fun _ => runsOutput_of rfl (Nat.succ_pos _) fun _ => rfl⟩

/-! ### Input (R252, R254) -/

theorem runsInAN (n : Byte) : RunsReading (.inAN n) [0xDB#8, n] (fun _ => 11) .io
    (fun s => [compose (s.r8 .a) n]) [.a] []
    fun s t => t.r8 .a = s.readValue .io (compose (s.r8 .a) n) :=
  runsReadingOne (fun v u => u.put8 .a v) rfl (fun _ => rfl) (fun _ => Nat.succ_pos _)
    (fun _ _ => rfl) (fun _ s => (RegsKept.refl _ _ s).put8 _ _ (List.mem_singleton_self _))
    fun s _ h => (congrFun (r8_of_regs h) _).trans (State.r8_put8_self s _ _)

/-- `f'` are the flags of the byte `v` read from a port, `C` as in the old flags `f` (R254). -/
def IsInput (v f f' : Byte) : Prop :=
  CopiesResult f' v ∧ flagH f' = false ∧ flagPV f' = evenOnes v ∧ flagN f' = false ∧
    flagC f' = flagC f

theorem isInput_inputFlags (v f : Byte) : IsInput v f (inputFlags v f) :=
  ⟨copiesResult_flagByte v _ _ _ _, flagH_flagByte .., (flagPV_flagByte ..).trans (parity_eq v),
    flagN_flagByte .., flagC_flagByte ..⟩

theorem runsInRC (r : Reg8) : RunsReading (.inRC r) [0xED#8, opByte 0b01#2 r.field 0b000#3]
    (fun _ => 12) .io (fun s => [compose (s.r8 .b) (s.r8 .c)]) [r.ent, .f] []
    fun s t => t.r8 r.ent = s.readValue .io (compose (s.r8 .b) (s.r8 .c)) ∧
      IsInput (s.readValue .io (compose (s.r8 .b) (s.r8 .c))) (s.r8 .f) (t.r8 .f) := by
  refine runsReadingOne (fun v u => (u.putReg r v).put8 .f (inputFlags v (u.r8 .f))) rfl
    (fun _ => rfl) (fun _ => Nat.succ_pos _) (fun _ _ => rfl)
    (fun _ s => ((RegsKept.refl _ _ s).put8 _ _ (by simp)).put8 _ _ (by simp)) fun s t h => ?_
  rw [r8_of_regs h, State.r8_put8_of_ne _ _ _ _ (reg8_ent_ne_f r), State.r8_put8_self, State.putReg,
    State.r8_put8_self]
  exact ⟨rfl, isInput_inputFlags _ _⟩

/-- Settles O27: the port is taken from the registers before the byte read replaces one of them. -/
theorem inputsReadTheirPort : Obligations.InputsReadTheirPort := ⟨runsInAN, runsInRC⟩

end Sys2Proof.Machine

/-! The reference machine stays the reference machine, and what can abort it (R57, R260 to R265): its fetches
never fault, its handlers run to their end, and what is left are marked entries and peers that are gone. -/

namespace Sys2Proof.Machine

/-! ### A device keeps its place in the reference machine (R51 to R55) -/

/-- Whether the device lives, and its kind with launch contents in place of its own. -/
def Device.role (d : Device) : Bool × DeviceKind :=
  (d.alive, match d.kind with
    | .rom len _ => .rom len []
    | .ram len _ => .ram len []
    | .display _ => .display .reset
    | .scripted _ => .scripted [])

theorem Device.role_serve (d : Device) (q : Request) : (d.serve q).2.role = d.role := by
  obtain ⟨decl, kind, alive, registered, inbox, exited⟩ := d
  cases alive <;> cases kind <;> rfl

theorem Device.role_tick (d : Device) : d.tick.role = d.role := by
  obtain ⟨decl, kind, alive, registered, inbox, exited⟩ := d
  cases kind <;> rfl

theorem Device.isRom_iff_role (d : Device) (n : Nat) : d.isRom n ↔ d.role = (true, .rom n []) := by
  obtain ⟨decl, kind, alive, registered, inbox, exited⟩ := d
  cases kind <;> simp [Device.isRom, Device.role]

theorem Device.isRam_iff_role (d : Device) (n : Nat) : d.isRam n ↔ d.role = (true, .ram n []) := by
  obtain ⟨decl, kind, alive, registered, inbox, exited⟩ := d
  cases kind <;> simp [Device.isRam, Device.role]

theorem Device.isDisplay_iff_role (d : Device) :
    d.isDisplay ↔ d.role = (true, .display .reset) := by
  obtain ⟨decl, kind, alive, registered, inbox, exited⟩ := d
  cases kind <;> simp [Device.isDisplay, Device.role]

/-- The reference machine is known by its tables and by the roles of its devices. -/
theorem State.isReference_iff_roles (s : State) (port : Word) : s.isReference port ↔
    s.bus = Bus.reference port ∧ s.devices.map Device.role = [(true, .rom 0x4000 []),
      (true, .ram 0x4000 []), (true, .ram 0x8000 []), (true, .display .reset)] := by
  constructor
  · intro h
    obtain ⟨hb, rom, bank, ram, display, hd, h0, h1, h2, h3⟩ := State.isReference_devices h
    rw [hd, List.map_cons, List.map_cons, List.map_cons, List.map_cons, List.map_nil,
      (Device.isRom_iff_role ..).1 h0, (Device.isRam_iff_role ..).1 h1,
      (Device.isRam_iff_role ..).1 h2, (Device.isDisplay_iff_role _).1 h3]
    exact ⟨hb, rfl⟩
  · rintro ⟨hb, hd⟩
    simp only [List.map_eq_cons_iff, List.map_eq_nil_iff] at hd
    obtain ⟨rom, -, hds, h0, bank, -, rfl, h1, ram, -, rfl, h2, display, -, rfl, h3, rfl⟩ := hd
    simp only [State.isReference, hb, hds, (Device.isRom_iff_role ..).2 h0,
      (Device.isRam_iff_role ..).2 h1, (Device.isRam_iff_role ..).2 h2,
      (Device.isDisplay_iff_role _).2 h3, decide_true, Bool.and_self]

theorem State.isReference_of_roles {s t : State} {port : Word} (h : s.isReference port)
    (hb : t.bus = s.bus) (hd : t.devices.map Device.role = s.devices.map Device.role) :
    t.isReference port := by
  rw [State.isReference_iff_roles] at h ⊢
  rwa [hb, hd]

/-! ### The reference machine keeps its tables and roles (R57) -/

/-- The reference machine past its boot, with no input left that terminates an actor. -/
def State.SoundFor (port : Word) (s : State) : Prop :=
  s.isReference port ∧ s.status ≠ .booting ∧ ∀ p, .terminate p ∉ s.inputs

theorem State.soundReference_iff (s : State) (port : Word) :
    s.soundReference port ↔ s.SoundFor port := by
  unfold State.soundReference State.SoundFor
  rw [Bool.and_eq_true, Bool.and_eq_true, decide_eq_true_eq, and_assoc, List.all_eq_true]
  refine and_congr_right fun _ => and_congr_right fun _ =>
    ⟨fun h p hp => Bool.noConfusion (h _ hp), fun h x hx => ?_⟩
  cases x with
  | terminate p => exact absurd hx (h p)
  | _ => rfl

theorem soundFor_keptBySteps (port : Word) : KeptBySteps (State.SoundFor port) where
  regs := fun _ _ h => h
  ask := by
    intro n q s ⟨href, hrest⟩
    rcases askDevice_cases n q s with e | ⟨d, hd, e⟩ <;> rw [e]
    · exact ⟨href, hrest⟩
    · exact ⟨State.isReference_of_roles href rfl
        (devices_map_set _ _ _ _ _ hd (Device.role_serve d q)), hrest⟩
  fatal := fun _ _ ⟨href, _, hin⟩ => ⟨href, Status.noConfusion, hin⟩
  finish := fun _ _ _ h => h
  sched := fun _ _ h => h
  inputs := fun _ _ _ hx ⟨href, hst, hin⟩ =>
    ⟨href, hst, fun p hp => hin p (hx ▸ List.mem_cons_of_mem _ hp)⟩
  takeMessage := fun _ _ _ _ h => h
  owedTick := fun _ h => h
  beginFetch := fun _ h => h
  executing := fun _ h => h
  stopCpu := fun _ h => h
  stopped := fun _ _ ⟨href, _, hin⟩ => ⟨href, Status.noConfusion, hin⟩
  answerHost := fun _ _ h => h
  registered := fun _ _ _ hb ⟨_, hst, _⟩ => absurd hb hst
  attach := fun _ _ _ hb ⟨_, hst, _⟩ => absurd hb hst
  start := fun _ hb ⟨_, hst, _⟩ => absurd hb hst
  sendStop := fun _ h => h
  terminate := fun _ p _ hx ⟨_, _, hin⟩ => absurd (hx ▸ List.mem_cons_self) (hin p)
  count := fun _ h => h
  clockPhase := fun _ _ _ h => h
  takeStop := fun _ _ _ _ h => h
  enqueue := by
    intro s sub m _ ⟨href, hrest⟩
    cases sub with
    | cpu => exact ⟨href, hrest⟩
    | device n =>
      exact ⟨State.isReference_of_roles href rfl (devices_map_modify Device.role
        (fun d => { d with inbox := d.inbox ++ [m] }) (fun _ => rfl) _ _), hrest⟩
  deviceTick := fun _ _ d rest hd _ ⟨href, hrest⟩ => ⟨State.isReference_of_roles href rfl
    (devices_map_set _ _ _ _ _ hd (Device.role_tick { d with inbox := rest })), hrest⟩
  deviceStop := fun _ _ _ _ hd _ ⟨href, hrest⟩ => ⟨State.isReference_of_roles href rfl
    (devices_map_set Device.role _ _ _ _ hd rfl), hrest⟩

/-! ### Aborts at a marked entry or on a peer that is gone (R155, R260, R264) -/

/-- A marked entry, a subsystem that is gone, or a Clock that is. -/
def State.MayAbort (s : State) (f : Fatal) : Prop :=
  (∃ pc path, f = .notImplemented pc path) ∨ (∃ sub : SubId, f = .channelClosed sub.peer) ∨
    f = .channelClosed .clock ∧ s.clock.phase = .dead

/-- `t` is aborted only as `s` already is, or by a condition that `s` may raise. -/
def State.AbortsOnlyAllowed (s t : State) : Prop :=
  ∀ f, t.status = .aborted f → s.status = .aborted f ∨ s.MayAbort f

section
variable {s t : State}

theorem abortsOnlyAllowed_of_status (h : t.status = s.status) : s.AbortsOnlyAllowed t :=
  fun _ hf => .inl (h.symm.trans hf)

theorem State.MayAbort.raiseFatal {f : Fatal} (h : s.MayAbort f) (u : State) :
    s.AbortsOnlyAllowed (raiseFatal f u) := by
  intro g hg
  cases hg
  exact .inr h

theorem mayAbort_subsystem (s : State) (sub : SubId) : s.MayAbort (.channelClosed sub.peer) :=
  .inr (.inl ⟨sub, rfl⟩)

theorem mayAbort_clock (h : s.clock.phase = .dead) : s.MayAbort (.channelClosed .clock) :=
  .inr (.inr ⟨rfl, h⟩)

theorem mayAbort_missingPeer {p : Peer} (h : s.missingPeer = some p) :
    s.MayAbort (.channelClosed p) := by
  unfold State.missingPeer at h
  split at h
  · rename_i hdead
    cases h
    exact mayAbort_clock hdead
  · obtain ⟨sub, -, rfl⟩ := Option.map_eq_some_iff.1 h
    exact mayAbort_subsystem s sub.1

/-- `Stopped` is no abort. -/
theorem settle_abortsOnlyAllowed (h : t.status = s.status) : s.AbortsOnlyAllowed (settle t) := by
  obtain e | e := settle_cases t <;> rw [e]
  · exact abortsOnlyAllowed_of_status h
  · exact fun _ hf => Status.noConfusion hf

/-- Sending meets at worst a subsystem that is gone (R141). -/
theorem sendTo_abortsOnlyAllowed (sub : SubId) (m : ClockMsg) (h : t.status = s.status) :
    s.AbortsOnlyAllowed (sendTo sub m t) := by
  unfold sendTo
  split
  · exact (mayAbort_subsystem s sub).raiseFatal t
  · cases sub <;> exact abortsOnlyAllowed_of_status h

theorem clockStep_abortsOnlyAllowed (s : State) : (clockStep s).Keeps s.AbortsOnlyAllowed := by
  unfold clockStep
  split
  case h_3 =>
    split
    · exact keeps_refused _
    · split
      · exact keeps_next (sendTo_abortsOnlyAllowed _ _ rfl)
      · exact keeps_next (abortsOnlyAllowed_of_status rfl)
  case h_4 => split <;> exact keeps_next (abortsOnlyAllowed_of_status rfl)
  case h_5 => exact keeps_next (settle_abortsOnlyAllowed rfl)
  case h_6 => exact keeps_next (sendTo_abortsOnlyAllowed _ _ rfl)
  all_goals exact keeps_next (abortsOnlyAllowed_of_status rfl)

/-- A device with no message left moves only when the Clock is gone (R264). -/
theorem deviceStep_abortsOnlyAllowed {n : Nat} (hr : s.deviceReady n) :
    (deviceStep n s).Keeps s.AbortsOnlyAllowed := by
  unfold deviceStep
  split
  · exact keeps_next (abortsOnlyAllowed_of_status rfl)
  · rename_i d hd
    split
    · rename_i hi
      have hdead : s.clock.phase = .dead := by
        simp only [State.deviceReady, hd, hi, List.isEmpty_nil, Bool.not_true, Bool.false_or,
          Bool.and_eq_true, decide_eq_true_eq] at hr
        exact hr.2.1
      exact keeps_next ((mayAbort_clock hdead).raiseFatal s)
    · exact keeps_next (abortsOnlyAllowed_of_status rfl)
    · exact keeps_next (settle_abortsOnlyAllowed rfl)

/-- Past the boot the outside reaches the Bus no more (R41), and raises nothing of its own. -/
theorem hostStep_abortsOnlyAllowed (hb : s.status ≠ .booting) :
    (hostStep s).Keeps s.AbortsOnlyAllowed := by
  unfold hostStep
  split
  · exact keeps_next (abortsOnlyAllowed_of_status rfl)
  · rename_i x rest _
    cases x with
    | stop n => exact keeps_next (abortsOnlyAllowed_of_status rfl)
    | terminate p => cases p <;> exact keeps_next (abortsOnlyAllowed_of_status rfl)
    | register | read | write | attach | start => exact whileBooting_keeps fun h => absurd h hb

theorem standStill_abortsOnlyAllowed (s : State) : (standStill s).Keeps s.AbortsOnlyAllowed := by
  unfold standStill
  split
  · split
    · rename_i hp
      exact keeps_next ((mayAbort_missingPeer hp).raiseFatal s)
    · split
      · exact keeps_next (abortsOnlyAllowed_of_status rfl)
      · exact keeps_fault _
  · exact keeps_next (abortsOnlyAllowed_of_status rfl)

/-- Where devices answer, a handler runs to its end, so only a marked entry aborts (R155, R267). -/
theorem exec_abortsOnlyAllowed (i : Instr) (hs : s.settled) :
    Result.Keeps s.AbortsOnlyAllowed (exec i s) := by
  cases hi : i.isNotImplemented with
  | false =>
    obtain ⟨t, ht, hC, -, -⟩ := everyInstructionCompletesAtItsCost.1 i s hi hs
    rw [ht]
    exact keeps_next (abortsOnlyAllowed_of_status hC.status)
  | true =>
    rw [exec_marked hi]
    exact keeps_next (State.MayAbort.raiseFatal (.inl ⟨_, _, rfl⟩) s)

/-! ### A fetch on the reference machine (R57, R153, R265) -/

variable {port : Word} (href : s.isReference port)
include href

/-- Every memory address is mapped to a device that answers, so no fetch faults. -/
theorem fetchByte_reference (a : Word) : ∃ b, ∀ k, fetchByte a s k = k b s := by
  obtain ⟨_, _, _, _, _, _, _, _, h⟩ := State.reference_of_isReference href
  exact ⟨_, fetchByte_ok (h.busRead_mem a)⟩

theorem fetchOperands_reference (pc0 : Word) (n : Nat) (l : Leaf) :
    ∃ i m, ∀ k, fetchOperands pc0 n l s k = k i m s := by
  cases l with
  | op0 i => exact ⟨i, n, fun _ => rfl⟩
  | notImplemented i => exact ⟨i, n, fun _ => rfl⟩
  | op1 f =>
    obtain ⟨b, hb⟩ := fetchByte_reference href (pc0 + BitVec.ofNat 16 n)
    exact ⟨f b, n + 1, fun _ => hb _⟩
  | op2 f =>
    obtain ⟨lo, hlo⟩ := fetchByte_reference href (pc0 + BitVec.ofNat 16 n)
    obtain ⟨hi, hhi⟩ := fetchByte_reference href (pc0 + BitVec.ofNat 16 (n + 1))
    exact ⟨f (compose hi lo), n + 2, fun _ => (hlo _).trans (hhi _)⟩

/-- Every fetch ends in an instruction, with the machine as it was. -/
theorem fetchInstr_reference (pc0 : Word) : ∃ i n, ∀ k, fetchInstr pc0 s k = k i n s := by
  obtain ⟨b, hb⟩ := fetchByte_reference href pc0
  unfold fetchInstr
  cases e : dtRef b with
  | leaf l =>
    obtain ⟨i, n, h⟩ := fetchOperands_reference href pc0 1 l
    exact ⟨i, n, fun k => by rw [hb, e]; exact h k⟩
  | subTable t =>
    obtain ⟨b2, hb2⟩ := fetchByte_reference href (pc0 + 1#16)
    obtain ⟨i, n, h⟩ := fetchOperands_reference href pc0 2 (dtSub t b2)
    exact ⟨i, n, fun k => by rw [hb, e]; exact (hb2 _).trans (h k)⟩

theorem runInstruction_abortsOnlyAllowed :
    (runInstruction dtReference s).Keeps s.AbortsOnlyAllowed := by
  have hfetch : (beginFetch s).isReference port := href
  obtain ⟨i, n, h⟩ := fetchInstr_reference hfetch (s.r16 .pc)
  rw [runInstruction_reference, h]
  unfold enterHandler
  split <;> exact exec_abortsOnlyAllowed i (State.settled_of_isReference hfetch)

/-! ### One step (R262, R265) -/

/-- A CPU with no message left moves only when the Clock is gone (R264). -/
theorem cpuStep_abortsOnlyAllowed (hr : s.cpuReady) :
    (cpuStep dtReference s).Keeps s.AbortsOnlyAllowed := by
  unfold cpuStep
  split
  · unfold cpuTick
    split
    · exact keeps_next (abortsOnlyAllowed_of_status rfl)
    · exact runInstruction_abortsOnlyAllowed (s := s.withQueue _) href
  · exact keeps_next (settle_abortsOnlyAllowed rfl)
  · rename_i hq
    have hdead : s.clock.phase = .dead := by
      simp only [State.cpuReady, hq, List.isEmpty_nil, Bool.not_true, Bool.false_or,
        Bool.and_eq_true, decide_eq_true_eq] at hr
      exact hr.2
    exact keeps_next ((mayAbort_clock hdead).raiseFatal s)

theorem act_abortsOnlyAllowed (hb : s.status ≠ .booting) {x : Agent} (hr : s.ready x) :
    (act dtReference x s).Keeps s.AbortsOnlyAllowed := by
  cases x with
  | host => exact hostStep_abortsOnlyAllowed hb
  | cpu => exact cpuStep_abortsOnlyAllowed href (Bool.and_eq_true_iff.1 hr).2
  | device n => exact deviceStep_abortsOnlyAllowed (Bool.and_eq_true_iff.1 hr).2
  | clock => exact clockStep_abortsOnlyAllowed s

theorem moveOn_abortsOnlyAllowed (hb : s.status ≠ .booting) :
    (moveOn dtReference s).Keeps s.AbortsOnlyAllowed := by
  unfold moveOn
  split
  · rename_i x rest _
    split
    · rename_i hr
      exact act_abortsOnlyAllowed (s := { s with sched := rest }) href hb
        ((ready_withSched s rest x).trans hr)
    · exact keeps_next (abortsOnlyAllowed_of_status rfl)
  · split
    · rename_i x hx
      exact act_abortsOnlyAllowed href hb (by simpa using List.find?_some hx)
    · exact standStill_abortsOnlyAllowed s

/-- A final machine raises nothing (R31, R266); any other moves. -/
theorem step_abortsOnlyAllowed (hb : s.status ≠ .booting) :
    Result.Keeps s.AbortsOnlyAllowed (step s) := by
  cases hst : s.status with
  | booting => exact absurd hst hb
  | running =>
    have hmove : step s = moveOn dtReference s := by unfold step stepOf; rw [hst]
    rw [hmove]
    exact moveOn_abortsOnlyAllowed href hb
  | stopped =>
    obtain ⟨t, ht, hstopped, -⟩ := finalStatusesAreFinal.2 s hst
    rw [ht]
    exact keeps_next (abortsOnlyAllowed_of_status (hstopped.trans hst.symm))
  | aborted f =>
    rw [finalStatusesAreFinal.1 s f hst]
    exact keeps_next (abortsOnlyAllowed_of_status rfl)

end

/-- Settles O59: nothing a step does changes tables or roles, its fetches and transactions are answered, and
each abort that is left is a marked entry or a peer that is gone. -/
theorem referenceMachineNeverFetchFaults : Obligations.ReferenceMachineNeverFetchFaults := by
  intro s t port hs ht
  rw [State.soundReference_iff] at hs ⊢
  exact ⟨step_keeps (soundFor_keptBySteps port) hs t ht, step_abortsOnlyAllowed hs.1 hs.2.1 t ht⟩

end Sys2Proof.Machine
